-- ==== Sys2Proof/Word.lean ====
section
/-! DEFINITION. The word types of TXC (spec/30_encoding.md R80, spec/00_scope.md R8): bytes and 32-bit command words. -/

namespace Sys2Proof

/-- 8 bits: an operand field, a bus byte, a display byte (R8, R80). -/
abbrev Byte := BitVec 8

/-- 32 bits: one command word (R80). -/
abbrev Word := BitVec 32

end Sys2Proof
end

