-- ==== Sys2Proof/Config.lean ====
section
/-! DEFINITION. The implementation parameters of spec/00_scope.md R7 (fixed ones as definitions, OPEN ones as the record
`Params`), and the FREE VALUES: opaque constants without a body, one for each thing the spec calls a `draw`. -/

namespace Sys2Proof

/-- What the transceiver does with one bus step: reports it complete with acknowledgment status `OK` or `FAIL`
(R87), or never reports completion (R117). -/
inductive Answer where
  | ok
  | fail
  | never
  deriving DecidableEq, Repr, Inhabited

/-- `DEV.cfg` (R52): whether a fully acknowledged `INIT` has run. -/
inductive DevCfg where
  | unconfigured
  | configured
  deriving DecidableEq, Repr, Inhabited

/-- The OPEN parameters of R7 (and R29): constants of the block whose values no source gives. -/
structure Params where
  /-- `DEV_ADDR_W` (R89) -/
  devAddrW : Byte
  /-- `COL_HI_BIAS` (R143) -/
  colHiBias : Byte
  /-- `COLRANGE_OP` (R90, R184) -/
  colRangeOp : Byte
  /-- `PAGERANGE_OP` (R90, R184) -/
  pageRangeOp : Byte
  /-- `INIT_SEQ` (R185) -/
  initSeq : List Byte
  deriving DecidableEq, Repr, Inhabited

namespace Config

/-- `WIDTH` (R7) -/
def width : Nat := 128
/-- `HEIGHT` (R7) -/
def height : Nat := 64
/-- `PAGES` (R7) -/
def pages : Nat := 8
/-- `PAGE_ROWS` (R7) -/
def pageRows : Nat := 8
/-- `FRAME_BYTES` (R7): the bytes `CLEAR` writes. -/
def frameBytes : Nat := 1024
/-- `CTRL_CMD` (R7, R91) -/
def ctrlCmd : Byte := 0x00#8
/-- `CTRL_DATA` (R7, R91) -/
def ctrlData : Byte := 0x40#8
/-- `CMD_PAGE_BASE` (R7) -/
def cmdPageBase : Byte := 0xB0#8
/-- `CMD_DISPLAY_OFF` (R7) -/
def cmdDisplayOff : Byte := 0xAE#8
/-- `CMD_DISPLAY_ON` (R7) -/
def cmdDisplayOn : Byte := 0xAF#8
/-- `CMD_CONTRAST` (R7) -/
def cmdContrast : Byte := 0x81#8
/-- `COL_LO_BIAS` (R7; the spec's decision D15; notes/assumptions/12.md) -/
def colLoBias : Byte := 0x00#8

/-- The OPEN parameters of the block at hand: nothing is known of them (notes/assumptions/2.md). -/
opaque params : Params

/-- The transceiver's answer number `n` past the answers State holds (R35; notes/assumptions/4.md). -/
opaque freeAnswer (n : Nat) : Answer
/-- Draw `n` of `DEV.col` (R52; notes/assumptions/5.md). -/
opaque freeCol (n : Nat) : Fin 128
/-- Draw `n` of `DEV.page` (R52). -/
opaque freePage (n : Nat) : Fin 8
/-- Draw `n` of `DEV.on` (R52). -/
opaque freeOn (n : Nat) : Bool
/-- Draw `n` of `DEV.contrast` (R52, R60). -/
opaque freeContrast (n : Nat) : Byte
/-- Draw `n` of `DEV.cfg` (R52, R61). -/
opaque freeCfg (n : Nat) : DevCfg
/-- The byte at display address `a` in draw `n` of `DEV.gddram` (R36, R52; notes/assumptions/6.md). -/
opaque freeByte (n a : Nat) : Byte

end Config

/-- The `INIT` payload (R184): `INIT_SEQ`, then the column range [0,127], then the page range [0,7]. -/
def Params.initPayload (p : Params) : List Byte :=
  p.initSeq ++ [p.colRangeOp, 0#8, 127#8, p.pageRangeOp, 0#8, 7#8]

/-- `b` is one of the first bytes that R59's table gives to a command other than column-high. -/
def isOtherFirstByte (b : Byte) : Bool :=
  (Config.cmdPageBase.toNat ≤ b.toNat && b.toNat ≤ Config.cmdPageBase.toNat + 7)
    || (Config.colLoBias.toNat ≤ b.toNat && b.toNat ≤ Config.colLoBias.toNat + 15)
    || b == Config.cmdDisplayOff || b == Config.cmdDisplayOn || b == Config.cmdContrast

/-- R59: "The OPEN parameters must keep the first-byte sets of the table disjoint". The column-high bytes
`COL_HI_BIAS` to `COL_HI_BIAS + 7` are bytes, and none is another command's first byte. -/
def Params.disjoint (p : Params) : Bool :=
  decide (p.colHiBias.toNat + 7 < 256) &&
    (List.range 8).all fun h => !isOtherFirstByte (p.colHiBias + BitVec.ofNat 8 h)

/-- How many argument bytes follow the first byte `b` of a command that the device knows (R90); none where `b` is no first
byte of R90's table. R90 and R96 leave the shape of `0x20`, `0xA8`, `0xD3`, `0xD5`, `0xD9`, `0xDA`, `0xDB` and `0x8D` open:
one argument byte each is PRESUMED (the spec's G4, general knowledge; notes/assumptions/29.md). No rule says which row `b`
belongs to where an OPEN opcode equals another row's first byte: that the fixed bytes come first, then the two range
opcodes, then column-high is a DESIGN CHOICE (notes/assumptions/31.md). -/
def Params.argBytes (p : Params) (b : Byte) : Option Nat :=
  if [0x20#8, 0xA8#8, 0xD3#8, 0xD5#8, 0xD9#8, 0xDA#8, 0xDB#8, 0x8D#8, Config.cmdContrast].contains b then some 1
  else if [0xA1#8, 0xA4#8, 0xA6#8, 0xA7#8, 0xC8#8].contains b || isOtherFirstByte b then some 0
  else if b == p.colRangeOp || b == p.pageRangeOp then some 2
  else if p.colHiBias.toNat ≤ b.toNat && b.toNat ≤ p.colHiBias.toNat + 7 then some 0
  else none

/-- The first bytes of the commands that a byte list is made of, read from the left; `skip` argument bytes of a command
before it stand in front. None where a byte that must begin a command is unknown, or where the list ends inside one. -/
def Params.commandHeads (p : Params) : Nat → List Byte → Option (List Byte)
  | 0, [] => some []
  | _ + 1, [] => none
  | skip + 1, _ :: l => p.commandHeads skip l
  | 0, b :: l =>
    match p.argBytes b with
    | none => none
    | some n => (p.commandHeads n l).map (b :: ·)

/-- The first bytes of R185 (b), in its order: multiplex ratio, addressing mode, segment remap, COM scan direction, clock
divider, charge pump, contrast, display-on. -/
def initCommands : List Byte := [0xA8#8, 0x20#8, 0xA1#8, 0xC8#8, 0xD5#8, 0x8D#8, Config.cmdContrast, Config.cmdDisplayOn]

/-- What R185 says is known of `INIT_SEQ`: (a) it is not empty; (b) it is a list of whole commands among which those named
there stand in that order, and its last is display-on (R60, R90); (c) other commands of R90 may stand between them; (d) no
argument's value is known. Where a command ends rests on the shapes of `Params.argBytes` (notes/assumptions/29.md). No rule
of the machine reads this; a claim may assume it. -/
def Params.initSeqKnown (p : Params) : Bool :=
  match p.commandHeads 0 p.initSeq with
  | none => false
  | some heads => initCommands.isSublist heads && heads.getLast? == some Config.cmdDisplayOn

end Sys2Proof
end

