-- ==== Sys2Proof/Syntax.lean ====
section
/-! DEFINITION. The 13 operations of spec/opcode_table.json (spec/00_scope.md R3, spec/30_encoding.md R81). -/

namespace Sys2Proof

/-- One operation request. An operand is the whole 8-bit field, so that a value outside its domain can be written
down (R85); `Instr.wf` says which are in the domain. -/
inductive Instr where
  /-- `BEGIN` (R113) -/
  | beginSess
  /-- `TXBYTE v` (R114) -/
  | txByte (v : Byte)
  /-- `END` (R115) -/
  | endSess
  /-- `OPENCMD` (R130) -/
  | openCmd
  /-- `OPENDATA` (R131) -/
  | openData
  /-- `SETPOS x, page` (R142) -/
  | setPos (x page : Byte)
  /-- `DRAWH x, y, len` (R153) -/
  | drawH (x y len : Byte)
  /-- `DRAWV x, y, len` (R157) -/
  | drawV (x y len : Byte)
  /-- `INIT` (R184) -/
  | init
  /-- `CLEAR` (R183) -/
  | clear
  /-- `PWROFF` (R181) -/
  | pwrOff
  /-- `PWRON` (R180) -/
  | pwrOn
  /-- `CONTRAST v` (R182) -/
  | contrast (v : Byte)
  deriving DecidableEq, Repr

end Sys2Proof
end

