-- ==== Sys2Proof/WellFormed.lean ====
section
/-! DEFINITION. The operand domains of spec/30_encoding.md R85. -/

namespace Sys2Proof

/-- The operands of `SETPOS` are in their domain (R85). -/
def setPosDomain (x page : Byte) : Bool :=
  decide (x.toNat ≤ 127) && decide (page.toNat ≤ 7)

/-- The operands of `DRAWH` are in their domain (R85, D17). -/
def drawHDomain (x y len : Byte) : Bool :=
  decide (x.toNat ≤ 127) && decide (y.toNat ≤ 63) && decide (1 ≤ len.toNat)
    && decide (x.toNat + len.toNat ≤ 128)

/-- The operands of `DRAWV` are in their domain (R85, R155). -/
def drawVDomain (x y len : Byte) : Bool :=
  decide (x.toNat ≤ 127) && decide (y.toNat ≤ 63) && decide (1 ≤ len.toNat) && decide (len.toNat ≤ 64)
    && decide (y.toNat + len.toNat ≤ 64)

/-- The operation's operands are in the domain R85 gives it. -/
def Instr.wf : Instr → Bool
  | .setPos x page => setPosDomain x page
  | .drawH x y len => drawHDomain x y len
  | .drawV x y len => drawVDomain x y len
  | .beginSess | .txByte _ | .endSess | .openCmd | .openData | .init | .clear | .pwrOff | .pwrOn
  | .contrast _ => true

end Sys2Proof
end

