-- ==== Sys2Proof/Decode.lean ====
section
/-! DEFINITION. The command word (spec/30_encoding.md R80 to R84, R93): decoder, encoder, and the host's entry point
`decodeTableWord`. Operand domains (R85) are not the decoder's: acceptance checks them (`Instr.wf`). -/

namespace Sys2Proof

/-- Why a word is a reserved encoding (R84): its opcode is not listed in R81, or a field that R81 shows as 0 is
not zero (R83). -/
inductive Reserved where
  | opcode (op : Byte)
  | unusedField (op : Byte)
  deriving DecidableEq, Repr

/-- `W[31:24]` (R80) -/
def fieldOp (w : Word) : Byte := w.extractLsb' 24 8
/-- `W[23:16]` (R80) -/
def fieldA (w : Word) : Byte := w.extractLsb' 16 8
/-- `W[15:8]` (R80) -/
def fieldB (w : Word) : Byte := w.extractLsb' 8 8
/-- `W[7:0]` (R80) -/
def fieldC (w : Word) : Byte := w.extractLsb' 0 8

/-- The word with the four fields given, `op` most significant (R80). -/
def packWord (op a b c : Byte) : Word := op ++ a ++ b ++ c

/-- Accept `i` if every field in `unused` is zero; else the word is reserved (R83). -/
def needZero (op : Byte) (unused : List Byte) (i : Instr) : Except Reserved Instr :=
  if unused.all (· == 0#8) then .ok i else .error (.unusedField op)

/-- The operation a command word names, or the reason it is reserved (R81, R83, R84). -/
def decode (w : Word) : Except Reserved Instr :=
  let op := fieldOp w
  let a := fieldA w
  let b := fieldB w
  let c := fieldC w
  match op.toNat with
  | 0x01 => needZero op [a, b, c] .beginSess
  | 0x02 => needZero op [b, c] (.txByte a)
  | 0x03 => needZero op [a, b, c] .endSess
  | 0x10 => needZero op [a, b, c] .openCmd
  | 0x11 => needZero op [a, b, c] .openData
  | 0x20 => needZero op [c] (.setPos a b)
  | 0x30 => .ok (.drawH a b c)
  | 0x31 => .ok (.drawV a b c)
  | 0x40 => needZero op [a, b, c] .init
  | 0x41 => needZero op [a, b, c] .clear
  | 0x42 => needZero op [a, b, c] .pwrOff
  | 0x43 => needZero op [a, b, c] .pwrOn
  | 0x44 => needZero op [b, c] (.contrast a)
  | _ => .error (.opcode op)

/-- The opcode of an operation (R81). -/
def Instr.opcode : Instr → Byte
  | .beginSess => 0x01#8
  | .txByte _ => 0x02#8
  | .endSess => 0x03#8
  | .openCmd => 0x10#8
  | .openData => 0x11#8
  | .setPos _ _ => 0x20#8
  | .drawH _ _ _ => 0x30#8
  | .drawV _ _ _ => 0x31#8
  | .init => 0x40#8
  | .clear => 0x41#8
  | .pwrOff => 0x42#8
  | .pwrOn => 0x43#8
  | .contrast _ => 0x44#8

/-- The operand fields `a`, `b`, `c` of an operation, 0 where R81 shows 0 (R82, R83). -/
def Instr.operands : Instr → Byte × Byte × Byte
  | .txByte v | .contrast v => (v, 0#8, 0#8)
  | .setPos x page => (x, page, 0#8)
  | .drawH x y len | .drawV x y len => (x, y, len)
  | .beginSess | .endSess | .openCmd | .openData | .init | .clear | .pwrOff | .pwrOn => (0#8, 0#8, 0#8)

/-- The command word of an operation (R80, R81). -/
def encode (i : Instr) : Word :=
  packWord i.opcode i.operands.1 i.operands.2.1 i.operands.2.2

/-- The word whose bits are `w`, of which the table gives the low `nbits`; every bit above is 0. -/
def tableWord (nbits w : Nat) : Word := BitVec.ofNat 32 (w % 2 ^ nbits)

/-- The operation this decoder reads from the command word with bits `w` (one word of 32 bits, R93). -/
def decodeTableWord (nbits w : Nat) : Option Instr :=
  match decode (tableWord nbits w) with
  | .ok i => some i
  | .error _ => none

end Sys2Proof
end

