-- ==== Sys2Proof/Machine/State.lean ====
section
/-! DEFINITION. The state of a TXC system as plain data (spec/10_state.md R20): what the block holds, the device model
and the bus step in flight, the trace, and the model's inputs; why a request is refused; the state after reset (R36). -/

namespace Sys2Proof.Machine

/-- The four bus steps (R86). -/
inductive Kind where
  | start
  | addr
  | data
  | stop
  deriving DecidableEq, Repr

/-- A bus request (R86): `data` is the byte of `ADDR` and `DATA`, zero for `START` and `STOP`. -/
structure Req where
  kind : Kind
  data : Byte
  deriving DecidableEq, Repr

/-- The acknowledgment status of a completed checked step (R87). -/
inductive Status where
  | ok
  | fail
  deriving DecidableEq, Repr

/-- The event forms of `TRACE` (R32). -/
inductive Event where
  | irqOff
  | irqOn
  | req (r : Req)
  | rsp (s : Status)
  | done
  | err (k : Kind)
  deriving DecidableEq, Repr

/-- `SESS` (R25). -/
inductive Sess where
  | closed
  | opened
  deriving DecidableEq, Repr

/-- `PHASE` (R23). -/
inductive Phase where
  | idle
  | run
  deriving DecidableEq, Repr

/-- One move of the host (R246): present a command word; assert `rst`; or present a command word and assert `rst` once
`n` micro-steps of its operation have completed (R230 "from any state", R246 "reset at any time"). -/
inductive HostMove where
  | word (w : Word)
  | rst
  | wordThenRst (w : Word) (n : Nat)
  deriving DecidableEq, Repr

/-- The transceiver's coming answers, an input (R35): those already settled, oldest first, and how many free answers
have been drawn past them (notes/assumptions/4.md). -/
structure Answers where
  queue : List Answer
  drawn : Nat
  deriving DecidableEq, Repr

/-- The display RAM (R50): the bytes written since its last draw, by address `page * 128 + column`, strictly rising;
every byte not listed is the one draw number `epoch` left there (notes/assumptions/6.md). -/
structure Memory where
  cells : List Host.Cell
  epoch : Nat
  deriving DecidableEq, Repr

/-- The device model `DEV` (R52), and `draws`, the model's own count of the draws made for it. -/
structure Dev where
  gddram : Memory
  col : Fin 128
  page : Fin 8
  on : Bool
  contrast : Byte
  cfg : DevCfg
  draws : Nat
  deriving DecidableEq, Repr

/-- The state of a TXC system (R20). The last three fields are the model's own inputs and constants. -/
structure State where
  /-- operand latch `RA` (R21) -/
  ra : Byte
  /-- operand latch `RB` (R21) -/
  rb : Byte
  /-- operand latch `RC` (R21) -/
  rc : Byte
  /-- `MS`, the start mask (R22) -/
  ms : Byte
  /-- `ME`, the end mask (R22) -/
  me : Byte
  /-- `PG`, the page of the page write in progress (R22) -/
  pg : BitVec 4
  /-- `CNT`, bytes or page writes still to go (R22) -/
  cnt : BitVec 11
  /-- `OP`, the opcode of the running operation (R23) -/
  op : Byte
  /-- `PHASE` (R23) -/
  phase : Phase
  /-- `SEQ`, the index of the next micro-step (R23) -/
  seq : Nat
  /-- `SESS`, the Bus Session flag (R25) -/
  sess : Sess
  /-- `IE`, host interrupt delivery (R26) -/
  ie : Bool
  /-- `ERRF`, the sticky error flag (R27) -/
  errf : Bool
  /-- `DEV`, the device model (R52) -/
  dev : Dev
  /-- `PENDING`, the bus step in flight (R34) -/
  pending : Option Req
  /-- `TRACE` (R32), newest event first (notes/assumptions/20.md) -/
  events : List Event
  /-- the OPEN parameters (R7, R29), never written (notes/assumptions/2.md) -/
  params : Params
  /-- the host's coming moves, oldest first (R12, R37; notes/assumptions/3.md) -/
  host : List HostMove
  /-- the transceiver's coming answers (R35; notes/assumptions/4.md) -/
  answers : Answers
  deriving DecidableEq, Repr

/-- `TRACE` in the order the events happened (R32). -/
def State.trace (s : State) : List Event := s.events.reverse

/-- TXC has no outcome that stops it by a fault (R10; 93_implementation_defined.md: "no behaviour makes the block
trap"), so no fault exists and no step can answer one. -/
inductive Fault : Type
  deriving DecidableEq, Repr

/-- Why a request has no meaning (R10 *Refuse*). Each is SAFE: the spec itself refuses the request and claims nothing
of such a run. -/
inductive Refusal where
  /-- Raised by `exec`'s arm of an instruction without a meaning; no arm is left so. Safe. -/
  | notModelled (mnemonic : String)
  /-- Raised by `step` when the word presented is a reserved encoding (R83, R84). Safe. -/
  | reserved (r : Reserved)
  /-- Raised at acceptance when an operand is outside its domain (R85). Safe. -/
  | operandOutOfDomain
  /-- Raised at acceptance when the operation needs `SESS = CLOSED` and a session is open (R116). Safe. -/
  | sessionOpen
  /-- Raised at acceptance when the operation needs `SESS = OPEN` and no session is open (R116). Safe. -/
  | sessionClosed
  /-- Raised by a meaning called while `PHASE = RUN` (R23, R237: the host has no such move); `step` never does. Safe. -/
  | busy
  /-- Raised by `step` between micro-steps when `OP`, `RA`, `RB`, `RC` name no operation of R81 in its domain:
  a state no run reaches (R23). Safe. -/
  | noRunningOperation
  deriving DecidableEq, Repr

/-- The display RAM of draw `n`, nothing written since (R36, R52). -/
def Memory.drawn (n : Nat) : Memory := { cells := [], epoch := n }

/-- The device at reset (R36, D22): every field is draw 0, and `cfg` is `UNCONFIGURED` (notes/assumptions/8.md). -/
def Dev.reset : Dev :=
  { gddram := Memory.drawn 0, col := Config.freeCol 0, page := Config.freePage 0, on := Config.freeOn 0,
    contrast := Config.freeContrast 0, cfg := .unconfigured, draws := 1 }

/-- The state after reset (R36); `RA` to `CNT`, which R36 leaves unspecified, are 0 (notes/assumptions/7.md). -/
def State.reset : State :=
  { ra := 0#8, rb := 0#8, rc := 0#8, ms := 0#8, me := 0#8, pg := 0#4, cnt := 0#11, op := 0#8, phase := .idle,
    seq := 0, sess := .closed, ie := true, errf := false, dev := Dev.reset, pending := none, events := [],
    params := Config.params, host := [], answers := { queue := [], drawn := 0 } }

end Sys2Proof.Machine
end

