-- ==== Sys2Proof/Machine/Operands.lean ====
section
/-! DEFINITION. How operands become bytes: row decode, cursor encode and the rasterizer's masks
(spec/30_encoding.md R92, spec/42_addressing.md R140 to R143, spec/43_rasterizer.md R150, R155, R156). Values are computed
as natural numbers and narrowed to a byte at the end. -/

namespace Sys2Proof.Machine

/-- `PageOf(y) = y / 8` (R141). -/
def pageOf (y : Byte) : Nat := y.toNat / Config.pageRows

/-- `BitOf(y) = y % 8` (R141). -/
def bitOf (y : Byte) : Nat := y.toNat % Config.pageRows

/-- The horizontal-line byte `1 << (y % 8)` (R92, R153). -/
def rowByte (y : Byte) : Byte := BitVec.ofNat 8 (1 <<< bitOf y)

/-- `MS = trunc8(0xFF << (y % 8))` (R150, R155). -/
def startMask (y : Byte) : Byte := BitVec.ofNat 8 (0xFF <<< bitOf y)

/-- `e = (y + len) % 8`, the end-mask shift count (R155). -/
def endShift (y len : Byte) : Nat := (y.toNat + len.toNat) % Config.pageRows

/-- `ME = 0xFF >> e` (R150, R155); the formula is kept as it stands (90_conflicts.md C2; notes/assumptions/18.md). -/
def endMask (y len : Byte) : Byte := BitVec.ofNat 8 (0xFF >>> endShift y len)

/-- `n = ceil((y % 8 + len) / 8)`, the number of page writes (R155; 90_conflicts.md C1; notes/assumptions/17.md). -/
def pageCount (y len : Byte) : Nat := (bitOf y + len.toNat + 7) / Config.pageRows

/-- `m[i]`, the byte of page write `i` of `DRAWV` (R156). -/
def lineByte (y len : Byte) (i : Nat) : Byte :=
  if pageCount y len = 1 then startMask y &&& endMask y len
  else if i = 0 then startMask y
  else if i + 1 = pageCount y len then endMask y len
  else 0xFF#8

/-- The page-select byte `0xB0 + page` (R92). -/
def pageByte (page : Nat) : Byte := BitVec.ofNat 8 (Config.cmdPageBase.toNat + page)

/-- The column-high byte `COL_HI_BIAS + x / 16` (R92). -/
def colHiByte (p : Params) (x : Byte) : Byte := BitVec.ofNat 8 (p.colHiBias.toNat + x.toNat / 16)

/-- The column-low byte `COL_LO_BIAS + x % 16` (R92). -/
def colLoByte (x : Byte) : Byte := BitVec.ofNat 8 (Config.colLoBias.toNat + x.toNat % 16)

/-- `PosBytes(x, page)`: the three addressing command bytes in their order (R143). -/
def posBytes (p : Params) (x : Byte) (page : Nat) : List Byte :=
  [pageByte page, colHiByte p x, colLoByte x]

end Sys2Proof.Machine
end

