-- ==== Sys2Proof/Machine/Device.lean ====
section
/-! DEFINITION. The device model (spec/20_memory.md R50 to R61): the display RAM, the cursor, the effect of data bytes and
command bytes, and how a whole session is read at its `Done`. -/

namespace Sys2Proof.Machine

/-- The address of column `col` of page `page` (R51, R64). -/
def cellAddr (page col : Nat) : Nat := page * Config.width + col

/-- The byte written at address `a` since the RAM's last draw, if any. -/
def Memory.lookup (m : Memory) (a : Nat) : Option Byte :=
  (m.cells.find? fun c => c.1 == a).map (·.2)

/-- What an unlisted address reads as: the byte that draw number `epoch` left there (R36, R52). -/
def Memory.unlisted (m : Memory) (a : Nat) : Byte := Config.freeByte m.epoch a

/-- `MemRead`: the byte at address `a` (R9, R57: for observations only). -/
def Memory.read (m : Memory) (a : Nat) : Byte := (m.lookup a).getD (m.unlisted a)

/-- Put byte `v` at address `a` into a rising list of cells. -/
def putCell (a : Nat) (v : Byte) : List Host.Cell → List Host.Cell
  | [] => [(a, v)]
  | c :: cs =>
    if a < c.1 then (a, v) :: c :: cs
    else if a = c.1 then (a, v) :: cs
    else c :: putCell a v cs

/-- Write the whole byte at address `a` (R55). -/
def Memory.write (m : Memory) (a : Nat) (v : Byte) : Memory :=
  { m with cells := putCell a v m.cells }

/-- The addresses of the cells rise strictly, from above `lo` (none: from anywhere), and stay below 1024. -/
def risingFrom : Option Nat → List Host.Cell → Bool
  | _, [] => true
  | lo, c :: cs => lo.all (· < c.1) && decide (c.1 < Config.frameBytes) && risingFrom (some c.1) cs

/-- The canonical form: addresses strictly rising and within the display RAM. An unlisted address has no value in the
list, so no entry can equal what it holds there (notes/assumptions/6.md). -/
def Memory.wf (m : Memory) : Bool := risingFrom none m.cells

/-- The address of the device's cursor. -/
def Dev.cursorAddr (d : Dev) : Nat := cellAddr d.page.val d.col.val

/-- Havoc `DEV`: every field, `cfg` included, becomes a draw (R52, R61). -/
def Dev.havoc (d : Dev) : Dev :=
  { gddram := Memory.drawn d.draws, col := Config.freeCol d.draws, page := Config.freePage d.draws,
    on := Config.freeOn d.draws, contrast := Config.freeContrast d.draws, cfg := Config.freeCfg d.draws,
    draws := d.draws + 1 }

/-- Havoc the cursor only (R56, last case). -/
def Dev.drawCursor (d : Dev) : Dev :=
  { d with col := Config.freeCol d.draws, page := Config.freePage d.draws, draws := d.draws + 1 }

/-- Havoc display RAM and cursor: a data byte to an unconfigured device (R55). -/
def Dev.drawRam (d : Dev) : Dev :=
  { d with gddram := Memory.drawn d.draws, col := Config.freeCol d.draws, page := Config.freePage d.draws,
           draws := d.draws + 1 }

/-- Cursor advance after a data byte (R56). -/
def Dev.advance (d : Dev) : Dev :=
  if d.col.val < 127 then { d with col := Fin.ofNat 128 (d.col.val + 1) }
  else if d.page.val < 7 then { d with col := 0, page := Fin.ofNat 8 (d.page.val + 1) }
  else d.drawCursor

/-- `MemWrite` of one data byte at the cursor (R55). -/
def Dev.memWrite (d : Dev) (v : Byte) : Dev :=
  match d.cfg with
  | .configured => { d with gddram := d.gddram.write d.cursorAddr v }.advance
  | .unconfigured => d.drawRam

/-- `b` is a page-select byte (R59, row 1). -/
def isPageSelect (b : Byte) : Bool :=
  Config.cmdPageBase.toNat ≤ b.toNat && b.toNat ≤ Config.cmdPageBase.toNat + 7

/-- `b` is a column-high byte (R59, row 2). -/
def isColHi (p : Params) (b : Byte) : Bool :=
  p.colHiBias.toNat ≤ b.toNat && b.toNat ≤ p.colHiBias.toNat + 7

/-- `b` is a column-low byte (R59, row 3). -/
def isColLo (b : Byte) : Bool :=
  Config.colLoBias.toNat ≤ b.toNat && b.toNat ≤ Config.colLoBias.toNat + 15

/-- Page select (R59): `page <- b - 0xB0`. -/
def Dev.setPage (d : Dev) (b : Byte) : Dev :=
  { d with page := Fin.ofNat 8 (b.toNat - Config.cmdPageBase.toNat) }

/-- Column high (R59): `col <- (b - COL_HI_BIAS) * 16 + col % 16`. -/
def Dev.setColHi (p : Params) (d : Dev) (b : Byte) : Dev :=
  { d with col := Fin.ofNat 128 ((b.toNat - p.colHiBias.toNat) * 16 + d.col.val % 16) }

/-- Column low (R59): `col <- (col / 16) * 16 + (b - COL_LO_BIAS)`. -/
def Dev.setColLo (d : Dev) (b : Byte) : Dev :=
  { d with col := Fin.ofNat 128 (d.col.val / 16 * 16 + (b.toNat - Config.colLoBias.toNat)) }

/-- The command parser, reading the payload from the left (R59). -/
def Dev.parse (p : Params) : List Byte → Dev → Dev
  | [], d => d
  | b :: rest, d =>
    if isPageSelect b then Dev.parse p rest (d.setPage b)
    else if isColHi p b then Dev.parse p rest (d.setColHi p b)
    else if isColLo b then Dev.parse p rest (d.setColLo b)
    else if b = Config.cmdDisplayOff then Dev.parse p rest { d with on := false }
    else if b = Config.cmdDisplayOn then Dev.parse p rest { d with on := true }
    else if b = Config.cmdContrast then
      match rest with
      | [] => d.havoc
      | v :: rest' => Dev.parse p rest' { d with contrast := v }
    else d.havoc

/-- The effect of a fully acknowledged `INIT` session (R60). -/
def Dev.afterInit (d : Dev) : Dev :=
  { gddram := Memory.drawn d.draws, col := Config.freeCol d.draws, page := Config.freePage d.draws, on := true,
    contrast := Config.freeContrast d.draws, cfg := .configured, draws := d.draws + 1 }

/-- The payload of a fully acknowledged command session (R59): the whole `INIT` payload, or one command at a time; an empty
payload changes nothing (R58, `k = 1`). Where the OPEN parameters break R59's "must keep the first-byte sets of the table
disjoint", its table means nothing and a payload that has bytes havocs the device (notes/assumptions/13.md). -/
def Dev.commands (p : Params) (payload : List Byte) (d : Dev) : Dev :=
  if payload = p.initPayload then d.afterInit
  else if payload.isEmpty || p.disjoint then Dev.parse p payload d
  else d.havoc

/-- The payload of a fully acknowledged data session (R58): one `MemWrite` per byte, in order. -/
def Dev.writes (payload : List Byte) (d : Dev) : Dev := payload.foldl Dev.memWrite d

/-- The events of the session in progress: those since its `IrqOff`, oldest first (R58, R112; notes/assumptions/25.md). -/
def sessionOf (events : List Event) : List Event :=
  (events.takeWhile fun e => decide (e ≠ .irqOff)).reverse

/-- Some response of the session is `FAIL` (R58 case 1). -/
def sessionFailed (session : List Event) : Bool :=
  session.any fun e => match e with
    | .rsp .fail => true
    | _ => false

/-- The address bytes of the session. -/
def sessionAddrs (session : List Event) : List Byte :=
  session.filterMap fun e => match e with
    | .req ⟨.addr, a⟩ => some a
    | _ => none

/-- The data bytes of the session, the control byte first (R88, R91). -/
def sessionData (session : List Event) : List Byte :=
  session.filterMap fun e => match e with
    | .req ⟨.data, v⟩ => some v
    | _ => none

/-- How the device model reads a session at its `Done` (R58). -/
def Dev.readSession (p : Params) (session : List Event) (d : Dev) : Dev :=
  if sessionFailed session then d.havoc
  else if sessionAddrs session ≠ [p.devAddrW] then d.havoc
  else
    match sessionData session with
    | [] => d.havoc
    | control :: payload =>
      if control = Config.ctrlData then d.writes payload
      else if control = Config.ctrlCmd then d.commands p payload
      else d.havoc

end Sys2Proof.Machine
end

