-- ==== Sys2Proof/Machine/Flags.lean ====
section
/-! DEFINITION. The flags `BUSY`, `SESS`, `IE`, `ERRF`, the operations that write them (spec/40_bus_primitives.md R112,
spec/60_exceptions.md R202), and the output ports (spec/10_state.md R24, R28, R37). -/

namespace Sys2Proof.Machine

/-- The micro-step `IrqOff`: `IE <- 0`, `SESS <- OPEN` (R112). -/
def State.irqOff (s : State) : State :=
  { s with ie := false, sess := .opened, events := .irqOff :: s.events }

/-- The micro-step `IrqOn`: `SESS <- CLOSED`, `IE <- 1`, unconditionally (R112, R26; notes/assumptions/24.md). -/
def State.irqOn (s : State) : State :=
  { s with sess := .closed, ie := true, events := .irqOn :: s.events }

/-- `raise BusNack(kind)`, the one exception (R202): `ERRF <- 1` and `Err(kind)` in `TRACE`, which is the pulse of `err`
(R203). It does not abort (R204); the failed response in `TRACE` is what dooms `DEV` to a havoc at `Done` (R61). -/
def State.raiseBusNack (k : Kind) (s : State) : State :=
  { s with errf := true, events := .err k :: s.events }

/-- `BUSY` (R24). -/
def State.busy (s : State) : Bool := decide (s.phase = .run)

/-- `cmd_ready` (R37). -/
def State.cmdReady (s : State) : Bool := decide (s.phase = .idle)

/-- `irq_enable` (R37). -/
def State.irqEnable (s : State) : Bool := s.ie

/-- `STATUS` (R28): `ERRF`, `IE`, `SESS`, `BUSY` as bits 3 to 0. -/
def State.status (s : State) : BitVec 4 :=
  BitVec.ofBool s.errf ++ BitVec.ofBool s.ie ++ BitVec.ofBool (decide (s.sess = .opened)) ++ BitVec.ofBool s.busy

/-- The code of a bus step on `bus_req_kind` (R86). -/
def Kind.code : Kind → BitVec 2
  | .start => 0b00#2
  | .addr => 0b01#2
  | .data => 0b10#2
  | .stop => 0b11#2

/-- `bus_req_valid` (R37): a bus step is in flight. -/
def State.busReqValid (s : State) : Bool := s.pending.isSome

/-- `bus_req_kind` while a step is in flight (R37, R86). -/
def State.busReqKind (s : State) : Option (BitVec 2) := s.pending.map (·.kind.code)

/-- `bus_req_data` while a step is in flight (R37, R86). -/
def State.busReqData (s : State) : Option Byte := s.pending.map (·.data)

/-- The event is a `raise` (R32, R202). -/
def Event.isErr : Event → Bool
  | .err _ => true
  | .irqOff | .irqOn | .req _ | .rsp _ | .done => false

/-- The pulses `err` has given (R203): one per `raise`. -/
def State.errPulses (s : State) : Nat := s.events.countP Event.isErr

end Sys2Proof.Machine
end

