-- ==== Sys2Proof/Machine/Ops.lean ====
section
/-! DEFINITION. The shared operations of the sequencer: one bus step (spec/40_bus_primitives.md R110, R111, R117), a
micro-step and a list of them (spec/00_scope.md R6, spec/10_state.md R23), acceptance of a command word (R23, R116), and
reset (spec/70_reset_and_hazards.md R230, R231). The one exception, `raise BusNack`, is `State.raiseBusNack` in Flags. -/

namespace Sys2Proof.Machine

/-- The transceiver's next answer: the oldest settled one, else a free one (R35). -/
def Answers.next (a : Answers) : Answer :=
  match a.queue with
  | [] => Config.freeAnswer a.drawn
  | x :: _ => x

/-- The answers left once the next one is taken. -/
def Answers.rest (a : Answers) : Answers :=
  match a.queue with
  | [] => { a with drawn := a.drawn + 1 }
  | _ :: q => { a with queue := q }

/-- The answer to the bus step that is `k` steps ahead. -/
def Answers.peek (a : Answers) : Nat → Answer
  | 0 => a.next
  | k + 1 => a.rest.peek k

/-- How a micro-step ends: completed, or waiting for ever inside its bus step (R10 *Stuck*, R117). -/
inductive MicroOutcome where
  | completed (s : State)
  | stalled (s : State)

/-- The request of a bus step leaves (R110): it is logged, pending, and its answer is taken from the input. -/
def State.request (k : Kind) (d : Byte) (s : State) : State :=
  { s with events := .req ⟨k, d⟩ :: s.events, pending := some ⟨k, d⟩, answers := s.answers.rest }

/-- The request of a bus step leaves and its completion is never reported (R117). The session will never reach its `Done`,
and R58 says that this leaves `DEV` unspecified: it is havocked (notes/assumptions/9.md). -/
def State.strand (k : Kind) (d : Byte) (s : State) : State :=
  { s.request k d with dev := s.dev.havoc }

/-- A checked step completes with status `st` (R110, R111): a failure raises `BusNack` and goes on. -/
def State.respond (k : Kind) (st : Status) (s : State) : State :=
  let t := { s with pending := none, events := .rsp st :: s.events }
  match st with
  | .ok => t
  | .fail => t.raiseBusNack k

/-- A stop step completes (R110, R111, R58): unchecked; at its `Done` the device reads the session. -/
def State.finish (s : State) : State :=
  { s with pending := none, events := .done :: s.events,
           dev := s.dev.readSession s.params (sessionOf s.events) }

/-- A bus step completes with status `st`. -/
def State.complete (k : Kind) (st : Status) (s : State) : State :=
  match k with
  | .stop => s.finish
  | .start | .addr | .data => s.respond k st

/-- `Step(kind, d)` (R110): the answer completes it, or it is never completed (R117, R58). -/
def State.busStep (k : Kind) (d : Byte) (s : State) : MicroOutcome :=
  match s.answers.next with
  | .ok => .completed ((s.request k d).complete k .ok)
  | .fail => .completed ((s.request k d).complete k .fail)
  | .never => .stalled (s.strand k d)

/-- What a micro-step does (R6): a side effect, or a bus step. -/
inductive Act where
  | irqOff
  | irqOn
  | step (k : Kind) (d : Byte)
  deriving DecidableEq, Repr

/-- A write of a working register (R22). -/
inductive RegWrite where
  | ms (v : Byte)
  | me (v : Byte)
  | pg (v : BitVec 4)
  | cnt (v : BitVec 11)
  | pgInc
  | cntDec
  deriving DecidableEq, Repr

/-- One micro-step: what it does, and the working registers written with it (notes/assumptions/19.md). -/
structure Micro where
  act : Act
  regs : List RegWrite
  deriving DecidableEq, Repr

/-- Do a micro-step's action. -/
def State.act (a : Act) (s : State) : MicroOutcome :=
  match a with
  | .irqOff => .completed s.irqOff
  | .irqOn => .completed s.irqOn
  | .step k d => s.busStep k d

/-- Do one register write. The register keeps its value until the next write of it, also after the operation that wrote it
(notes/assumptions/30.md). -/
def State.regWrite (s : State) (r : RegWrite) : State :=
  match r with
  | .ms v => { s with ms := v }
  | .me v => { s with me := v }
  | .pg v => { s with pg := v }
  | .cnt v => { s with cnt := v }
  | .pgInc => { s with pg := s.pg + 1#4 }
  | .cntDec => { s with cnt := s.cnt - 1#11 }

/-- A completed micro-step writes its registers and does `SEQ <- SEQ + 1` (R23). -/
def State.advance (regs : List RegWrite) (s : State) : State :=
  let t := regs.foldl State.regWrite s
  { t with seq := t.seq + 1 }

/-- One whole micro-step: its action, then the registers written with it. -/
def State.micro (m : Micro) (s : State) : MicroOutcome :=
  match s.act m.act with
  | .stalled t => .stalled t
  | .completed t => .completed (t.advance m.regs)

/-- A list of micro-steps in order (R23, R66): each starts when the one before it has completed, and a stall leaves the
machine inside its bus step for ever (R117). -/
def runList : List Micro → State → MicroOutcome
  | [], s => .completed s
  | m :: ms, s =>
    match s.micro m with
    | .stalled t => .stalled t
    | .completed t => runList ms t

/-- The micro-steps still to do of the running operation: when the last has completed, `PHASE <- IDLE` (R23). -/
def runMicros (ms : List Micro) (s : State) : State :=
  match runList ms s with
  | .stalled t => t
  | .completed t => { t with phase := .idle }

/-- What `SESS` must be for an operation to be accepted (R116). -/
def needsSess : Instr → Sess
  | .txByte _ | .endSess => .opened
  | .beginSess | .openCmd | .openData | .setPos _ _ | .drawH _ _ _ | .drawV _ _ _ | .init | .clear | .pwrOff
  | .pwrOn | .contrast _ => .closed

/-- Why an operation is refused at acceptance, if it is (R10, R23, R85, R116). -/
def refusalOf (i : Instr) (s : State) : Option Refusal :=
  if s.phase = .run then some .busy
  else if i.wf = false then some .operandOutOfDomain
  else
    match needsSess i, s.sess with
    | .closed, .opened => some .sessionOpen
    | .opened, .closed => some .sessionClosed
    | .closed, .closed => none
    | .opened, .opened => none

/-- Accepting the command word `w` (R23). -/
def State.accept (w : Word) (s : State) : State :=
  { s with op := fieldOp w, ra := fieldA w, rb := fieldB w, rc := fieldC w, seq := 0, phase := .run }

/-- Issue operation `i`, whose micro-step list is `ms`: refuse it, or accept its word and run the list. -/
def issue (i : Instr) (ms : List Micro) (s : State) : Host.Outcome State Fault Refusal :=
  match refusalOf i s with
  | some r => .refused r
  | none => .next (runMicros ms (s.accept (encode i)))

/-- The micro-step of one bus step, writing no working register. -/
def bus (k : Kind) (d : Byte) : Micro := { act := .step k d, regs := [] }

/-- The micro-step `Step(DATA, v)`. -/
def dataStep (v : Byte) : Micro := bus .data v

/-- The micro-steps of `BEGIN` (R113), with register writes `r` beside its `IrqOff`. -/
def beginMicros (p : Params) (r : List RegWrite) : List Micro :=
  [{ act := .irqOff, regs := r }, bus .start 0#8, bus .addr p.devAddrW]

/-- Open a channel: `BEGIN`, then the control byte (R88, R130, R131), with register writes `r` before the session and
`r'` after the control byte. -/
def openMicros (p : Params) (control : Byte) (r r' : List RegWrite) : List Micro :=
  beginMicros p r ++ [{ act := .step .data control, regs := r' }]

/-- The micro-steps of `END` (R115), with register writes `r` beside its `IrqOn`. -/
def endMicros (r : List RegWrite) : List Micro :=
  [bus .stop 0#8, { act := .irqOn, regs := r }]

/-- One command session `cmd(b1, ..., bk)` (44_fixed_sequences.md), with register writes `r` before it. -/
def cmdSession (p : Params) (payload : List Byte) (r : List RegWrite) : List Micro :=
  openMicros p Config.ctrlCmd r [] ++ payload.map dataStep ++ endMicros []

/-- Assert `rst` (R230, R231, R36): TXC at its reset values, `TRACE` empty, nothing sent; the device is kept, but
havocked if a session was open. -/
def State.assertReset (s : State) : State :=
  { State.reset with
    dev := if s.sess = .opened then s.dev.havoc else s.dev
    params := s.params
    host := s.host
    answers := s.answers }

end Sys2Proof.Machine
end

