-- ==== Sys2Proof/Machine/Addressing.lean ====
section
/-! DEFINITION. The page/column address decoder `SETPOS` (spec/42_addressing.md R142 to R145). -/

namespace Sys2Proof.Machine

/-- The micro-steps of `SETPOS x, page` (R142), with register writes `r` before its session. -/
def positionMicros (p : Params) (x : Byte) (page : Nat) (r : List RegWrite) : List Micro :=
  cmdSession p (posBytes p x page) r

/-- `SETPOS x, page` (R142). -/
def microsSetPos (p : Params) (x page : Byte) : List Micro := positionMicros p x page.toNat []

/-- The meaning of `SETPOS x, page` (R142). -/
def execSetPos (x page : Byte) (s : State) : Host.Outcome State Fault Refusal :=
  issue (.setPos x page) (microsSetPos s.params x page) s

end Sys2Proof.Machine
end

