-- ==== Sys2Proof/Machine/Bus.lean ====
section
/-! DEFINITION. The bus transaction primitives `BEGIN`, `TXBYTE`, `END` (spec/40_bus_primitives.md R113 to R115). -/

namespace Sys2Proof.Machine

/-- `BEGIN` (R113). -/
def microsBegin (p : Params) : List Micro := beginMicros p []

/-- `TXBYTE v` (R114). -/
def microsTxByte (v : Byte) : List Micro := [dataStep v]

/-- `END` (R115). -/
def microsEnd : List Micro := endMicros []

/-- The meaning of `BEGIN` (R113). -/
def execBeginSess (s : State) : Host.Outcome State Fault Refusal :=
  issue .beginSess (microsBegin s.params) s

/-- The meaning of `TXBYTE v` (R114). -/
def execTxByte (v : Byte) (s : State) : Host.Outcome State Fault Refusal :=
  issue (.txByte v) (microsTxByte v) s

/-- The meaning of `END` (R115). -/
def execEndSess (s : State) : Host.Outcome State Fault Refusal :=
  issue .endSess microsEnd s

end Sys2Proof.Machine
end

