-- ==== Sys2Proof/Machine/Channel.lean ====
section
/-! DEFINITION. The command/data channel `OPENCMD`, `OPENDATA` (spec/41_channel.md R130 to R133). -/

namespace Sys2Proof.Machine

/-- `OPENCMD` (R130). -/
def microsOpenCmd (p : Params) : List Micro := openMicros p Config.ctrlCmd [] []

/-- `OPENDATA` (R131). -/
def microsOpenData (p : Params) : List Micro := openMicros p Config.ctrlData [] []

/-- The meaning of `OPENCMD` (R130). -/
def execOpenCmd (s : State) : Host.Outcome State Fault Refusal :=
  issue .openCmd (microsOpenCmd s.params) s

/-- The meaning of `OPENDATA` (R131). -/
def execOpenData (s : State) : Host.Outcome State Fault Refusal :=
  issue .openData (microsOpenData s.params) s

end Sys2Proof.Machine
end

