-- ==== Sys2Proof/Machine/Raster.lean ====
section
/-! DEFINITION. The line rasterizer `DRAWH`, `DRAWV` (spec/43_rasterizer.md R150 to R163). -/

namespace Sys2Proof.Machine

/-- The data session of a counted loop (R153, R183): `CNT <- n`, then `n` times the byte `v` and `CNT <- CNT - 1`. -/
def countedData (p : Params) (n : Nat) (v : Byte) : List Micro :=
  openMicros p Config.ctrlData [] [.cnt (BitVec.ofNat 11 n)]
    ++ List.replicate n { act := .step .data v, regs := [.cntDec] } ++ endMicros []

/-- `DRAWH x, y, len` (R153): the position, then one data session of `len` equal bytes. -/
def microsDrawH (p : Params) (x y len : Byte) : List Micro :=
  positionMicros p x (pageOf y) [] ++ countedData p len.toNat (rowByte y)

/-- The register writes before the first page of `DRAWV` (R157). -/
def lineRegs (y len : Byte) : List RegWrite :=
  [.ms (startMask y), .me (endMask y len), .pg (BitVec.ofNat 4 (pageOf y)), .cnt (BitVec.ofNat 11 (pageCount y len))]

/-- Page write `i` of `DRAWV` (R157): its position, its one-byte data session, `PG <- PG + 1`, `CNT <- CNT - 1`. -/
def pageWrite (p : Params) (x y len : Byte) (i : Nat) : List Micro :=
  positionMicros p x (pageOf y + i) (if i = 0 then lineRegs y len else [])
    ++ openMicros p Config.ctrlData [] [] ++ [dataStep (lineByte y len i)] ++ endMicros [.pgInc, .cntDec]

/-- `DRAWV x, y, len` (R157): the page writes in ascending order. -/
def microsDrawV (p : Params) (x y len : Byte) : List Micro :=
  (List.range (pageCount y len)).flatMap (pageWrite p x y len)

/-- The meaning of `DRAWH x, y, len` (R153). -/
def execDrawH (x y len : Byte) (s : State) : Host.Outcome State Fault Refusal :=
  issue (.drawH x y len) (microsDrawH s.params x y len) s

/-- The meaning of `DRAWV x, y, len` (R157). -/
def execDrawV (x y len : Byte) (s : State) : Host.Outcome State Fault Refusal :=
  issue (.drawV x y len) (microsDrawV s.params x y len) s

end Sys2Proof.Machine
end

