-- ==== Sys2Proof/Machine/Fixed.lean ====
section
/-! DEFINITION. The fixed sequences `PWRON`, `PWROFF`, `CONTRAST`, `CLEAR`, `INIT` (spec/44_fixed_sequences.md R180 to
R185). -/

namespace Sys2Proof.Machine

/-- `PWRON` (R180). -/
def microsPwrOn (p : Params) : List Micro := cmdSession p [Config.cmdDisplayOn] []

/-- `PWROFF` (R181). -/
def microsPwrOff (p : Params) : List Micro := cmdSession p [Config.cmdDisplayOff] []

/-- `CONTRAST v` (R182). -/
def microsContrast (p : Params) (v : Byte) : List Micro := cmdSession p [Config.cmdContrast, v] []

/-- `CLEAR` (R183): position (0,0), then one data session of 1024 zero bytes. -/
def microsClear (p : Params) : List Micro :=
  positionMicros p 0#8 0 [] ++ countedData p Config.frameBytes 0#8

/-- `INIT` (R184): one command session of the `INIT` payload. -/
def microsInit (p : Params) : List Micro := cmdSession p p.initPayload []

/-- The meaning of `PWRON` (R180). -/
def execPwrOn (s : State) : Host.Outcome State Fault Refusal :=
  issue .pwrOn (microsPwrOn s.params) s

/-- The meaning of `PWROFF` (R181). -/
def execPwrOff (s : State) : Host.Outcome State Fault Refusal :=
  issue .pwrOff (microsPwrOff s.params) s

/-- The meaning of `CONTRAST v` (R182). -/
def execContrast (v : Byte) (s : State) : Host.Outcome State Fault Refusal :=
  issue (.contrast v) (microsContrast s.params v) s

/-- The meaning of `CLEAR` (R183). -/
def execClear (s : State) : Host.Outcome State Fault Refusal :=
  issue .clear (microsClear s.params) s

/-- The meaning of `INIT` (R184). -/
def execInit (s : State) : Host.Outcome State Fault Refusal :=
  issue .init (microsInit s.params) s

end Sys2Proof.Machine
end

