-- ==== Sys2Proof/Machine/Dispatch.lean ====
section
/-! DEFINITION. The dispatch of the 13 operations to their meanings, one arm each (spec/30_encoding.md R81). -/

namespace Sys2Proof.Machine

def exec (i : Instr) (s : State) : Host.Outcome State Fault Refusal :=
  match i with
  | .beginSess => Sys2Proof.Machine.execBeginSess s
  | .txByte v => Sys2Proof.Machine.execTxByte v s
  | .endSess => Sys2Proof.Machine.execEndSess s
  | .openCmd => Sys2Proof.Machine.execOpenCmd s
  | .openData => Sys2Proof.Machine.execOpenData s
  | .setPos x page => Sys2Proof.Machine.execSetPos x page s
  | .drawH x y len => Sys2Proof.Machine.execDrawH x y len s
  | .drawV x y len => Sys2Proof.Machine.execDrawV x y len s
  | .init => Sys2Proof.Machine.execInit s
  | .clear => Sys2Proof.Machine.execClear s
  | .pwrOff => Sys2Proof.Machine.execPwrOff s
  | .pwrOn => Sys2Proof.Machine.execPwrOn s
  | .contrast v => Sys2Proof.Machine.execContrast v s

end Sys2Proof.Machine
end

