-- ==== Sys2Proof/Machine/Sequencer.lean ====
section
/-! DEFINITION. What the sequencer does while `PHASE = RUN` (spec/10_state.md R23): it waits inside the bus step in flight
(R117), or goes on with the running operation's micro-step list at `SEQ`. -/

namespace Sys2Proof.Machine

/-- The micro-step list of an operation (R23: "the pseudocode of its rule, unrolled"). -/
def microsOf (p : Params) : Instr → List Micro
  | .beginSess => microsBegin p
  | .txByte v => microsTxByte v
  | .endSess => microsEnd
  | .openCmd => microsOpenCmd p
  | .openData => microsOpenData p
  | .setPos x page => microsSetPos p x page
  | .drawH x y len => microsDrawH p x y len
  | .drawV x y len => microsDrawV p x y len
  | .init => microsInit p
  | .clear => microsClear p
  | .pwrOff => microsPwrOff p
  | .pwrOn => microsPwrOn p
  | .contrast v => microsContrast p v

/-- The word of the running operation, as `OP`, `RA`, `RB`, `RC` hold it (R21, R23). -/
def State.runningWord (s : State) : Word := packWord s.op s.ra s.rb s.rc

/-- Between two micro-steps of the running operation: go on at `SEQ` (R23; notes/assumptions/10.md). -/
def State.resume (s : State) : Host.Outcome State Fault Refusal :=
  match decode s.runningWord with
  | .error _ => .refused .noRunningOperation
  | .ok i =>
    if i.wf then .next (runMicros ((microsOf s.params i).drop s.seq) s) else .refused .noRunningOperation

/-- `PHASE = RUN`: a step in flight never completes (R117), so the machine stays where it is; else it goes on. -/
def State.continueRun (s : State) : Host.Outcome State Fault Refusal :=
  match s.pending with
  | some _ => .next s
  | none => s.resume

/-- Operation `i` is accepted, and `rst` is asserted once `n` of its micro-steps have completed, or inside the bus step
before that which never completes (R230, R231; notes/assumptions/23.md). -/
def State.cutShort (i : Instr) (n : Nat) (s : State) : Host.Outcome State Fault Refusal :=
  match refusalOf i s with
  | some r => .refused r
  | none => .next (runMicros ((microsOf s.params i).take n) (s.accept (encode i))).assertReset

/-- What one step has to do: give an answer at once, or run an operation. -/
inductive Task where
  | answer (o : Host.Outcome State Fault Refusal)
  | operation (i : Instr) (s : State)

/-- The host's next move meets the sequencer. `rst` is taken from any state (R230). Otherwise, while `PHASE = RUN`, the
sequencer goes on or waits (R23, R117); in `IDLE` the next command word is accepted (R23), and with no word presented
TXC waits (R36). -/
def State.task (s : State) : Task :=
  match s.host with
  | .rst :: rest => .answer (.next (State.assertReset { s with host := rest }))
  | .wordThenRst w n :: rest =>
    match s.phase with
    | .run => .answer s.continueRun
    | .idle =>
      match decode w with
      | .error r => .answer (.refused (.reserved r))
      | .ok i => .answer (State.cutShort i n { s with host := rest })
  | .word w :: rest =>
    match s.phase with
    | .run => .answer s.continueRun
    | .idle =>
      match decode w with
      | .error r => .answer (.refused (.reserved r))
      | .ok i => .operation i { s with host := rest }
  | [] =>
    match s.phase with
    | .run => .answer s.continueRun
    | .idle => .answer (.next s)

end Sys2Proof.Machine
end

