-- ==== Sys2Proof/Machine/Step.lean ====
section
/-! DEFINITION. One step of the system: the host's next move meets the sequencer (spec/10_state.md R23, R37,
spec/70_reset_and_hazards.md R230, R246). -/

namespace Sys2Proof.Machine

/-- One step: what the host's next move and the sequencer call for (`State.task`; R23, R36, R117, R230), an accepted
operation being run to its end or into its stall (notes/assumptions/1.md). -/
def step (s : State) : Host.Outcome State Fault Refusal :=
  match s.task with
  | .answer o => o
  | .operation i t => exec i t

/-- `s` with the table word presented as the host's very next move and the sequencer ready to accept it
(notes/assumptions/3.md). -/
def State.withFetchWord (s : State) (nbits w : Nat) : State :=
  { s with host := .word (tableWord nbits w) :: s.host, phase := .idle, pending := none }

end Sys2Proof.Machine
end

