-- ==== Sys2Proof/Machine/Emit.lean ====
section
/-! DEFINITION. `Emit(op)`, the bus requests an operation issues as a pure function of the operation and the
configuration (spec/40_bus_primitives.md R118), written from R118's table and not from the micro-step lists. -/

namespace Sys2Proof.Machine

/-- `S` of R118. -/
def reqStart : Req := ⟨.start, 0#8⟩
/-- `P` of R118. -/
def reqStop : Req := ⟨.stop, 0#8⟩
/-- `D(v)` of R118. -/
def reqData (v : Byte) : Req := ⟨.data, v⟩

/-- `open(c)` of R118. -/
def emitOpen (p : Params) (c : Byte) : List Req := [reqStart, ⟨.addr, p.devAddrW⟩, reqData c]

/-- `Emit(SETPOS x, page)`. -/
def emitSetPos (p : Params) (x : Byte) (page : Nat) : List Req :=
  emitOpen p 0x00#8
    ++ [reqData (BitVec.ofNat 8 (0xB0 + page)), reqData (BitVec.ofNat 8 (p.colHiBias.toNat + x.toNat / 16)),
        reqData (BitVec.ofNat 8 (Config.colLoBias.toNat + x.toNat % 16)), reqStop]

/-- `Emit(op)` (R118). -/
def emit (p : Params) : Instr → List Req
  | .beginSess => [reqStart, ⟨.addr, p.devAddrW⟩]
  | .txByte v => [reqData v]
  | .endSess => [reqStop]
  | .openCmd => emitOpen p 0x00#8
  | .openData => emitOpen p 0x40#8
  | .setPos x page => emitSetPos p x page.toNat
  | .drawH x y len =>
    emitSetPos p x (y.toNat / 8) ++ emitOpen p 0x40#8
      ++ List.replicate len.toNat (reqData (BitVec.ofNat 8 (1 <<< (y.toNat % 8)))) ++ [reqStop]
  | .drawV x y len =>
    (List.range (pageCount y len)).flatMap fun i =>
      emitSetPos p x (y.toNat / 8 + i) ++ emitOpen p 0x40#8 ++ [reqData (lineByte y len i), reqStop]
  | .pwrOn => emitOpen p 0x00#8 ++ [reqData 0xAF#8, reqStop]
  | .pwrOff => emitOpen p 0x00#8 ++ [reqData 0xAE#8, reqStop]
  | .contrast v => emitOpen p 0x00#8 ++ [reqData 0x81#8, reqData v, reqStop]
  | .clear =>
    emitSetPos p 0#8 0 ++ emitOpen p 0x40#8 ++ List.replicate 1024 (reqData 0x00#8) ++ [reqStop]
  | .init =>
    emitOpen p 0x00#8 ++ p.initSeq.map reqData
      ++ [reqData p.colRangeOp, reqData 0#8, reqData 127#8, reqData p.pageRangeOp, reqData 0#8, reqData 7#8, reqStop]

end Sys2Proof.Machine
end

