-- ==== Sys2Proof/Safety.lean ====
section
/-! DEFINITION. The terms claims are stated in: acceptance and the transceiver's answers as premises; the trace an
operation must leave (spec/40_bus_primitives.md R110, R112, R118); the state a completed operation leaves; expansions
(spec/30_encoding.md R95); the invariants; what a run shows (spec/00_scope.md R12) and pixels (spec/20_memory.md R51). -/

namespace Sys2Proof.Machine

/-! ## Premises -/

/-- The word of `i` is accepted in `s` (R23, R85, R116). -/
def Accepts (i : Instr) (s : State) : Prop :=
  s.phase = .idle ∧ i.wf = true ∧ s.sess = needsSess i

/-- The next `n` bus steps all answer `OK`. -/
def AllOk (s : State) (n : Nat) : Prop := ∀ k, k < n → s.answers.peek k = .ok

/-- The next `n` bus steps all complete. -/
def AllComplete (s : State) (n : Nat) : Prop := ∀ k, k < n → s.answers.peek k ≠ .never

/-- None of the next `n` bus steps answers `FAIL`. -/
def NoneFails (s : State) (n : Nat) : Prop := ∀ k, k < n → s.answers.peek k ≠ .fail

/-- The answers left after `n` bus steps. -/
def Answers.after (a : Answers) : Nat → Answers
  | 0 => a
  | n + 1 => a.rest.after n

/-- The move asserts `rst`, at once or later. -/
def HostMove.resets : HostMove → Bool
  | .rst | .wordThenRst _ _ => true
  | .word _ => false

/-- The host's next move asserts no `rst`. -/
def NoReset (s : State) : Prop := ∀ m, s.host.head? = some m → m.resets = false

/-! ## What an operation leaves -/

/-- The events a request's completion adds (R110): `Done` for a stop, else the response, with `Err` after a `FAIL`. -/
def completionEvents (k : Kind) (a : Answer) : List Event :=
  match k, a with
  | .stop, _ => [.done]
  | k, .fail => [.rsp .fail, .err k]
  | _, _ => [.rsp .ok]

/-- The events of a list of requests under the answers `ans`, in order: `IrqOff` before a start, `IrqOn` after a stop
(R112), each request followed by what its completion adds (R110), and nothing after a request never completed (R117). -/
def eventsOf (ans : Nat → Answer) : List Req → List Event
  | [] => []
  | r :: rs =>
    (if r.kind = .start then [.irqOff] else []) ++ .req r ::
      (if ans 0 = .never then []
       else completionEvents r.kind (ans 0) ++ (if r.kind = .stop then [.irqOn] else [])
              ++ eventsOf (fun k => ans (k + 1)) rs)

/-- Some checked request of the list is answered `FAIL` (R111, R201). -/
def nackIn (ans : Nat → Answer) : List Req → Bool
  | [] => false
  | r :: rs => (decide (r.kind ≠ .stop) && decide (ans 0 = .fail)) || nackIn (fun k => ans (k + 1)) rs

/-- The micro-steps of an operation (R6, R23): its bus steps, an `IrqOff` per start, an `IrqOn` per stop. -/
def microCount (rs : List Req) : Nat :=
  rs.length + rs.countP (fun r => decide (r.kind = .start)) + rs.countP (fun r => decide (r.kind = .stop))

/-- `SESS` after a completed operation (R25): what opens a session and does not end it leaves it open. -/
def sessAfter : Instr → Sess
  | .beginSess | .openCmd | .openData | .txByte _ => .opened
  | .endSess | .setPos _ _ | .drawH _ _ _ | .drawV _ _ _ | .init | .clear | .pwrOff | .pwrOn | .contrast _ => .closed

/-- The state after operation `i`, every step of it completed, if it leaves the device as `d` and writes no working
register. All but the fields named is as it was in `s`; that the working registers are, which 93_implementation_defined.md
U19 lets have any value between operations, is the model's choice (notes/assumptions/30.md). -/
def completedState (i : Instr) (s : State) (d : Dev) : State :=
  { s with
    op := i.opcode, ra := i.operands.1, rb := i.operands.2.1, rc := i.operands.2.2
    phase := .idle, seq := microCount (emit s.params i)
    sess := sessAfter i, ie := decide (sessAfter i = .closed)
    errf := s.errf || nackIn s.answers.peek (emit s.params i)
    events := (eventsOf s.answers.peek (emit s.params i)).reverse ++ s.events
    pending := none
    answers := s.answers.after (emit s.params i).length
    dev := d }

/-- The number of checked requests of the list answered `FAIL`: the `raise`s of R201. -/
def nackCount (ans : Nat → Answer) : List Req → Nat
  | [] => 0
  | r :: rs => (if r.kind ≠ .stop ∧ ans 0 = .fail then 1 else 0) + nackCount (fun k => ans (k + 1)) rs

/-- The sessions of a list of requests pair up: a start only outside a session, a stop only inside one, everything else
inside one, and the list ends outside (R116). -/
def paired : Sess → List Req → Bool
  | s, [] => decide (s = .closed)
  | .closed, ⟨.start, _⟩ :: rs => paired .opened rs
  | .opened, ⟨.stop, _⟩ :: rs => paired .closed rs
  | .opened, ⟨.addr, _⟩ :: rs => paired .opened rs
  | .opened, ⟨.data, _⟩ :: rs => paired .opened rs
  | .opened, ⟨.start, _⟩ :: _ => false
  | .closed, ⟨.stop, _⟩ :: _ => false
  | .closed, ⟨.addr, _⟩ :: _ => false
  | .closed, ⟨.data, _⟩ :: _ => false

/-- The rows of spec/opcode_table.json: `(match, mask)`. -/
def opcodeRows : List (Word × Word) :=
  [(0x01000000#32, 0xFFFFFFFF#32), (0x02000000#32, 0xFF00FFFF#32), (0x03000000#32, 0xFFFFFFFF#32),
   (0x10000000#32, 0xFFFFFFFF#32), (0x11000000#32, 0xFFFFFFFF#32), (0x20000000#32, 0xFF0000FF#32),
   (0x30000000#32, 0xFF000000#32), (0x31000000#32, 0xFF000000#32), (0x40000000#32, 0xFFFFFFFF#32),
   (0x41000000#32, 0xFFFFFFFF#32), (0x42000000#32, 0xFFFFFFFF#32), (0x43000000#32, 0xFFFFFFFF#32),
   (0x44000000#32, 0xFF00FFFF#32)]

/-! ## What sessions do to the device -/

/-- What one whole session, `(control byte, payload)`, does to the device under the answers `ans` to its steps: a failed
start, address or byte havocs it (R61); else the payload is data (R55) or commands (R59), as the control byte says (R58). -/
def sessionDev (p : Params) (ans : Nat → Answer) (session : Byte × List Byte) (d : Dev) : Dev :=
  if (List.range (session.2.length + 3)).any fun k => decide (ans k = .fail) then d.havoc
  else if session.1 = 0x40#8 then d.writes session.2
  else d.commands p session.2

/-- The same for sessions one after another; a session takes four answers more than its payload has bytes. -/
def sessionsDev (p : Params) (ans : Nat → Answer) : List (Byte × List Byte) → Dev → Dev
  | [], d => d
  | session :: rest, d =>
    sessionsDev p (fun k => ans (k + (session.2.length + 4))) rest (sessionDev p ans session d)

/-- The command session of a position (R95, R118). -/
def positionSession (p : Params) (x : Byte) (page : Nat) : Byte × List Byte :=
  (0x00#8, [BitVec.ofNat 8 (0xB0 + page), BitVec.ofNat 8 (p.colHiBias.toNat + x.toNat / 16),
    BitVec.ofNat 8 (Config.colLoBias.toNat + x.toNat % 16)])

/-- The whole sessions of an operation, in order (R95, R118); none for the five that are only part of a session. -/
def sessionsOf (p : Params) : Instr → List (Byte × List Byte)
  | .beginSess | .txByte _ | .endSess | .openCmd | .openData => []
  | .setPos x page => [positionSession p x page.toNat]
  | .drawH x y len =>
    [positionSession p x (y.toNat / 8), (0x40#8, List.replicate len.toNat (BitVec.ofNat 8 (1 <<< (y.toNat % 8))))]
  | .drawV x y len =>
    (List.range (pageCount y len)).flatMap fun i =>
      [positionSession p x (y.toNat / 8 + i), (0x40#8, [lineByte y len i])]
  | .pwrOn => [(0x00#8, [0xAF#8])]
  | .pwrOff => [(0x00#8, [0xAE#8])]
  | .contrast v => [(0x00#8, [0x81#8, v])]
  | .clear => [positionSession p 0#8 0, (0x40#8, List.replicate 1024 0x00#8)]
  | .init => [(0x00#8, p.initPayload)]

/-- `c` is one whole command of R59's table: a byte of a one-byte row, or the contrast opcode with its value. -/
def isCommand (p : Params) : List Byte → Bool
  | [b] => isColHi p b || (isOtherFirstByte b && b != 0x81#8)
  | [b, _] => b == 0x81#8
  | [] | _ :: _ :: _ :: _ => false

/-- Draw `n` of display RAM and cursor, every other field of the device kept: the state data bytes leave an UNCONFIGURED
device in (R55). -/
def Dev.ramDraw (d : Dev) (n : Nat) : Dev :=
  { d with gddram := Memory.drawn n, col := Config.freeCol n, page := Config.freePage n, draws := n + 1 }

/-! ## Observations -/

/-- The `Req` events of a list of events (R32). -/
def reqsOf (es : List Event) : List Req :=
  es.filterMap fun e => match e with
    | .req r => some r
    | _ => none

/-- The bus projection of `TRACE` (R32). -/
def State.busProjection (s : State) : List Req := reqsOf s.trace

/-- The run has ended (R12): no word is left, `PHASE = IDLE`, `SESS = CLOSED`. -/
def State.ended (s : State) : Bool := s.host.isEmpty && decide (s.phase = .idle) && decide (s.sess = .closed)

/-- The observation of a run (R12). -/
def State.observation (s : State) : List Event × Bool × Dev := (s.trace, s.errf, s.dev)

/-- TXC waits for ever inside a bus step (R117). -/
def State.stuck (s : State) : Prop := s.phase = .run ∧ s.pending.isSome = true

/-- Pixel (x, row) of the display RAM (R51): bit `row % 8` of the byte of page `row / 8`, column `x`. -/
def Dev.pixel (d : Dev) (x row : Nat) : Bool :=
  (d.gddram.read (cellAddr (row / 8) x)).getLsbD (row % 8)

/-! ## Expansions -/

/-- The list of simpler operations an operation is the same as (R95); a primitive expands to itself. -/
def expand (p : Params) : Instr → List Instr
  | .beginSess => [.beginSess]
  | .txByte v => [.txByte v]
  | .endSess => [.endSess]
  | .openCmd => [.beginSess, .txByte 0x00#8]
  | .openData => [.beginSess, .txByte 0x40#8]
  | .setPos x page =>
    [.openCmd, .txByte (BitVec.ofNat 8 (0xB0 + page.toNat)), .txByte (BitVec.ofNat 8 (p.colHiBias.toNat + x.toNat / 16)),
     .txByte (BitVec.ofNat 8 (Config.colLoBias.toNat + x.toNat % 16)), .endSess]
  | .drawH x y len =>
    [.setPos x (BitVec.ofNat 8 (y.toNat / 8)), .openData]
      ++ List.replicate len.toNat (.txByte (BitVec.ofNat 8 (1 <<< (y.toNat % 8)))) ++ [.endSess]
  | .drawV x y len =>
    (List.range (pageCount y len)).flatMap fun i =>
      [.setPos x (BitVec.ofNat 8 (y.toNat / 8 + i)), .openData, .txByte (lineByte y len i), .endSess]
  | .pwrOn => [.openCmd, .txByte 0xAF#8, .endSess]
  | .pwrOff => [.openCmd, .txByte 0xAE#8, .endSess]
  | .contrast v => [.openCmd, .txByte 0x81#8, .txByte v, .endSess]
  | .clear => [.setPos 0#8 0#8, .openData] ++ List.replicate 1024 (.txByte 0x00#8) ++ [.endSess]
  | .init =>
    [.openCmd] ++ p.initSeq.map .txByte
      ++ [.txByte p.colRangeOp, .txByte 0#8, .txByte 127#8, .txByte p.pageRangeOp, .txByte 0#8, .txByte 7#8, .endSess]

/-- Operations issued one after another, stopping at the first that gives no next state. -/
def execAll : List Instr → State → Host.Outcome State Fault Refusal
  | [], s => .next s
  | i :: is, s =>
    match exec i s with
    | .next t => execAll is t
    | .fault f => .fault f
    | .refused r => .refused r

/-! ## Invariants -/

/-- What every state between steps satisfies: `IE = 0` exactly when `SESS = OPEN` (R26); the block is running exactly
while a bus step is in flight, and then a session is open (R34, R117); `ERRF` is set exactly when `TRACE` holds an `Err`
(R27, R202); the display RAM is in its canonical form. -/
def State.Inv (s : State) : Prop :=
  (s.ie = false ↔ s.sess = .opened)
    ∧ (s.phase = .run ↔ s.pending.isSome = true)
    ∧ (s.phase = .run → s.sess = .opened)
    ∧ (s.errf = true ↔ ∃ k, Event.err k ∈ s.events)
    ∧ s.dev.gddram.wf = true

/-- Reading the trace from its newest event back: the sessions alternate `IrqOff`, `IrqOn`, starting with an `IrqOff`,
and the newest of the two says whether a session is open. -/
def bracketed : Sess → List Event → Bool
  | .closed, [] => true
  | .opened, [] => false
  | .opened, .irqOff :: es => bracketed .closed es
  | .closed, .irqOff :: _ => false
  | .closed, .irqOn :: es => bracketed .opened es
  | .opened, .irqOn :: _ => false
  | s, .req _ :: es | s, .rsp _ :: es | s, .done :: es | s, .err _ :: es => bracketed s es

/-- The interrupt mask events of `TRACE` pair up and agree with `SESS` (R67, R112, R116), and a block that runs has its
session open. -/
def State.Bracketed (s : State) : Prop :=
  bracketed s.sess s.events = true ∧ (s.phase = .run → s.pending.isSome = true)

end Sys2Proof.Machine
end

