-- ==== Sys2Proof/Certificates/Slice0/Obligations.lean ====
section
/-! DEFINITION. The statements for the provers, one `def Obligations.<Name> : Prop` each, in the order of
OBLIGATIONS.json. Each docstring names the rule of spec/ it formalises. -/

open Sys2Proof Sys2Proof.Machine

/-! ## Encoding (spec/30_encoding.md) -/

/-- R80, R81: decoding the word of any operation gives the operation back, whatever its operands. -/
def Obligations.DecodeOfEncode : Prop :=
  ∀ i : Instr, decode (encode i) = .ok i

/-- R80, R83: a word that decodes is exactly the word of what it decodes to, so no bit of it is dropped. -/
def Obligations.EncodeOfDecode : Prop :=
  ∀ (w : Word) (i : Instr), decode w = .ok i → encode i = w

/-- R81: words written out from the spec's table decode to the operations they stand for. -/
def Obligations.SpecWordsDecode : Prop :=
  decode 0x01000000#32 = .ok .beginSess ∧ decode 0x02AA0000#32 = .ok (.txByte 0xAA#8)
    ∧ decode 0x11000000#32 = .ok .openData ∧ decode 0x20050200#32 = .ok (.setPos 5#8 2#8)
    ∧ decode 0x310A050E#32 = .ok (.drawV 10#8 5#8 14#8) ∧ decode 0x447F0000#32 = .ok (.contrast 0x7F#8)

/-- R81, R83, R84: the words with a meaning are exactly those that match a row of the opcode table. -/
def Obligations.DecodeAcceptsTableRows : Prop :=
  ∀ w : Word, (∃ i, decode w = .ok i) ↔ ∃ r ∈ opcodeRows, w &&& r.2 = r.1

/-! ## Refusals -/

/-- R83, R84: in `IDLE`, a word that matches no row of the opcode table (an opcode not listed, or a non-zero unused field)
is refused at acceptance, by name. -/
def Obligations.ReservedWordRefused : Prop :=
  ∀ (s : State) (w : Word) (rest : List HostMove), s.phase = .idle → s.host = .word w :: rest →
    (¬ ∃ r ∈ opcodeRows, w &&& r.2 = r.1) → ∃ r, step s = .refused (.reserved r)

/-- R85: in `IDLE`, an operation is refused for its operands exactly when they are outside its row's domain; `TXBYTE` and
`CONTRAST` never are. That such a word is refused for its operands first, where it breaks R116 as well, is the model's
choice (notes/assumptions/26.md). -/
def Obligations.OutOfDomainRefused : Prop :=
  ∀ (s : State) (a b c : Byte), s.phase = .idle →
    (exec (.txByte a) s ≠ .refused .operandOutOfDomain ∧ exec (.contrast a) s ≠ .refused .operandOutOfDomain)
    ∧ (exec (.setPos a b) s = .refused .operandOutOfDomain ↔ ¬ (a.toNat ≤ 127 ∧ b.toNat ≤ 7))
    ∧ (exec (.drawH a b c) s = .refused .operandOutOfDomain
        ↔ ¬ (a.toNat ≤ 127 ∧ b.toNat ≤ 63 ∧ 1 ≤ c.toNat ∧ a.toNat + c.toNat ≤ 128))
    ∧ (exec (.drawV a b c) s = .refused .operandOutOfDomain
        ↔ ¬ (a.toNat ≤ 127 ∧ b.toNat ≤ 63 ∧ 1 ≤ c.toNat ∧ c.toNat ≤ 64 ∧ b.toNat + c.toNat ≤ 64))

/-- R116: `TXBYTE` and `END` are refused outside a session, every other operation (in its domain) inside one. -/
def Obligations.SessionDisciplineRefused : Prop :=
  ∀ (s : State) (i : Instr), s.phase = .idle → i.wf = true →
    (s.sess = .closed → (i = .endSess ∨ ∃ v, i = .txByte v) → exec i s = .refused .sessionClosed)
    ∧ (s.sess = .opened → i ≠ .endSess → (∀ v, i ≠ .txByte v) → exec i s = .refused .sessionOpen)

/-! ## Steps -/

/-- R23: in `IDLE`, when the word presented decodes to an operation, in its domain or not, `step` consumes the word and is
`exec` of the operation. -/
def Obligations.StepRunsDecodedWord : Prop :=
  ∀ (s : State) (w : Word) (rest : List HostMove) (i : Instr),
    s.phase = .idle → s.host = .word w :: rest → decode w = .ok i →
      step s = exec i { s with host := rest }

/-- R36, R37: with no word presented, TXC waits in `IDLE`. -/
def Obligations.IdleWithoutWordWaits : Prop :=
  ∀ s : State, s.phase = .idle → s.host = [] → step s = .next s

/-- R117: a machine waiting inside a bus step stays there unless `rst` is asserted. -/
def Obligations.StuckUnlessReset : Prop :=
  ∀ s : State, s.stuck → s.host.head? ≠ some .rst → step s = .next s

/-- R230, R231, R36: `rst`, from any state: TXC at its reset values, `TRACE` empty, no bus request; the device is kept if
no session was open and havocked otherwise; the host's later moves, the answers and the parameters stay.
Two clauses are the model's choice: that a reset at run time keeps the device, after R230 and over R36's device rows
(notes/assumptions/8.md), and that the host's later moves and the coming answers stay (notes/assumptions/22.md). -/
def Obligations.ResetInput : Prop :=
  ∀ (s : State) (rest : List HostMove), s.host = .rst :: rest →
    ∃ t, step s = .next t ∧ t.phase = .idle ∧ t.op = 0#8 ∧ t.seq = 0 ∧ t.sess = .closed ∧ t.ie = true
      ∧ t.errf = false ∧ t.pending = none ∧ t.trace = [] ∧ t.busProjection = []
      ∧ (s.sess = .closed → t.dev = s.dev) ∧ (s.sess = .opened → t.dev = s.dev.havoc)
      ∧ t.host = rest ∧ t.answers = s.answers ∧ t.params = s.params

/-- R230, R231: `rst` inside an operation, after any number of its micro-steps: TXC at its reset values, nothing sent, and
the device havocked exactly if a session was open at that point. Three clauses are the model's choice: the form of the move
(notes/assumptions/23.md), the device kept, `cfg` included, where no session is open (notes/assumptions/8.md), and the
host's later moves kept (notes/assumptions/22.md). -/
def Obligations.ResetInsideOperation : Prop :=
  ∀ (s : State) (w : Word) (n : Nat) (rest : List HostMove) (i : Instr),
    s.host = .wordThenRst w n :: rest → decode w = .ok i → Accepts i s →
    ∃ t u, u = runMicros ((microsOf s.params i).take n) (State.accept w { s with host := rest }) ∧ step s = .next t
      ∧ t.phase = .idle ∧ t.op = 0#8 ∧ t.seq = 0 ∧ t.sess = .closed ∧ t.ie = true ∧ t.errf = false ∧ t.pending = none
      ∧ t.trace = [] ∧ (u.sess = .closed → t.dev = u.dev) ∧ (u.sess = .opened → t.dev = u.dev.havoc)
      ∧ t.host = rest ∧ t.params = s.params

/-- R36, R28: the state after reset, for every value the spec gives, and its `STATUS`. -/
def Obligations.ResetState : Prop :=
  State.reset.phase = .idle ∧ State.reset.op = 0#8 ∧ State.reset.seq = 0 ∧ State.reset.sess = .closed
    ∧ State.reset.ie = true ∧ State.reset.errf = false ∧ State.reset.trace = [] ∧ State.reset.pending = none
    ∧ State.reset.dev.cfg = .unconfigured ∧ State.reset.status = 0b0100#4

/-! ## The trace and the bus -/

/-- R110, R112, R118: an accepted operation answers a next state, and adds to `TRACE` exactly the events of its `Emit`
under the transceiver's answers, ending inside the first request that is never completed. -/
def Obligations.OperationTrace : Prop :=
  ∀ (i : Instr) (s : State), Accepts i s →
    ∃ t, exec i s = .next t ∧ t.trace = s.trace ++ eventsOf s.answers.peek (emit s.params i)

/-- R118: when every step completes, the bus requests an operation adds are its `Emit`. -/
def Obligations.BusProjectionIsEmit : Prop :=
  ∀ (i : Instr) (s : State), Accepts i s → AllComplete s (emit s.params i).length →
    ∃ t, exec i s = .next t ∧ t.busProjection = s.busProjection ++ emit s.params i

/-- R204, R118: acknowledgment failures change nothing but events, `ERRF` and the device: two runs of one operation that
differ in the answers only, every step completed, give the same bus requests, flags and registers; that the working
registers have the values last written is the model's choice (notes/assumptions/30.md). -/
def Obligations.FailuresDoNotRedirect : Prop :=
  ∀ (i : Instr) (s : State) (a : Answers), Accepts i s → AllComplete s (emit s.params i).length →
    AllComplete { s with answers := a } (emit s.params i).length →
    ∃ t t', exec i s = .next t ∧ exec i { s with answers := a } = .next t'
      ∧ t.busProjection = t'.busProjection ∧ t.sess = t'.sess ∧ t.ie = t'.ie ∧ t.phase = t'.phase ∧ t.seq = t'.seq
      ∧ t.op = t'.op ∧ t.ra = t'.ra ∧ t.rb = t'.rb ∧ t.rc = t'.rc
      ∧ t.ms = t'.ms ∧ t.me = t'.me ∧ t.pg = t'.pg ∧ t.cnt = t'.cnt

/-- R118, R162: how many bus requests each operation issues. -/
def Obligations.EmitLengths : Prop :=
  ∀ (p : Params) (v x page y len : Byte),
    (emit p .beginSess).length = 2 ∧ (emit p (.txByte v)).length = 1 ∧ (emit p .endSess).length = 1
    ∧ (emit p .openCmd).length = 3 ∧ (emit p .openData).length = 3 ∧ (emit p (.setPos x page)).length = 7
    ∧ (emit p (.drawH x y len)).length = 11 + len.toNat
    ∧ (emit p (.drawV x y len)).length = 12 * ((y.toNat % 8 + len.toNat + 7) / 8)
    ∧ (emit p .pwrOn).length = 5 ∧ (emit p .pwrOff).length = 5 ∧ (emit p (.contrast v)).length = 6
    ∧ (emit p .clear).length = 1035 ∧ (emit p .init).length = 10 + p.initSeq.length

/-- R116: every compound operation begins with `SESS = CLOSED`, pairs each start with one stop and never nests: its
`Emit` is a sequence of whole sessions. -/
def Obligations.CompoundSessionsPaired : Prop :=
  ∀ (p : Params) (i : Instr), needsSess i = .closed → sessAfter i = .closed → paired .closed (emit p i) = true

/-! ## Results and completion

`completedState` keeps the working registers an operation does not write; that, and their standing after the operation that
wrote them, is the model's choice (notes/assumptions/30.md). -/

/-- R113: `BEGIN`: its word, its refusal inside a session, and its effect outside one, whatever the two answers.
That the working registers it does not write keep their values is the model's choice (notes/assumptions/30.md). -/
def Obligations.BeginCompletes : Prop :=
  ∀ s : State, s.phase = .idle →
    encode .beginSess = 0x01000000#32
    ∧ (s.sess = .opened → exec .beginSess s = .refused .sessionOpen)
    ∧ (s.sess = .closed → AllComplete s 2 → exec .beginSess s = .next (completedState .beginSess s s.dev))

/-- R114: `TXBYTE v`, every `v`: its word, its refusal outside a session, and its effect inside one, whatever the answer;
`SESS` stays open and `IE` is left as it was.
That the working registers it does not write keep their values is the model's choice (notes/assumptions/30.md). -/
def Obligations.TxByteCompletes : Prop :=
  ∀ (s : State) (v : Byte), s.phase = .idle →
    encode (.txByte v) = packWord 0x02#8 v 0#8 0#8
    ∧ (s.sess = .closed → exec (.txByte v) s = .refused .sessionClosed)
    ∧ (s.sess = .opened → AllComplete s 1 →
        exec (.txByte v) s = .next { completedState (.txByte v) s s.dev with ie := s.ie })

/-- R115, R58, R111: `END`: its word, its refusal outside a session; inside one the stop is unchecked
(notes/assumptions/16.md), the session closes, and the device reads the session's events, which are those since the last
`IrqOff` (notes/assumptions/25.md); a stop that never completes leaves `SESS` and `IE` as they were, for ever, and the
device, which R58 leaves unspecified there, havocked (the model's choice of form: notes/assumptions/9.md).
That the working registers it does not write keep their values is the model's choice (notes/assumptions/30.md). -/
def Obligations.EndCompletes : Prop :=
  ∀ s : State, s.phase = .idle →
    encode .endSess = 0x03000000#32
    ∧ (s.sess = .closed → exec .endSess s = .refused .sessionClosed)
    ∧ (s.sess = .opened → AllComplete s 1 →
        exec .endSess s = .next (completedState .endSess s (s.dev.readSession s.params (sessionOf s.events))))
    ∧ (s.sess = .opened → s.answers.next = .never →
        ∃ t, exec .endSess s = .next t ∧ t.stuck ∧ t.sess = .opened ∧ t.ie = s.ie ∧ t.dev = s.dev.havoc)

/-- R130: `OPENCMD`: its word, its refusal inside a session, and its effect outside one, whatever the three answers.
That the working registers it does not write keep their values is the model's choice (notes/assumptions/30.md). -/
def Obligations.OpenCmdCompletes : Prop :=
  ∀ s : State, s.phase = .idle →
    encode .openCmd = 0x10000000#32
    ∧ (s.sess = .opened → exec .openCmd s = .refused .sessionOpen)
    ∧ (s.sess = .closed → AllComplete s 3 → exec .openCmd s = .next (completedState .openCmd s s.dev))

/-- R131: `OPENDATA`: its word, its refusal inside a session, and its effect outside one, whatever the three answers.
That the working registers it does not write keep their values is the model's choice (notes/assumptions/30.md). -/
def Obligations.OpenDataCompletes : Prop :=
  ∀ s : State, s.phase = .idle →
    encode .openData = 0x11000000#32
    ∧ (s.sess = .opened → exec .openData s = .refused .sessionOpen)
    ∧ (s.sess = .closed → AllComplete s 3 → exec .openData s = .next (completedState .openData s s.dev))

/-- R142, R144: `SETPOS x, page`, every step `OK`: the cursor is (x, page) and nothing else of the device changed.
That the working registers it does not write keep their values is the model's choice (notes/assumptions/30.md). -/
def Obligations.SetPosPositions : Prop :=
  ∀ (s : State) (x page : Byte), s.phase = .idle → s.sess = .closed → x.toNat ≤ 127 → page.toNat ≤ 7 →
    s.params.disjoint = true → AllOk s 7 →
    exec (.setPos x page) s
      = .next (completedState (.setPos x page) s
          { s.dev with col := Fin.ofNat 128 x.toNat, page := Fin.ofNat 8 page.toNat })

/-- R180: `PWRON`, every step `OK`: `DEV.on` is true and nothing else of the device changed (that the rest is kept is general
knowledge the spec marks: notes/assumptions/14.md).
That the working registers it does not write keep their values is the model's choice (notes/assumptions/30.md). -/
def Obligations.PwrOnSwitchesOn : Prop :=
  ∀ s : State, s.phase = .idle → s.sess = .closed → s.params.disjoint = true → AllOk s 5 →
    exec .pwrOn s = .next (completedState .pwrOn s { s.dev with on := true })

/-- R181: `PWROFF`, every step `OK`: `DEV.on` is false and nothing else of the device changed (that display RAM and cursor are
kept is general knowledge the spec marks: notes/assumptions/14.md).
That the working registers it does not write keep their values is the model's choice (notes/assumptions/30.md). -/
def Obligations.PwrOffSwitchesOff : Prop :=
  ∀ s : State, s.phase = .idle → s.sess = .closed → s.params.disjoint = true → AllOk s 5 →
    exec .pwrOff s = .next (completedState .pwrOff s { s.dev with on := false })

/-- R182: `CONTRAST v`, every `v`, every step `OK`: `DEV.contrast` is `v` and nothing else of the device
changed (notes/assumptions/14.md).
That the working registers it does not write keep their values is the model's choice (notes/assumptions/30.md). -/
def Obligations.ContrastSetsValue : Prop :=
  ∀ (s : State) (v : Byte), s.phase = .idle → s.sess = .closed → s.params.disjoint = true → AllOk s 6 →
    exec (.contrast v) s = .next (completedState (.contrast v) s { s.dev with contrast := v })

/-- R184, R60: `INIT`, every step `OK`, whatever `INIT_SEQ` is: the device is configured and on, and contrast, cursor and
every byte of the display RAM are a draw not made before.
That the working registers it does not write keep their values is the model's choice (notes/assumptions/30.md). -/
def Obligations.InitConfigures : Prop :=
  ∀ s : State, s.phase = .idle → s.sess = .closed → AllOk s (10 + s.params.initSeq.length) →
    exec .init s = .next (completedState .init s
      { gddram := Memory.drawn s.dev.draws, col := Config.freeCol s.dev.draws, page := Config.freePage s.dev.draws,
        on := true, contrast := Config.freeContrast s.dev.draws, cfg := .configured, draws := s.dev.draws + 1 })

/-- R153: `DRAWH x, y, len` in its domain, every step `OK`, device configured: the bytes `1 << (y % 8)` at page `y / 8`,
columns `x` to `x + len - 1`, every other byte as before; `CNT` 0; the cursor behind the line (R56).
That the working registers it does not write keep their values is the model's choice (notes/assumptions/30.md). -/
def Obligations.DrawHDrawsLine : Prop :=
  ∀ (s : State) (x y len : Byte), s.phase = .idle → s.sess = .closed → x.toNat ≤ 127 → y.toNat ≤ 63 →
    1 ≤ len.toNat → x.toNat + len.toNat ≤ 128 → s.params.disjoint = true → s.dev.cfg = .configured →
    s.dev.gddram.wf = true → AllOk s (11 + len.toNat) →
    ∃ d : Dev, exec (.drawH x y len) s = .next { completedState (.drawH x y len) s d with cnt := 0#11 }
      ∧ (∀ a, d.gddram.read a
          = if cellAddr (y.toNat / 8) x.toNat ≤ a ∧ a < cellAddr (y.toNat / 8) x.toNat + len.toNat
            then BitVec.ofNat 8 (1 <<< (y.toNat % 8)) else s.dev.gddram.read a)
      ∧ (x.toNat + len.toNat ≤ 127 → d.page.val = y.toNat / 8 ∧ d.col.val = x.toNat + len.toNat)
      ∧ (x.toNat + len.toNat = 128 → y.toNat ≤ 55 → d.page.val = y.toNat / 8 + 1 ∧ d.col.val = 0)
      ∧ d.on = s.dev.on ∧ d.contrast = s.dev.contrast ∧ d.cfg = .configured

/-- R155 to R157: `DRAWV x, y, len` in its domain, every step `OK`, device configured: byte `m[i]` at column `x` of page
`y / 8 + i` for each of the `n` pages, every other byte as before; `MS`, `ME`, `PG`, `CNT`, as R157 leaves them and
the model keeps them (notes/assumptions/30.md); the cursor behind the last page (R56). -/
def Obligations.DrawVDrawsLine : Prop :=
  ∀ (s : State) (x y len : Byte), s.phase = .idle → s.sess = .closed → x.toNat ≤ 127 → y.toNat ≤ 63 →
    1 ≤ len.toNat → y.toNat + len.toNat ≤ 64 → s.params.disjoint = true → s.dev.cfg = .configured →
    s.dev.gddram.wf = true → AllOk s (emit s.params (.drawV x y len)).length →
    ∃ d : Dev, exec (.drawV x y len) s
        = .next { completedState (.drawV x y len) s d with
            ms := 0xFF#8 <<< (y.toNat % 8), me := 0xFF#8 >>> ((y.toNat + len.toNat) % 8),
            pg := BitVec.ofNat 4 (y.toNat / 8 + pageCount y len), cnt := 0#11 }
      ∧ (∀ i, i < pageCount y len → d.gddram.read (cellAddr (y.toNat / 8 + i) x.toNat) = lineByte y len i)
      ∧ (∀ a, (∀ i, i < pageCount y len → a ≠ cellAddr (y.toNat / 8 + i) x.toNat) →
          d.gddram.read a = s.dev.gddram.read a)
      ∧ (x.toNat ≤ 126 → d.page.val + 1 = y.toNat / 8 + pageCount y len ∧ d.col.val = x.toNat + 1)
      ∧ (x.toNat = 127 → y.toNat / 8 + pageCount y len ≤ 7 →
          d.page.val = y.toNat / 8 + pageCount y len ∧ d.col.val = 0)
      ∧ d.on = s.dev.on ∧ d.contrast = s.dev.contrast ∧ d.cfg = .configured

/-- R183: `CLEAR`, every step `OK`, device configured: every byte of the display RAM is zero; `CNT` 0.
That the working registers it does not write keep their values is the model's choice (notes/assumptions/30.md). -/
def Obligations.ClearBlanksDisplay : Prop :=
  ∀ s : State, s.phase = .idle → s.sess = .closed → s.params.disjoint = true → s.dev.cfg = .configured →
    s.dev.gddram.wf = true → AllOk s 1035 →
    ∃ d : Dev, exec .clear s = .next { completedState .clear s d with cnt := 0#11 }
      ∧ (∀ a, a < 1024 → d.gddram.read a = 0#8)
      ∧ d.on = s.dev.on ∧ d.contrast = s.dev.contrast ∧ d.cfg = .configured

/-- R23, R25, R26, R21, R27, R110: every operation, accepted and with every step completed whatever the statuses, runs to
its end: everything but the working registers and the device is what `completedState` says. -/
def Obligations.EveryOperationCompletes : Prop :=
  ∀ (i : Instr) (s : State), Accepts i s → AllComplete s (emit s.params i).length →
    (s.ie = false ↔ s.sess = .opened) →
    ∃ t, exec i s = .next t
      ∧ t = { completedState i s t.dev with ms := t.ms, me := t.me, pg := t.pg, cnt := t.cnt }

/-! ## Errors and stalls -/

/-- R61, R202, R204: in an operation of one command session, any failed step leaves `ERRF` set and the device havocked,
and nothing else differs from a good run: the session still closes.
That the working registers it does not write keep their values is the model's choice (notes/assumptions/30.md). -/
def Obligations.FailedCommandSessionHavocs : Prop :=
  ∀ (s : State) (i : Instr), ((∃ x page, i = .setPos x page) ∨ i = .pwrOn ∨ i = .pwrOff ∨ (∃ v, i = .contrast v) ∨ i = .init) →
    Accepts i s → AllComplete s (emit s.params i).length → nackIn s.answers.peek (emit s.params i) = true →
    exec i s = .next (completedState i s s.dev.havoc) ∧ (completedState i s s.dev.havoc).errf = true

/-- R61, R58, R204: `DRAWH`, `DRAWV` and `CLEAR`, every step completed whatever the statuses: their sessions act on the
device one after another, each havocking it at its `Done` if a step of it failed; a failed step of the last session, a data
session, leaves `ERRF` set and the device those before it left, havocked. The session closes as in a good run. A
position of parameters that break R59's "disjoint" havocs by the model's choice (notes/assumptions/13.md). -/
def Obligations.FailedDataSessionHavocs : Prop :=
  ∀ (s : State) (i : Instr), ((∃ x y len, i = .drawH x y len) ∨ (∃ x y len, i = .drawV x y len) ∨ i = .clear) →
    Accepts i s → AllComplete s (emit s.params i).length →
    ∃ t, exec i s = .next t ∧ t.sess = .closed ∧ t.ie = true
      ∧ t.errf = (s.errf || nackIn s.answers.peek (emit s.params i))
      ∧ t.dev = sessionsDev s.params s.answers.peek (sessionsOf s.params i) s.dev
      ∧ ∀ last k, (sessionsOf s.params i).getLast? = some last →
          (emit s.params i).length ≤ k + (last.2.length + 4) → k + 1 < (emit s.params i).length →
          s.answers.peek k = .fail →
          t.errf = true
            ∧ t.dev = (sessionsDev s.params s.answers.peek (sessionsOf s.params i).dropLast s.dev).havoc

/-- R203, R201: `err` pulses once for each checked step that fails, and `ERRF` is set exactly by such a step. -/
def Obligations.OnePulsePerFailure : Prop :=
  ∀ (i : Instr) (s : State), Accepts i s → AllComplete s (emit s.params i).length →
    ∃ t, exec i s = .next t ∧ t.errPulses = s.errPulses + nackCount s.answers.peek (emit s.params i)
      ∧ (t.errf = true ↔ s.errf = true ∨ 0 < nackCount s.answers.peek (emit s.params i))

/-- R117: an operation whose request number `k` is the first never completed stays inside it: `PHASE = RUN`, `PENDING`
that request, `SESS = OPEN`, `IE = 0`, `ERRF` by the failures before it only, no working state lost, and the trace ends
with the request. The device is a draw not made before, since R58 leaves it unspecified (notes/assumptions/9.md). -/
def Obligations.StallLeavesRunning : Prop :=
  ∀ (i : Instr) (s : State) (k : Nat) (r : Req), s.Inv → Accepts i s → (emit s.params i)[k]? = some r →
    (∀ j, j < k → s.answers.peek j ≠ .never) → s.answers.peek k = .never →
    ∃ t, exec i s = .next t ∧ t.phase = .run ∧ t.pending = some r ∧ t.sess = .opened ∧ t.ie = false
      ∧ t.errf = (s.errf || nackIn s.answers.peek ((emit s.params i).take k))
      ∧ t.events.head? = some (.req r) ∧ t.busProjection = s.busProjection ++ (emit s.params i).take (k + 1)
      ∧ t.op = i.opcode ∧ t.ra = i.operands.1 ∧ t.rb = i.operands.2.1 ∧ t.rc = i.operands.2.2
      ∧ ∃ d : Dev, t.dev = d.havoc ∧ s.dev.draws ≤ d.draws

/-! ## Frames -/

/-- R21, R22, R29: what an operation leaves alone in every next state, stalled or not: the parameters and the host's
later moves always; `MS`, `ME`, `PG` unless it is `DRAWV`; `CNT` unless it is `DRAWH`, `DRAWV` or `CLEAR`; `ERRF` is never
cleared; the latches hold its own word. That the working registers keep their values is the model's choice, after R22's "written
only by" (notes/assumptions/30.md). -/
def Obligations.OperationFrame : Prop :=
  ∀ (i : Instr) (s t : State), exec i s = .next t →
    t.params = s.params ∧ t.host = s.host ∧ (s.errf = true → t.errf = true)
    ∧ t.op = i.opcode ∧ t.ra = i.operands.1 ∧ t.rb = i.operands.2.1 ∧ t.rc = i.operands.2.2
    ∧ ((∀ x y len, i ≠ .drawV x y len) → t.ms = s.ms ∧ t.me = s.me ∧ t.pg = s.pg)
    ∧ ((∀ x y len, i ≠ .drawV x y len) → (∀ x y len, i ≠ .drawH x y len) → i ≠ .clear → t.cnt = s.cnt)

/-- R58: `BEGIN`, `TXBYTE`, `OPENCMD` and `OPENDATA` end no session, so, completed, they leave all of the device alone,
display RAM included, whatever the answers; stalled, they leave it havocked (R58; notes/assumptions/9.md). -/
def Obligations.OpenSessionFrame : Prop :=
  ∀ (i : Instr) (s t : State), (i = .beginSess ∨ (∃ v, i = .txByte v) ∨ i = .openCmd ∨ i = .openData) →
    exec i s = .next t → (t.phase = .idle → t.dev = s.dev) ∧ (t.phase = .run → t.dev = s.dev.havoc)

/-- R59, R144, R180 to R182: where no step fails, `SETPOS`, `PWRON`, `PWROFF` and `CONTRAST`, completed, change no byte of
the display RAM and not `cfg`; `SETPOS` leaves `on` and `contrast`, the others leave the cursor
(notes/assumptions/14.md). -/
def Obligations.CommandFrame : Prop :=
  ∀ (i : Instr) (s t : State), ((∃ x page, i = .setPos x page) ∨ i = .pwrOn ∨ i = .pwrOff ∨ ∃ v, i = .contrast v) →
    s.params.disjoint = true → NoneFails s (emit s.params i).length → exec i s = .next t → t.phase = .idle →
    (∀ a, t.dev.gddram.read a = s.dev.gddram.read a) ∧ t.dev.cfg = s.dev.cfg
    ∧ ((∃ x page, i = .setPos x page) → t.dev.on = s.dev.on ∧ t.dev.contrast = s.dev.contrast)
    ∧ ((∀ x page, i ≠ .setPos x page) → t.dev.col = s.dev.col ∧ t.dev.page = s.dev.page)

/-- R153, R154: where no step fails on a configured device, `DRAWH`, completed, changes no byte outside the `len` bytes from
column `x` of page `y / 8`. -/
def Obligations.DrawHFrame : Prop :=
  ∀ (s t : State) (x y len : Byte), s.params.disjoint = true → s.dev.cfg = .configured → s.dev.gddram.wf = true →
    NoneFails s (11 + len.toNat) → exec (.drawH x y len) s = .next t → t.phase = .idle →
    (∀ a, ¬ (cellAddr (y.toNat / 8) x.toNat ≤ a ∧ a < cellAddr (y.toNat / 8) x.toNat + len.toNat) →
      t.dev.gddram.read a = s.dev.gddram.read a)
    ∧ t.dev.on = s.dev.on ∧ t.dev.contrast = s.dev.contrast ∧ t.dev.cfg = s.dev.cfg

/-- R157, R161: where no step fails on a configured device, `DRAWV`, completed, changes no byte outside column `x` of its
`n` pages. -/
def Obligations.DrawVFrame : Prop :=
  ∀ (s t : State) (x y len : Byte), s.params.disjoint = true → s.dev.cfg = .configured → s.dev.gddram.wf = true →
    NoneFails s (emit s.params (.drawV x y len)).length → exec (.drawV x y len) s = .next t → t.phase = .idle →
    (∀ a, (∀ i, i < pageCount y len → a ≠ cellAddr (y.toNat / 8 + i) x.toNat) →
      t.dev.gddram.read a = s.dev.gddram.read a)
    ∧ t.dev.on = s.dev.on ∧ t.dev.contrast = s.dev.contrast ∧ t.dev.cfg = s.dev.cfg

/-! ## `END` and the device -/

/-- R55, R56, R58: `END` of a fully acknowledged data session whose payload stays inside the frame, device configured:
the payload's bytes stand from the cursor's address on, every other byte as before, and the cursor follows.
That the working registers it does not write keep their values is the model's choice (notes/assumptions/30.md). -/
def Obligations.EndStoresDataSession : Prop :=
  ∀ (s : State) (payload : List Byte), s.phase = .idle → s.sess = .opened → AllComplete s 1 →
    sessionFailed (sessionOf s.events) = false → sessionAddrs (sessionOf s.events) = [s.params.devAddrW] →
    sessionData (sessionOf s.events) = 0x40#8 :: payload → s.dev.cfg = .configured → s.dev.gddram.wf = true →
    s.dev.cursorAddr + payload.length ≤ 1024 →
    ∃ d : Dev, exec .endSess s = .next (completedState .endSess s d)
      ∧ (∀ k v, payload[k]? = some v → d.gddram.read (s.dev.cursorAddr + k) = v)
      ∧ (∀ a, ¬ (s.dev.cursorAddr ≤ a ∧ a < s.dev.cursorAddr + payload.length) →
          d.gddram.read a = s.dev.gddram.read a)
      ∧ (s.dev.cursorAddr + payload.length < 1024 → d.cursorAddr = s.dev.cursorAddr + payload.length)
      ∧ d.on = s.dev.on ∧ d.contrast = s.dev.contrast ∧ d.cfg = s.dev.cfg

/-- R58, R61: `END` of a session with a failed step, with an address byte other than the device's, with no control byte, or
with a control byte other than `0x00` and `0x40`, leaves a havocked device. That a missing or a second address byte counts
as a wrong one is the model's choice (notes/assumptions/25.md).
That the working registers it does not write keep their values is the model's choice (notes/assumptions/30.md). -/
def Obligations.EndHavocsBadSession : Prop :=
  ∀ s : State, s.phase = .idle → s.sess = .opened → AllComplete s 1 →
    (sessionFailed (sessionOf s.events) = true ∨ sessionAddrs (sessionOf s.events) ≠ [s.params.devAddrW]
      ∨ sessionData (sessionOf s.events) = []
      ∨ ∃ c payload, sessionData (sessionOf s.events) = c :: payload ∧ c ≠ 0x00#8 ∧ c ≠ 0x40#8) →
    exec .endSess s = .next (completedState .endSess s s.dev.havoc)

/-- R58, R132: `END` of a fully acknowledged session with an empty payload, of either stream, leaves the device as it
was.
That the working registers it does not write keep their values is the model's choice (notes/assumptions/30.md). -/
def Obligations.EndOfEmptySessionKeepsDevice : Prop :=
  ∀ s : State, s.phase = .idle → s.sess = .opened → AllComplete s 1 →
    sessionFailed (sessionOf s.events) = false → sessionAddrs (sessionOf s.events) = [s.params.devAddrW] →
    (sessionData (sessionOf s.events) = [0x00#8] ∨ sessionData (sessionOf s.events) = [0x40#8]) →
    exec .endSess s = .next (completedState .endSess s s.dev)

/-- R59: `END` of a fully acknowledged command session whose payload, not `INIT`'s, is any number of whole known commands
and then an unknown byte and what follows it, or a contrast opcode with no value, leaves a havocked device.
Where the OPEN parameters break R59's "disjoint", so that its rows give two readings, the havoc is the model's choice (notes/assumptions/13.md).
That the working registers it does not write keep their values is the model's choice (notes/assumptions/30.md). -/
def Obligations.EndHavocsUnknownCommand : Prop :=
  ∀ (s : State) (known : List (List Byte)) (b : Byte) (rest : List Byte), s.phase = .idle → s.sess = .opened →
    AllComplete s 1 → (∀ c ∈ known, isCommand s.params c = true) → known.flatten ++ b :: rest ≠ s.params.initPayload →
    sessionFailed (sessionOf s.events) = false → sessionAddrs (sessionOf s.events) = [s.params.devAddrW] →
    sessionData (sessionOf s.events) = 0x00#8 :: (known.flatten ++ b :: rest) →
    ((isColHi s.params b = false ∧ isOtherFirstByte b = false) ∨ (b = 0x81#8 ∧ rest = [])) →
    exec .endSess s = .next (completedState .endSess s s.dev.havoc)

/-- R55: data bytes, one or more, to an UNCONFIGURED device leave its display RAM and its cursor a draw not made before, and
keep `on`, `contrast` and `cfg`: at the `END` of a fully acknowledged data session, and in `DRAWH`, `DRAWV` and `CLEAR`
with every step `OK`.
That the working registers it does not write keep their values is the model's choice (notes/assumptions/30.md). -/
def Obligations.UnconfiguredDataHavocs : Prop :=
  ∀ s : State, s.phase = .idle → s.dev.cfg = .unconfigured →
    (∀ (v : Byte) (payload : List Byte), s.sess = .opened → AllComplete s 1 →
      sessionFailed (sessionOf s.events) = false → sessionAddrs (sessionOf s.events) = [s.params.devAddrW] →
      sessionData (sessionOf s.events) = 0x40#8 :: v :: payload →
      ∃ n, s.dev.draws ≤ n ∧ exec .endSess s = .next (completedState .endSess s (s.dev.ramDraw n)))
    ∧ (∀ i : Instr, ((∃ x y len, i = .drawH x y len) ∨ (∃ x y len, i = .drawV x y len) ∨ i = .clear) →
      Accepts i s → s.params.disjoint = true → AllOk s (emit s.params i).length →
      ∃ t n, exec i s = .next t ∧ s.dev.draws ≤ n ∧ t.dev = s.dev.ramDraw n)

/-! ## The rasterizer's bytes -/

/-- R150, R92: the tables of `1 << k`, `trunc8(0xFF << k)` and `0xFF >> k` for `k` = 0 to 7. -/
def Obligations.MaskTables : Prop :=
  ∀ y len : Byte,
    [0x01#8, 0x02#8, 0x04#8, 0x08#8, 0x10#8, 0x20#8, 0x40#8, 0x80#8][y.toNat % 8]? = some (rowByte y)
    ∧ [0xFF#8, 0xFE#8, 0xFC#8, 0xF8#8, 0xF0#8, 0xE0#8, 0xC0#8, 0x80#8][y.toNat % 8]? = some (startMask y)
    ∧ [0xFF#8, 0x7F#8, 0x3F#8, 0x1F#8, 0x0F#8, 0x07#8, 0x03#8, 0x01#8][(y.toNat + len.toNat) % 8]? = some (endMask y len)

/-- R155, R156: in `DRAWV`'s domain there are 1 to 8 page writes, the last at page `(y + len - 1) / 8`, which exists; one
exactly when the line stays in one page. -/
def Obligations.PageSpan : Prop :=
  ∀ y len : Byte, y.toNat ≤ 63 → 1 ≤ len.toNat → y.toNat + len.toNat ≤ 64 →
    1 ≤ pageCount y len ∧ pageCount y len ≤ 8
    ∧ y.toNat / 8 + pageCount y len - 1 = (y.toNat + len.toNat - 1) / 8
    ∧ y.toNat / 8 + pageCount y len ≤ 8
    ∧ (pageCount y len = 1 ↔ y.toNat % 8 + len.toNat ≤ 8)

/-- R160: the rows `DRAWV` lights in the pages it writes, after a run with every step `OK` on a configured device: from
row `y` to row `8 pe + 7 - e`, and no other. -/
def Obligations.DrawVLightsRows : Prop :=
  ∀ (s : State) (x y len : Byte), s.phase = .idle → s.sess = .closed → x.toNat ≤ 127 → y.toNat ≤ 63 →
    1 ≤ len.toNat → y.toNat + len.toNat ≤ 64 → s.params.disjoint = true → s.dev.cfg = .configured →
    s.dev.gddram.wf = true → AllOk s (emit s.params (.drawV x y len)).length →
    ∃ t, exec (.drawV x y len) s = .next t ∧
      ∀ row, y.toNat / 8 * 8 ≤ row → row ≤ (y.toNat + len.toNat - 1) / 8 * 8 + 7 →
        (t.dev.pixel x.toNat row = true ↔
          y.toNat ≤ row ∧ row + (y.toNat + len.toNat) % 8 ≤ (y.toNat + len.toNat - 1) / 8 * 8 + 7)

/-- R160: the rows lit are the geometric line `y` to `y + len - 1` exactly when `e` is 0 or 4. -/
def Obligations.GeometricLineIff : Prop :=
  ∀ y len : Byte, y.toNat ≤ 63 → 1 ≤ len.toNat → y.toNat + len.toNat ≤ 64 →
    ((∀ i k, i < pageCount y len → k < 8 →
        ((lineByte y len i).getLsbD k = true ↔
          y.toNat ≤ (y.toNat / 8 + i) * 8 + k ∧ (y.toNat / 8 + i) * 8 + k < y.toNat + len.toNat))
      ↔ (y.toNat + len.toNat) % 8 = 0 ∨ (y.toNat + len.toNat) % 8 = 4)

/-- R154: after `DRAWH`, every step `OK` on a configured device, at each touched column row `y` is lit and the seven other
rows of its page are dark, whatever they held. -/
def Obligations.DrawHClobbersPage : Prop :=
  ∀ (s : State) (x y len : Byte), s.phase = .idle → s.sess = .closed → x.toNat ≤ 127 → y.toNat ≤ 63 →
    1 ≤ len.toNat → x.toNat + len.toNat ≤ 128 → s.params.disjoint = true → s.dev.cfg = .configured →
    s.dev.gddram.wf = true → AllOk s (11 + len.toNat) →
    ∃ t, exec (.drawH x y len) s = .next t ∧
      ∀ c row, x.toNat ≤ c → c < x.toNat + len.toNat → row / 8 = y.toNat / 8 →
        (t.dev.pixel c row = true ↔ row = y.toNat)

/-! ## Invariants -/

/-- The invariants hold at reset (R25, R26, R27, R34, R36). -/
def Obligations.InvariantsAtReset : Prop :=
  State.reset.Inv ∧ State.reset.Bracketed

/-- R26, R27, R34, R117: every step keeps the invariant: `IE = 0` exactly when `SESS = OPEN`; running exactly while a step
is in flight, and then inside a session; `ERRF` set exactly when `TRACE` holds an `Err`; the display RAM canonical. -/
def Obligations.StepKeepsInv : Prop :=
  ∀ s t : State, s.Inv → step s = .next t → t.Inv

/-- R67, R112, R116: every step keeps the trace's interrupt mask events alternating and in agreement with `SESS`. -/
def Obligations.StepKeepsBracketed : Prop :=
  ∀ s t : State, s.Bracketed → step s = .next t → t.Bracketed

/-- R29: no step, reset included, changes an OPEN parameter. -/
def Obligations.StepKeepsParams : Prop :=
  ∀ s t : State, step s = .next t → t.params = s.params

/-- R27: `ERRF`, once set, is cleared by nothing but reset. -/
def Obligations.ErrfSticky : Prop :=
  ∀ s t : State, NoReset s → step s = .next t → s.errf = true → t.errf = true

/-- R32: but for a reset, a step only adds events at the end of `TRACE`. -/
def Obligations.TraceOnlyGrows : Prop :=
  ∀ s t : State, NoReset s → step s = .next t → s.trace <+: t.trace

/-- R58: but for a reset, the device changes only in a step that adds a `Done`, or in one that stalls, which leaves it
havocked (R58; notes/assumptions/9.md). -/
def Obligations.DeviceChangesOnlyAtDone : Prop :=
  ∀ s t : State, NoReset s → step s = .next t → t.events.count .done = s.events.count .done →
    t.dev = s.dev ∨ (t.stuck ∧ t.dev = s.dev.havoc)

/-! ## Whole-machine statements -/

/-- R95: an accepted operation, every step completed, leaves the same `TRACE`, `SESS`, `IE`, `ERRF` and `DEV` as its
expansion into simpler operations issued one after another, whatever the statuses. -/
def Obligations.ExpansionEquivalent : Prop :=
  ∀ (i : Instr) (s : State), Accepts i s → AllComplete s (emit s.params i).length →
    ∃ t t', exec i s = .next t ∧ execAll (expand s.params i) s = .next t'
      ∧ t'.trace = t.trace ∧ t'.sess = t.sess ∧ t'.ie = t.ie ∧ t'.errf = t.errf ∧ t'.dev = t.dev

/-- R232: `INIT` then `CLEAR`, every step acknowledged, from any idle state with no session open and no error recorded:
no error, device configured and on, every byte of the display RAM zero. -/
def Obligations.BootBlanksDisplay : Prop :=
  ∀ s : State, s.phase = .idle → s.sess = .closed → s.errf = false → s.params.disjoint = true →
    AllOk s (10 + s.params.initSeq.length + 1035) →
    ∃ t, execAll [.init, .clear] s = .next t ∧ t.errf = false ∧ t.sess = .closed ∧ t.ie = true ∧ t.phase = .idle
      ∧ t.dev.cfg = .configured ∧ t.dev.on = true ∧ ∀ a, a < 1024 → t.dev.gddram.read a = 0#8
end

