-- ==== Sys2Proof/Laws/Encoding.lean ====
section
/-! SUPPORT. The four fields of a command word (spec/30_encoding.md R80): packing and field extraction undo each other. -/

namespace Sys2Proof

/-- Bit `i` of a packed word. -/
theorem getLsbD_packWord (op a b c : Byte) (i : Nat) :
    (packWord op a b c).getLsbD i
      = if i < 8 then c.getLsbD i else if i < 16 then b.getLsbD (i - 8)
        else if i < 24 then a.getLsbD (i - 16) else op.getLsbD (i - 24) := by
  show BitVec.getLsbD (w := 8 + 8 + 8 + 8) (op ++ a ++ b ++ c) i = _
  simp only [BitVec.getLsbD_append]
  by_cases h1 : i < 8
  · simp [h1]
  · by_cases h2 : i < 16
    · simp [h1, h2, show i - 8 < 8 by omega]
    · by_cases h3 : i < 24
      · simp [h1, h2, h3, show ¬ i - 8 < 8 by omega, show i - 8 - 8 = i - 16 by omega]
        omega
      · simp [h1, h2, h3, show ¬ i - 8 < 8 by omega, show ¬ i - 8 - 8 < 8 by omega,
          show i - 8 - 8 - 8 = i - 24 by omega]

@[simp] theorem fieldOp_packWord (op a b c : Byte) : fieldOp (packWord op a b c) = op := by
  ext i hi
  simp only [fieldOp, BitVec.getElem_extractLsb', getLsbD_packWord]
  rw [if_neg (by omega), if_neg (by omega), if_neg (by omega), Nat.add_sub_cancel_left]
  simp [hi]

@[simp] theorem fieldA_packWord (op a b c : Byte) : fieldA (packWord op a b c) = a := by
  ext i hi
  simp only [fieldA, BitVec.getElem_extractLsb', getLsbD_packWord]
  rw [if_neg (by omega), if_neg (by omega), if_pos (by omega), Nat.add_sub_cancel_left]
  simp [hi]

@[simp] theorem fieldB_packWord (op a b c : Byte) : fieldB (packWord op a b c) = b := by
  ext i hi
  simp only [fieldB, BitVec.getElem_extractLsb', getLsbD_packWord]
  rw [if_neg (by omega), if_pos (by omega), Nat.add_sub_cancel_left]
  simp [hi]

@[simp] theorem fieldC_packWord (op a b c : Byte) : fieldC (packWord op a b c) = c := by
  ext i hi
  simp only [fieldC, BitVec.getElem_extractLsb', getLsbD_packWord]
  rw [if_pos (by omega)]
  simp [hi]

/-- A word is the packing of its fields. -/
theorem packWord_fields (w : Word) : packWord (fieldOp w) (fieldA w) (fieldB w) (fieldC w) = w := by
  apply BitVec.eq_of_getLsbD_eq
  intro i hi
  simp only [getLsbD_packWord, fieldOp, fieldA, fieldB, fieldC, BitVec.getLsbD_extractLsb']
  split
  · simp [*]
  · split
    · rw [show 8 + (i - 8) = i by omega]; simp; omega
    · split
      · rw [show 16 + (i - 16) = i by omega]; simp; omega
      · rw [show 24 + (i - 24) = i by omega]; simp; omega

@[simp] theorem fieldOp_encode (i : Instr) : fieldOp (encode i) = i.opcode := fieldOp_packWord ..
@[simp] theorem fieldA_encode (i : Instr) : fieldA (encode i) = i.operands.1 := fieldA_packWord ..
@[simp] theorem fieldB_encode (i : Instr) : fieldB (encode i) = i.operands.2.1 := fieldB_packWord ..
@[simp] theorem fieldC_encode (i : Instr) : fieldC (encode i) = i.operands.2.2 := fieldC_packWord ..

end Sys2Proof
end

