-- ==== Sys2Proof/Laws/Memory.lean ====
section
/-! SUPPORT. The display RAM: read after write, canonical form kept by every operation. -/

namespace Sys2Proof.Machine

theorem find_putCell (a b : Nat) (v : Byte) (cs : List Host.Cell) (lo : Option Nat) (h : risingFrom lo cs = true) :
    ((putCell a v cs).find? fun c => c.1 == b).map (·.2)
      = if b = a then some v else (cs.find? fun c => c.1 == b).map (·.2) := by
  induction cs generalizing lo with
  | nil => by_cases hb : b = a <;> simp [putCell, hb]; omega
  | cons c cs ih =>
    obtain ⟨ca, cv⟩ := c
    simp only [risingFrom, Bool.and_eq_true] at h
    have ih := ih (some ca) h.2
    simp only [putCell]
    split
    · by_cases hb : b = a
      · subst hb; simp
      · have : ¬ a = b := fun e => hb e.symm
        simp [hb, this]
    · split
      · rename_i h1 h2
        subst h2
        by_cases hb : b = a
        · subst hb; simp
        · have : ¬ a = b := fun e => hb e.symm
          simp [hb, this]
      · rename_i h1 h2
        by_cases hc : ca = b
        · have : ¬ b = a := by omega
          simp [hc, this]
        · simp [hc, ih]

theorem risingFrom_putCell (a : Nat) (v : Byte) (ha : a < Config.frameBytes) (cs : List Host.Cell) (lo : Option Nat)
    (hlo : lo.all (· < a) = true) (h : risingFrom lo cs = true) : risingFrom lo (putCell a v cs) = true := by
  induction cs generalizing lo with
  | nil => simp [putCell, risingFrom, hlo, ha]
  | cons c cs ih =>
    simp only [risingFrom, Bool.and_eq_true, decide_eq_true_eq] at h
    simp only [putCell]
    split
    · rename_i h1; simp [risingFrom, hlo, ha, h1, h.1.2, h.2]
    · split
      · rename_i h1 h2
        have h22 := h.2
        rw [← h2] at h22
        simp [risingFrom, hlo, ha, h22]
      · rename_i h1 h2
        simp [risingFrom, h.1.1, h.1.2, ih (some c.1) (by simp; omega) h.2]

/-- A read after a write: the byte written at its address, the byte before elsewhere. -/
theorem read_write (m : Memory) (a b : Nat) (v : Byte) (h : m.wf = true) :
    (m.write a v).read b = if b = a then v else m.read b := by
  have := find_putCell a b v m.cells none h
  simp only [Memory.read, Memory.lookup, Memory.write, Memory.unlisted] at this ⊢
  rw [this]
  by_cases hb : b = a <;> simp [hb]

/-- A write inside the display RAM keeps the canonical form. -/
theorem write_wf (m : Memory) (a : Nat) (v : Byte) (ha : a < Config.frameBytes) (h : m.wf = true) :
    (m.write a v).wf = true :=
  risingFrom_putCell a v ha m.cells none rfl h

@[simp] theorem drawn_wf (n : Nat) : (Memory.drawn n).wf = true := rfl

theorem cursorAddr_lt (d : Dev) : d.cursorAddr < Config.frameBytes := by
  have h1 := d.page.isLt
  have h2 := d.col.isLt
  simp only [Dev.cursorAddr, cellAddr, Config.width, Config.frameBytes]
  omega

end Sys2Proof.Machine
end

