-- ==== Sys2Proof/Laws/Device.lean ====
section
/-! SUPPORT. The device model: what every operation of it keeps, and what a run of data bytes or a position leaves. -/

namespace Sys2Proof.Machine

/-! ## The canonical form -/

@[simp] theorem havoc_gddram (d : Dev) : d.havoc.gddram = Memory.drawn d.draws := rfl
@[simp] theorem drawRam_gddram (d : Dev) : d.drawRam.gddram = Memory.drawn d.draws := rfl
@[simp] theorem afterInit_gddram (d : Dev) : d.afterInit.gddram = Memory.drawn d.draws := rfl
@[simp] theorem setPage_gddram (d : Dev) (b : Byte) : (d.setPage b).gddram = d.gddram := by
  simp only [Dev.setPage]
@[simp] theorem setColHi_gddram (p : Params) (d : Dev) (b : Byte) : (d.setColHi p b).gddram = d.gddram := by
  simp only [Dev.setColHi]
@[simp] theorem setColLo_gddram (d : Dev) (b : Byte) : (d.setColLo b).gddram = d.gddram := by
  simp only [Dev.setColLo]
@[simp] theorem drawCursor_gddram (d : Dev) : d.drawCursor.gddram = d.gddram := rfl

@[simp] theorem advance_gddram (d : Dev) : d.advance.gddram = d.gddram := by
  unfold Dev.advance; split <;> (try split) <;> rfl
@[simp] theorem advance_cfg (d : Dev) : d.advance.cfg = d.cfg := by
  unfold Dev.advance; split <;> (try split) <;> rfl
@[simp] theorem advance_on (d : Dev) : d.advance.on = d.on := by
  unfold Dev.advance; split <;> (try split) <;> rfl
@[simp] theorem advance_contrast (d : Dev) : d.advance.contrast = d.contrast := by
  unfold Dev.advance; split <;> (try split) <;> rfl

theorem memWrite_wf (d : Dev) (v : Byte) (h : d.gddram.wf = true) : (d.memWrite v).gddram.wf = true := by
  unfold Dev.memWrite
  split
  · rw [advance_gddram]; exact write_wf d.gddram d.cursorAddr v (cursorAddr_lt d) h
  · rfl

theorem writes_wf (l : List Byte) (d : Dev) (h : d.gddram.wf = true) : (d.writes l).gddram.wf = true := by
  induction l generalizing d with
  | nil => exact h
  | cons v l ih =>
    show ((d.memWrite v).writes l).gddram.wf = true
    exact ih _ (memWrite_wf d v h)

/-- The command parser leaves the display RAM alone or draws it anew. -/
theorem parse_gddram (p : Params) (l : List Byte) (d : Dev) :
    (Dev.parse p l d).gddram = d.gddram ∨ ∃ n, (Dev.parse p l d).gddram = Memory.drawn n := by
  fun_induction Dev.parse p l d <;> first
    | exact .inl rfl
    | exact .inr ⟨_, rfl⟩
    | (rename_i ih; simpa only [setPage_gddram, setColHi_gddram, setColLo_gddram] using ih)

theorem commands_gddram (p : Params) (l : List Byte) (d : Dev) :
    (d.commands p l).gddram = d.gddram ∨ ∃ n, (d.commands p l).gddram = Memory.drawn n := by
  simp only [Dev.commands]
  split
  · exact .inr ⟨_, rfl⟩
  · split
    · exact parse_gddram p l d
    · exact .inr ⟨_, rfl⟩

theorem commands_wf (p : Params) (l : List Byte) (d : Dev) (h : d.gddram.wf = true) :
    (d.commands p l).gddram.wf = true := by
  rcases commands_gddram p l d with e | ⟨n, e⟩ <;> rw [e]
  · exact h
  · rfl

/-- Reading a session keeps the display RAM's canonical form. -/
theorem readSession_wf (p : Params) (es : List Event) (d : Dev) (h : d.gddram.wf = true) :
    (d.readSession p es).gddram.wf = true := by
  simp only [Dev.readSession]
  split
  · rfl
  · split
    · rfl
    · split
      · rfl
      · split
        · exact writes_wf _ d h
        · split
          · exact commands_wf p _ d h
          · rfl

/-! ## Positions -/

theorem mem_range8 (n : Nat) (h : n ≤ 7) : n ∈ List.range 8 := List.mem_range.mpr (by omega)

/-- Where the OPEN parameters are disjoint, a column-high byte is no other command's first byte (R59). -/
theorem colHi_other (p : Params) (hp : p.disjoint = true) (n : Nat) (hn : n ≤ 7) :
    isOtherFirstByte (BitVec.ofNat 8 (p.colHiBias.toNat + n)) = false := by
  simp only [Params.disjoint, Bool.and_eq_true, List.all_eq_true] at hp
  have := hp.2 n (mem_range8 n hn)
  rw [show BitVec.ofNat 8 (p.colHiBias.toNat + n) = p.colHiBias + BitVec.ofNat 8 n by
    apply BitVec.eq_of_toNat_eq; simp]
  simpa using this

theorem bias_small (p : Params) (hp : p.disjoint = true) : p.colHiBias.toNat + 7 < 256 := by
  simp only [Params.disjoint, Bool.and_eq_true, decide_eq_true_eq] at hp
  exact hp.1

/-- A byte of another row of R59's table is no column-high byte. -/
theorem isColHi_false (p : Params) (hp : p.disjoint = true) (b : Byte) (hb : isOtherFirstByte b = true) :
    isColHi p b = false := by
  cases hc : isColHi p b with
  | false => rfl
  | true =>
    simp only [isColHi, Bool.and_eq_true, decide_eq_true_eq] at hc
    have h := colHi_other p hp (b.toNat - p.colHiBias.toNat) (by omega)
    rw [show p.colHiBias.toNat + (b.toNat - p.colHiBias.toNat) = b.toNat by omega] at h
    simp [hb] at h

theorem initPayload_length (p : Params) : 6 ≤ p.initPayload.length := by simp [Params.initPayload]

/-- A payload shorter than the `INIT` payload is parsed one command at a time (R59). -/
theorem commands_short (p : Params) (hp : p.disjoint = true) (l : List Byte) (hl : l.length < 6) (d : Dev) :
    d.commands p l = Dev.parse p l d := by
  have : l ≠ p.initPayload := fun e => by have := initPayload_length p; rw [← e] at this; omega
  simp [Dev.commands, this, hp]

/-- The parser on a page-select byte. -/
theorem parse_page (p : Params) (b : Byte) (l : List Byte) (d : Dev) (h : isPageSelect b = true) :
    Dev.parse p (b :: l) d = Dev.parse p l (d.setPage b) := by
  cases l <;> simp [Dev.parse, h]

/-- The parser on a column-high byte. -/
theorem parse_colHi (p : Params) (b : Byte) (l : List Byte) (d : Dev) (h0 : isPageSelect b = false)
    (h : isColHi p b = true) : Dev.parse p (b :: l) d = Dev.parse p l (d.setColHi p b) := by
  cases l <;> simp [Dev.parse, h, h0]

/-- The parser on a column-low byte. -/
theorem parse_colLo (p : Params) (b : Byte) (l : List Byte) (d : Dev) (h0 : isPageSelect b = false)
    (h1 : isColHi p b = false) (h : isColLo b = true) : Dev.parse p (b :: l) d = Dev.parse p l (d.setColLo b) := by
  cases l <;> simp [Dev.parse, h, h0, h1]

/-- The three addressing bytes set the cursor to (x, page) and change nothing else (R59, R143). -/
theorem commands_posBytes (p : Params) (hp : p.disjoint = true) (x : Byte) (page : Nat) (hx : x.toNat ≤ 127)
    (hpg : page ≤ 7) (d : Dev) :
    d.commands p (posBytes p x page) = { d with col := Fin.ofNat 128 x.toNat, page := Fin.ofNat 8 page } := by
  have hb := bias_small p hp
  rw [commands_short p hp _ (by simp [posBytes])]
  have h1 : isPageSelect (pageByte page) = true := by
    simp [isPageSelect, pageByte, Config.cmdPageBase]; omega
  have hhi := colHi_other p hp (x.toNat / 16) (by omega)
  have h2 : isPageSelect (colHiByte p x) = false := by
    simp only [isOtherFirstByte, Bool.or_eq_false_iff] at hhi
    exact hhi.1.1.1.1
  have h3 : isColHi p (colHiByte p x) = true := by
    simp [isColHi, colHiByte]; omega
  have hlo : colLoByte x = BitVec.ofNat 8 (x.toNat % 16) := by simp [colLoByte, Config.colLoBias]
  have h4 : isPageSelect (colLoByte x) = false := by
    rw [hlo]; simp [isPageSelect, Config.cmdPageBase]; omega
  have h5 : isColLo (colLoByte x) = true := by
    rw [hlo]; simp [isColLo, Config.colLoBias]; omega
  have h6 : isColHi p (colLoByte x) = false := by
    apply isColHi_false p hp
    simp only [isOtherFirstByte, Bool.or_eq_true]
    exact .inl (.inl (.inl (.inr h5)))
  rw [posBytes, parse_page p _ _ _ h1, parse_colHi p _ _ _ h2 h3, parse_colLo p _ _ _ h4 h6 h5]
  simp only [Dev.parse, Dev.setColLo, Dev.setColHi, Dev.setPage]
  simp only [Dev.mk.injEq, true_and, and_true]
  constructor
  · apply Fin.ext
    simp [hlo, Config.colLoBias, colHiByte, Fin.ofNat]
    omega
  · apply Fin.ext
    simp only [pageByte, Config.cmdPageBase, Fin.ofNat, BitVec.toNat_ofNat]
    omega

/-! ## Data bytes -/

/-- One data byte to a configured device (R55). -/
theorem memWrite_configured (d : Dev) (v : Byte) (h : d.cfg = .configured) :
    d.memWrite v = { d with gddram := d.gddram.write d.cursorAddr v }.advance := by
  simp [Dev.memWrite, h]

/-- Data bytes keep `on`, `contrast` and `cfg` (R55). -/
theorem memWrite_keeps (d : Dev) (v : Byte) :
    (d.memWrite v).on = d.on ∧ (d.memWrite v).contrast = d.contrast ∧ (d.memWrite v).cfg = d.cfg := by
  cases hc : d.cfg <;> simp [Dev.memWrite, hc, Dev.drawRam]

theorem writes_keeps (l : List Byte) (d : Dev) :
    (d.writes l).on = d.on ∧ (d.writes l).contrast = d.contrast ∧ (d.writes l).cfg = d.cfg := by
  induction l generalizing d with
  | nil => exact ⟨rfl, rfl, rfl⟩
  | cons v l ih =>
    have h1 := ih (d.memWrite v)
    have h2 := memWrite_keeps d v
    exact ⟨h1.1.trans h2.1, h1.2.1.trans h2.2.1, h1.2.2.trans h2.2.2⟩

/-- Before the end of the frame the cursor's address rises by one (R56). -/
theorem advance_cursorAddr (d : Dev) (h : d.cursorAddr + 1 < Config.frameBytes) :
    d.advance.cursorAddr = d.cursorAddr + 1 := by
  have h1 := d.page.isLt
  have h2 := d.col.isLt
  simp only [Dev.cursorAddr, cellAddr, Config.width, Config.frameBytes, Dev.advance] at *
  split
  · simp [Fin.ofNat]; omega
  · split
    · simp [Fin.ofNat]; omega
    · omega

/-- A run of data bytes to a configured device that stays inside the frame: each byte lands at its address, every other
address reads as before (R55, R56, R58), and the cursor follows. -/
theorem writes_read (l : List Byte) (d : Dev) (hc : d.cfg = .configured) (hw : d.gddram.wf = true)
    (hl : d.cursorAddr + l.length ≤ Config.frameBytes) (b : Nat) :
    (d.writes l).gddram.read b
      = if d.cursorAddr ≤ b ∧ b < d.cursorAddr + l.length then (l[b - d.cursorAddr]?).getD 0#8
        else d.gddram.read b := by
  induction l generalizing d with
  | nil => simp [Dev.writes]
  | cons v l ih =>
    have hstep : d.writes (v :: l) = (d.memWrite v).writes l := rfl
    rw [hstep]
    have hcur := cursorAddr_lt d
    have hg : (d.memWrite v).gddram = d.gddram.write d.cursorAddr v := by simp [memWrite_configured d v hc]
    cases l with
    | nil =>
      have : (d.memWrite v).writes [] = d.memWrite v := rfl
      rw [this, hg, read_write _ _ _ _ hw]
      by_cases hb : b = d.cursorAddr
      · subst hb; simp
      · have : ¬ (d.cursorAddr ≤ b ∧ b < d.cursorAddr + [v].length) := by simp; omega
        rw [if_neg hb, if_neg this]
    | cons w l =>
      have hadv : (d.memWrite v).cursorAddr = d.cursorAddr + 1 := by
        rw [memWrite_configured d v hc]
        exact advance_cursorAddr { d with gddram := d.gddram.write d.cursorAddr v } (by
          simp only [List.length_cons] at hl
          show d.cursorAddr + 1 < _; omega)
      rw [ih (d.memWrite v) ((memWrite_keeps d v).2.2.trans hc) (memWrite_wf d v hw) (by
        rw [hadv]; simp only [List.length_cons] at hl ⊢; omega), hadv, hg, read_write _ _ _ _ hw]
      simp only [List.length_cons]
      by_cases hb : b = d.cursorAddr
      · subst hb
        rw [if_neg (by omega), if_pos (by omega)]
        simp
      · by_cases hin : d.cursorAddr + 1 ≤ b ∧ b < d.cursorAddr + 1 + (l.length + 1)
        · rw [if_pos hin, if_pos (by omega)]
          have : b - d.cursorAddr = (b - (d.cursorAddr + 1)) + 1 := by omega
          rw [this, List.getElem?_cons_succ]
        · rw [if_neg hin, if_neg hb, if_neg (by omega)]

/-- Where the cursor stands after a run of data bytes that ends before the frame's last byte (R56). -/
theorem writes_cursorAddr (l : List Byte) (d : Dev) (hc : d.cfg = .configured)
    (hl : d.cursorAddr + l.length < Config.frameBytes) : (d.writes l).cursorAddr = d.cursorAddr + l.length := by
  induction l generalizing d with
  | nil => simp [Dev.writes]
  | cons v l ih =>
    have hstep : d.writes (v :: l) = (d.memWrite v).writes l := rfl
    have hadv : (d.memWrite v).cursorAddr = d.cursorAddr + 1 := by
      rw [memWrite_configured d v hc]
      exact advance_cursorAddr { d with gddram := d.gddram.write d.cursorAddr v } (by
        simp only [List.length_cons] at hl
        show d.cursorAddr + 1 < _; omega)
    simp only [List.length_cons] at hl ⊢
    rw [hstep, ih (d.memWrite v) ((memWrite_keeps d v).2.2.trans hc) (by omega)]
    omega

/-- Data bytes to an unconfigured device, at least one: display RAM and cursor are a draw not made before (R55). -/
theorem writes_unconfigured (v : Byte) (l : List Byte) (d : Dev) (hc : d.cfg = .unconfigured) :
    d.writes (v :: l) = d.ramDraw (d.draws + l.length) := by
  induction l generalizing v d with
  | nil => simp [Dev.writes, Dev.memWrite, hc, Dev.drawRam, Dev.ramDraw]
  | cons w l ih =>
    have hstep : d.writes (v :: w :: l) = (d.memWrite v).writes (w :: l) := rfl
    have hm : d.memWrite v = d.drawRam := by simp [Dev.memWrite, hc]
    rw [hstep, hm, ih w d.drawRam hc]
    simp only [Dev.drawRam, Dev.ramDraw, List.length_cons, Dev.mk.injEq, true_and]
    rw [show d.draws + 1 + l.length = d.draws + (l.length + 1) by omega]
    exact ⟨rfl, rfl, rfl, rfl⟩

/-! ## Commands in front -/

/-- The parser takes one whole known command and goes on with the rest; no draw is made (R59). -/
theorem parse_command (p : Params) (hp : p.disjoint = true) (c l : List Byte) (d : Dev) (hc : isCommand p c = true) :
    ∃ d', d'.draws = d.draws ∧ Dev.parse p (c ++ l) d = Dev.parse p l d' := by
  match c, hc with
  | [b], hc =>
    simp only [isCommand, Bool.or_eq_true, Bool.and_eq_true, bne_iff_ne, ne_eq] at hc
    simp only [List.cons_append, List.nil_append]
    by_cases h1 : isPageSelect b = true
    · exact ⟨d.setPage b, by simp only [Dev.setPage], parse_page p b l d h1⟩
    by_cases h2 : isColHi p b = true
    · exact ⟨d.setColHi p b, by simp only [Dev.setColHi], parse_colHi p b l d (by simpa using h1) h2⟩
    by_cases h3 : isColLo b = true
    · exact ⟨d.setColLo b, by simp only [Dev.setColLo], parse_colLo p b l d (by simpa using h1) (by simpa using h2) h3⟩
    obtain ⟨ho, hn⟩ := hc.resolve_left h2
    have h45 : b = Config.cmdDisplayOff ∨ b = Config.cmdDisplayOn := by
      simp only [isPageSelect, isColLo] at h1 h3
      simp only [isOtherFirstByte, Bool.or_eq_true, beq_iff_eq] at ho
      rcases ho with (((ho | ho) | ho) | ho) | ho
      · exact absurd ho h1
      · exact absurd ho h3
      · exact .inl ho
      · exact .inr ho
      · exact absurd ho hn
    simp only [Bool.not_eq_true] at h1 h2 h3
    rcases h45 with rfl | rfl
    · exact ⟨{ d with on := false }, rfl, by cases l <;> simp [Dev.parse, h1, h2, h3]⟩
    · have hne : Config.cmdDisplayOn ≠ Config.cmdDisplayOff := by decide
      exact ⟨{ d with on := true }, rfl, by cases l <;> simp [Dev.parse, h1, h2, h3, hne]⟩
  | [b, v], hc =>
    have hb : b = 0x81#8 := by simpa [isCommand] using hc
    subst hb
    have hi : isColHi p 0x81#8 = false := isColHi_false p hp _ (by decide)
    refine ⟨{ d with contrast := v }, rfl, ?_⟩
    have h1 : isPageSelect 0x81#8 = false := by decide
    have h2 : isColLo 0x81#8 = false := by decide
    simp [Dev.parse, hi, h1, h2, Config.cmdDisplayOff, Config.cmdDisplayOn, Config.cmdContrast]

/-- The same for any number of them. -/
theorem parse_commands (p : Params) (hp : p.disjoint = true) (known : List (List Byte)) (l : List Byte) (d : Dev)
    (hc : ∀ c ∈ known, isCommand p c = true) :
    ∃ d', d'.draws = d.draws ∧ Dev.parse p (known.flatten ++ l) d = Dev.parse p l d' := by
  induction known generalizing d with
  | nil => exact ⟨d, rfl, rfl⟩
  | cons c cs ih =>
    obtain ⟨d1, h1, e1⟩ := parse_command p hp c (cs.flatten ++ l) d (hc c List.mem_cons_self)
    obtain ⟨d2, h2, e2⟩ := ih d1 fun x hx => hc x (List.mem_cons_of_mem _ hx)
    exact ⟨d2, h2.trans h1, by rw [List.flatten_cons, List.append_assoc, e1, e2]⟩

/-! ## Draws are only made, never taken back -/

theorem memWrite_draws (d : Dev) (v : Byte) : d.draws ≤ (d.memWrite v).draws := by
  unfold Dev.memWrite Dev.advance Dev.drawRam Dev.drawCursor
  split <;> (repeat' split) <;> simp

theorem writes_draws (l : List Byte) (d : Dev) : d.draws ≤ (d.writes l).draws := by
  induction l generalizing d with
  | nil => exact Nat.le_refl _
  | cons v l ih => exact Nat.le_trans (memWrite_draws d v) (ih (d.memWrite v))

theorem parse_draws (p : Params) (l : List Byte) (d : Dev) : d.draws ≤ (Dev.parse p l d).draws := by
  fun_induction Dev.parse p l d <;> first
    | exact Nat.le_refl _
    | exact Nat.le_succ _
    | (rename_i ih; simpa only [Dev.setPage, Dev.setColHi, Dev.setColLo] using ih)

/-- Reading a session makes draws or none. -/
theorem readSession_draws (p : Params) (es : List Event) (d : Dev) : d.draws ≤ (d.readSession p es).draws := by
  unfold Dev.readSession Dev.commands Dev.havoc Dev.afterInit
  repeat' split
  all_goals first | exact Nat.le_succ _ | exact writes_draws _ _ | exact parse_draws _ _ _

end Sys2Proof.Machine
end

