-- ==== Sys2Proof/Laws/State.lean ====
section
/-! SUPPORT. One lemma per field per state update, true by rfl, so that no later proof unfolds a record update; the
shared operations whose effect depends on a status or a register write get their equations. -/

namespace Sys2Proof.Machine

/-! ### `irqOff` -/

@[simp] theorem irqOff_ra (s : State) : s.irqOff.ra = s.ra := rfl
@[simp] theorem irqOff_rb (s : State) : s.irqOff.rb = s.rb := rfl
@[simp] theorem irqOff_rc (s : State) : s.irqOff.rc = s.rc := rfl
@[simp] theorem irqOff_ms (s : State) : s.irqOff.ms = s.ms := rfl
@[simp] theorem irqOff_me (s : State) : s.irqOff.me = s.me := rfl
@[simp] theorem irqOff_pg (s : State) : s.irqOff.pg = s.pg := rfl
@[simp] theorem irqOff_cnt (s : State) : s.irqOff.cnt = s.cnt := rfl
@[simp] theorem irqOff_op (s : State) : s.irqOff.op = s.op := rfl
@[simp] theorem irqOff_phase (s : State) : s.irqOff.phase = s.phase := rfl
@[simp] theorem irqOff_seq (s : State) : s.irqOff.seq = s.seq := rfl
@[simp] theorem irqOff_sess (s : State) : s.irqOff.sess = .opened := rfl
@[simp] theorem irqOff_ie (s : State) : s.irqOff.ie = false := rfl
@[simp] theorem irqOff_errf (s : State) : s.irqOff.errf = s.errf := rfl
@[simp] theorem irqOff_dev (s : State) : s.irqOff.dev = s.dev := rfl
@[simp] theorem irqOff_pending (s : State) : s.irqOff.pending = s.pending := rfl
@[simp] theorem irqOff_events (s : State) : s.irqOff.events = .irqOff :: s.events := rfl
@[simp] theorem irqOff_params (s : State) : s.irqOff.params = s.params := rfl
@[simp] theorem irqOff_host (s : State) : s.irqOff.host = s.host := rfl
@[simp] theorem irqOff_answers (s : State) : s.irqOff.answers = s.answers := rfl

/-! ### `irqOn` -/

@[simp] theorem irqOn_ra (s : State) : s.irqOn.ra = s.ra := rfl
@[simp] theorem irqOn_rb (s : State) : s.irqOn.rb = s.rb := rfl
@[simp] theorem irqOn_rc (s : State) : s.irqOn.rc = s.rc := rfl
@[simp] theorem irqOn_ms (s : State) : s.irqOn.ms = s.ms := rfl
@[simp] theorem irqOn_me (s : State) : s.irqOn.me = s.me := rfl
@[simp] theorem irqOn_pg (s : State) : s.irqOn.pg = s.pg := rfl
@[simp] theorem irqOn_cnt (s : State) : s.irqOn.cnt = s.cnt := rfl
@[simp] theorem irqOn_op (s : State) : s.irqOn.op = s.op := rfl
@[simp] theorem irqOn_phase (s : State) : s.irqOn.phase = s.phase := rfl
@[simp] theorem irqOn_seq (s : State) : s.irqOn.seq = s.seq := rfl
@[simp] theorem irqOn_sess (s : State) : s.irqOn.sess = .closed := rfl
@[simp] theorem irqOn_ie (s : State) : s.irqOn.ie = true := rfl
@[simp] theorem irqOn_errf (s : State) : s.irqOn.errf = s.errf := rfl
@[simp] theorem irqOn_dev (s : State) : s.irqOn.dev = s.dev := rfl
@[simp] theorem irqOn_pending (s : State) : s.irqOn.pending = s.pending := rfl
@[simp] theorem irqOn_events (s : State) : s.irqOn.events = .irqOn :: s.events := rfl
@[simp] theorem irqOn_params (s : State) : s.irqOn.params = s.params := rfl
@[simp] theorem irqOn_host (s : State) : s.irqOn.host = s.host := rfl
@[simp] theorem irqOn_answers (s : State) : s.irqOn.answers = s.answers := rfl

/-! ### `raiseBusNack` -/

@[simp] theorem raiseBusNack_ra (k : Kind) (s : State) : (s.raiseBusNack k).ra = s.ra := rfl
@[simp] theorem raiseBusNack_rb (k : Kind) (s : State) : (s.raiseBusNack k).rb = s.rb := rfl
@[simp] theorem raiseBusNack_rc (k : Kind) (s : State) : (s.raiseBusNack k).rc = s.rc := rfl
@[simp] theorem raiseBusNack_ms (k : Kind) (s : State) : (s.raiseBusNack k).ms = s.ms := rfl
@[simp] theorem raiseBusNack_me (k : Kind) (s : State) : (s.raiseBusNack k).me = s.me := rfl
@[simp] theorem raiseBusNack_pg (k : Kind) (s : State) : (s.raiseBusNack k).pg = s.pg := rfl
@[simp] theorem raiseBusNack_cnt (k : Kind) (s : State) : (s.raiseBusNack k).cnt = s.cnt := rfl
@[simp] theorem raiseBusNack_op (k : Kind) (s : State) : (s.raiseBusNack k).op = s.op := rfl
@[simp] theorem raiseBusNack_phase (k : Kind) (s : State) : (s.raiseBusNack k).phase = s.phase := rfl
@[simp] theorem raiseBusNack_seq (k : Kind) (s : State) : (s.raiseBusNack k).seq = s.seq := rfl
@[simp] theorem raiseBusNack_sess (k : Kind) (s : State) : (s.raiseBusNack k).sess = s.sess := rfl
@[simp] theorem raiseBusNack_ie (k : Kind) (s : State) : (s.raiseBusNack k).ie = s.ie := rfl
@[simp] theorem raiseBusNack_errf (k : Kind) (s : State) : (s.raiseBusNack k).errf = true := rfl
@[simp] theorem raiseBusNack_dev (k : Kind) (s : State) : (s.raiseBusNack k).dev = s.dev := rfl
@[simp] theorem raiseBusNack_pending (k : Kind) (s : State) : (s.raiseBusNack k).pending = s.pending := rfl
@[simp] theorem raiseBusNack_events (k : Kind) (s : State) : (s.raiseBusNack k).events = .err k :: s.events := rfl
@[simp] theorem raiseBusNack_params (k : Kind) (s : State) : (s.raiseBusNack k).params = s.params := rfl
@[simp] theorem raiseBusNack_host (k : Kind) (s : State) : (s.raiseBusNack k).host = s.host := rfl
@[simp] theorem raiseBusNack_answers (k : Kind) (s : State) : (s.raiseBusNack k).answers = s.answers := rfl

/-! ### `request` -/

@[simp] theorem request_ra (k : Kind) (d : Byte) (s : State) : (s.request k d).ra = s.ra := rfl
@[simp] theorem request_rb (k : Kind) (d : Byte) (s : State) : (s.request k d).rb = s.rb := rfl
@[simp] theorem request_rc (k : Kind) (d : Byte) (s : State) : (s.request k d).rc = s.rc := rfl
@[simp] theorem request_ms (k : Kind) (d : Byte) (s : State) : (s.request k d).ms = s.ms := rfl
@[simp] theorem request_me (k : Kind) (d : Byte) (s : State) : (s.request k d).me = s.me := rfl
@[simp] theorem request_pg (k : Kind) (d : Byte) (s : State) : (s.request k d).pg = s.pg := rfl
@[simp] theorem request_cnt (k : Kind) (d : Byte) (s : State) : (s.request k d).cnt = s.cnt := rfl
@[simp] theorem request_op (k : Kind) (d : Byte) (s : State) : (s.request k d).op = s.op := rfl
@[simp] theorem request_phase (k : Kind) (d : Byte) (s : State) : (s.request k d).phase = s.phase := rfl
@[simp] theorem request_seq (k : Kind) (d : Byte) (s : State) : (s.request k d).seq = s.seq := rfl
@[simp] theorem request_sess (k : Kind) (d : Byte) (s : State) : (s.request k d).sess = s.sess := rfl
@[simp] theorem request_ie (k : Kind) (d : Byte) (s : State) : (s.request k d).ie = s.ie := rfl
@[simp] theorem request_errf (k : Kind) (d : Byte) (s : State) : (s.request k d).errf = s.errf := rfl
@[simp] theorem request_dev (k : Kind) (d : Byte) (s : State) : (s.request k d).dev = s.dev := rfl
@[simp] theorem request_pending (k : Kind) (d : Byte) (s : State) : (s.request k d).pending = some ⟨k, d⟩ := rfl
@[simp] theorem request_events (k : Kind) (d : Byte) (s : State) : (s.request k d).events = .req ⟨k, d⟩ :: s.events := rfl
@[simp] theorem request_params (k : Kind) (d : Byte) (s : State) : (s.request k d).params = s.params := rfl
@[simp] theorem request_host (k : Kind) (d : Byte) (s : State) : (s.request k d).host = s.host := rfl
@[simp] theorem request_answers (k : Kind) (d : Byte) (s : State) : (s.request k d).answers = s.answers.rest := rfl

/-! ### `strand` -/

@[simp] theorem strand_ra (k : Kind) (d : Byte) (s : State) : (s.strand k d).ra = s.ra := rfl
@[simp] theorem strand_rb (k : Kind) (d : Byte) (s : State) : (s.strand k d).rb = s.rb := rfl
@[simp] theorem strand_rc (k : Kind) (d : Byte) (s : State) : (s.strand k d).rc = s.rc := rfl
@[simp] theorem strand_ms (k : Kind) (d : Byte) (s : State) : (s.strand k d).ms = s.ms := rfl
@[simp] theorem strand_me (k : Kind) (d : Byte) (s : State) : (s.strand k d).me = s.me := rfl
@[simp] theorem strand_pg (k : Kind) (d : Byte) (s : State) : (s.strand k d).pg = s.pg := rfl
@[simp] theorem strand_cnt (k : Kind) (d : Byte) (s : State) : (s.strand k d).cnt = s.cnt := rfl
@[simp] theorem strand_op (k : Kind) (d : Byte) (s : State) : (s.strand k d).op = s.op := rfl
@[simp] theorem strand_phase (k : Kind) (d : Byte) (s : State) : (s.strand k d).phase = s.phase := rfl
@[simp] theorem strand_seq (k : Kind) (d : Byte) (s : State) : (s.strand k d).seq = s.seq := rfl
@[simp] theorem strand_sess (k : Kind) (d : Byte) (s : State) : (s.strand k d).sess = s.sess := rfl
@[simp] theorem strand_ie (k : Kind) (d : Byte) (s : State) : (s.strand k d).ie = s.ie := rfl
@[simp] theorem strand_errf (k : Kind) (d : Byte) (s : State) : (s.strand k d).errf = s.errf := rfl
@[simp] theorem strand_dev (k : Kind) (d : Byte) (s : State) : (s.strand k d).dev = s.dev.havoc := rfl
@[simp] theorem strand_pending (k : Kind) (d : Byte) (s : State) : (s.strand k d).pending = some ⟨k, d⟩ := rfl
@[simp] theorem strand_events (k : Kind) (d : Byte) (s : State) : (s.strand k d).events = .req ⟨k, d⟩ :: s.events := rfl
@[simp] theorem strand_params (k : Kind) (d : Byte) (s : State) : (s.strand k d).params = s.params := rfl
@[simp] theorem strand_host (k : Kind) (d : Byte) (s : State) : (s.strand k d).host = s.host := rfl
@[simp] theorem strand_answers (k : Kind) (d : Byte) (s : State) : (s.strand k d).answers = s.answers.rest := rfl

/-! ### `finish` -/

@[simp] theorem finish_ra (s : State) : s.finish.ra = s.ra := rfl
@[simp] theorem finish_rb (s : State) : s.finish.rb = s.rb := rfl
@[simp] theorem finish_rc (s : State) : s.finish.rc = s.rc := rfl
@[simp] theorem finish_ms (s : State) : s.finish.ms = s.ms := rfl
@[simp] theorem finish_me (s : State) : s.finish.me = s.me := rfl
@[simp] theorem finish_pg (s : State) : s.finish.pg = s.pg := rfl
@[simp] theorem finish_cnt (s : State) : s.finish.cnt = s.cnt := rfl
@[simp] theorem finish_op (s : State) : s.finish.op = s.op := rfl
@[simp] theorem finish_phase (s : State) : s.finish.phase = s.phase := rfl
@[simp] theorem finish_seq (s : State) : s.finish.seq = s.seq := rfl
@[simp] theorem finish_sess (s : State) : s.finish.sess = s.sess := rfl
@[simp] theorem finish_ie (s : State) : s.finish.ie = s.ie := rfl
@[simp] theorem finish_errf (s : State) : s.finish.errf = s.errf := rfl
@[simp] theorem finish_dev (s : State) : s.finish.dev = s.dev.readSession s.params (sessionOf s.events) := rfl
@[simp] theorem finish_pending (s : State) : s.finish.pending = none := rfl
@[simp] theorem finish_events (s : State) : s.finish.events = .done :: s.events := rfl
@[simp] theorem finish_params (s : State) : s.finish.params = s.params := rfl
@[simp] theorem finish_host (s : State) : s.finish.host = s.host := rfl
@[simp] theorem finish_answers (s : State) : s.finish.answers = s.answers := rfl

/-! ### `accept` -/

@[simp] theorem accept_ra (w : Word) (s : State) : (s.accept w).ra = fieldA w := rfl
@[simp] theorem accept_rb (w : Word) (s : State) : (s.accept w).rb = fieldB w := rfl
@[simp] theorem accept_rc (w : Word) (s : State) : (s.accept w).rc = fieldC w := rfl
@[simp] theorem accept_ms (w : Word) (s : State) : (s.accept w).ms = s.ms := rfl
@[simp] theorem accept_me (w : Word) (s : State) : (s.accept w).me = s.me := rfl
@[simp] theorem accept_pg (w : Word) (s : State) : (s.accept w).pg = s.pg := rfl
@[simp] theorem accept_cnt (w : Word) (s : State) : (s.accept w).cnt = s.cnt := rfl
@[simp] theorem accept_op (w : Word) (s : State) : (s.accept w).op = fieldOp w := rfl
@[simp] theorem accept_phase (w : Word) (s : State) : (s.accept w).phase = .run := rfl
@[simp] theorem accept_seq (w : Word) (s : State) : (s.accept w).seq = 0 := rfl
@[simp] theorem accept_sess (w : Word) (s : State) : (s.accept w).sess = s.sess := rfl
@[simp] theorem accept_ie (w : Word) (s : State) : (s.accept w).ie = s.ie := rfl
@[simp] theorem accept_errf (w : Word) (s : State) : (s.accept w).errf = s.errf := rfl
@[simp] theorem accept_dev (w : Word) (s : State) : (s.accept w).dev = s.dev := rfl
@[simp] theorem accept_pending (w : Word) (s : State) : (s.accept w).pending = s.pending := rfl
@[simp] theorem accept_events (w : Word) (s : State) : (s.accept w).events = s.events := rfl
@[simp] theorem accept_params (w : Word) (s : State) : (s.accept w).params = s.params := rfl
@[simp] theorem accept_host (w : Word) (s : State) : (s.accept w).host = s.host := rfl
@[simp] theorem accept_answers (w : Word) (s : State) : (s.accept w).answers = s.answers := rfl

/-! ### `assertReset` -/

@[simp] theorem assertReset_ra (s : State) : s.assertReset.ra = 0#8 := rfl
@[simp] theorem assertReset_rb (s : State) : s.assertReset.rb = 0#8 := rfl
@[simp] theorem assertReset_rc (s : State) : s.assertReset.rc = 0#8 := rfl
@[simp] theorem assertReset_ms (s : State) : s.assertReset.ms = 0#8 := rfl
@[simp] theorem assertReset_me (s : State) : s.assertReset.me = 0#8 := rfl
@[simp] theorem assertReset_pg (s : State) : s.assertReset.pg = 0#4 := rfl
@[simp] theorem assertReset_cnt (s : State) : s.assertReset.cnt = 0#11 := rfl
@[simp] theorem assertReset_op (s : State) : s.assertReset.op = 0#8 := rfl
@[simp] theorem assertReset_phase (s : State) : s.assertReset.phase = .idle := rfl
@[simp] theorem assertReset_seq (s : State) : s.assertReset.seq = 0 := rfl
@[simp] theorem assertReset_sess (s : State) : s.assertReset.sess = .closed := rfl
@[simp] theorem assertReset_ie (s : State) : s.assertReset.ie = true := rfl
@[simp] theorem assertReset_errf (s : State) : s.assertReset.errf = false := rfl
@[simp] theorem assertReset_dev (s : State) : s.assertReset.dev = if s.sess = .opened then s.dev.havoc else s.dev := rfl
@[simp] theorem assertReset_pending (s : State) : s.assertReset.pending = none := rfl
@[simp] theorem assertReset_events (s : State) : s.assertReset.events = [] := rfl
@[simp] theorem assertReset_params (s : State) : s.assertReset.params = s.params := rfl
@[simp] theorem assertReset_host (s : State) : s.assertReset.host = s.host := rfl
@[simp] theorem assertReset_answers (s : State) : s.assertReset.answers = s.answers := rfl

/-! ### `respond` and `complete` -/

/-- A checked step answered `OK` (R110). -/
theorem respond_ok (k : Kind) (s : State) :
    s.respond k .ok = { s with pending := none, events := .rsp .ok :: s.events } := rfl

/-- A checked step answered `FAIL` raises `BusNack` and changes nothing else (R110, R202). -/
theorem respond_fail (k : Kind) (s : State) :
    s.respond k .fail = { s with pending := none, errf := true, events := .err k :: .rsp .fail :: s.events } := rfl

@[simp] theorem respond_ra (k : Kind) (st : Status) (s : State) : (s.respond k st).ra = s.ra := by
  cases st <;> rfl
@[simp] theorem respond_rb (k : Kind) (st : Status) (s : State) : (s.respond k st).rb = s.rb := by
  cases st <;> rfl
@[simp] theorem respond_rc (k : Kind) (st : Status) (s : State) : (s.respond k st).rc = s.rc := by
  cases st <;> rfl
@[simp] theorem respond_ms (k : Kind) (st : Status) (s : State) : (s.respond k st).ms = s.ms := by
  cases st <;> rfl
@[simp] theorem respond_me (k : Kind) (st : Status) (s : State) : (s.respond k st).me = s.me := by
  cases st <;> rfl
@[simp] theorem respond_pg (k : Kind) (st : Status) (s : State) : (s.respond k st).pg = s.pg := by
  cases st <;> rfl
@[simp] theorem respond_cnt (k : Kind) (st : Status) (s : State) : (s.respond k st).cnt = s.cnt := by
  cases st <;> rfl
@[simp] theorem respond_op (k : Kind) (st : Status) (s : State) : (s.respond k st).op = s.op := by
  cases st <;> rfl
@[simp] theorem respond_phase (k : Kind) (st : Status) (s : State) : (s.respond k st).phase = s.phase := by
  cases st <;> rfl
@[simp] theorem respond_seq (k : Kind) (st : Status) (s : State) : (s.respond k st).seq = s.seq := by
  cases st <;> rfl
@[simp] theorem respond_sess (k : Kind) (st : Status) (s : State) : (s.respond k st).sess = s.sess := by
  cases st <;> rfl
@[simp] theorem respond_ie (k : Kind) (st : Status) (s : State) : (s.respond k st).ie = s.ie := by
  cases st <;> rfl
@[simp] theorem respond_dev (k : Kind) (st : Status) (s : State) : (s.respond k st).dev = s.dev := by
  cases st <;> rfl
@[simp] theorem respond_pending (k : Kind) (st : Status) (s : State) : (s.respond k st).pending = none := by
  cases st <;> rfl
@[simp] theorem respond_params (k : Kind) (st : Status) (s : State) : (s.respond k st).params = s.params := by
  cases st <;> rfl
@[simp] theorem respond_host (k : Kind) (st : Status) (s : State) : (s.respond k st).host = s.host := by
  cases st <;> rfl
@[simp] theorem respond_answers (k : Kind) (st : Status) (s : State) : (s.respond k st).answers = s.answers := by
  cases st <;> rfl

@[simp] theorem complete_ra (k : Kind) (st : Status) (s : State) : (s.complete k st).ra = s.ra := by
  cases k <;> simp [State.complete]
@[simp] theorem complete_rb (k : Kind) (st : Status) (s : State) : (s.complete k st).rb = s.rb := by
  cases k <;> simp [State.complete]
@[simp] theorem complete_rc (k : Kind) (st : Status) (s : State) : (s.complete k st).rc = s.rc := by
  cases k <;> simp [State.complete]
@[simp] theorem complete_ms (k : Kind) (st : Status) (s : State) : (s.complete k st).ms = s.ms := by
  cases k <;> simp [State.complete]
@[simp] theorem complete_me (k : Kind) (st : Status) (s : State) : (s.complete k st).me = s.me := by
  cases k <;> simp [State.complete]
@[simp] theorem complete_pg (k : Kind) (st : Status) (s : State) : (s.complete k st).pg = s.pg := by
  cases k <;> simp [State.complete]
@[simp] theorem complete_cnt (k : Kind) (st : Status) (s : State) : (s.complete k st).cnt = s.cnt := by
  cases k <;> simp [State.complete]
@[simp] theorem complete_op (k : Kind) (st : Status) (s : State) : (s.complete k st).op = s.op := by
  cases k <;> simp [State.complete]
@[simp] theorem complete_phase (k : Kind) (st : Status) (s : State) : (s.complete k st).phase = s.phase := by
  cases k <;> simp [State.complete]
@[simp] theorem complete_seq (k : Kind) (st : Status) (s : State) : (s.complete k st).seq = s.seq := by
  cases k <;> simp [State.complete]
@[simp] theorem complete_sess (k : Kind) (st : Status) (s : State) : (s.complete k st).sess = s.sess := by
  cases k <;> simp [State.complete]
@[simp] theorem complete_ie (k : Kind) (st : Status) (s : State) : (s.complete k st).ie = s.ie := by
  cases k <;> simp [State.complete]
@[simp] theorem complete_pending (k : Kind) (st : Status) (s : State) : (s.complete k st).pending = none := by
  cases k <;> simp [State.complete]
@[simp] theorem complete_params (k : Kind) (st : Status) (s : State) : (s.complete k st).params = s.params := by
  cases k <;> simp [State.complete]
@[simp] theorem complete_host (k : Kind) (st : Status) (s : State) : (s.complete k st).host = s.host := by
  cases k <;> simp [State.complete]
@[simp] theorem complete_answers (k : Kind) (st : Status) (s : State) : (s.complete k st).answers = s.answers := by
  cases k <;> simp [State.complete]

/-- Completing a step leaves the device alone unless the step is a stop (R58). -/
theorem complete_dev (k : Kind) (st : Status) (s : State) :
    (s.complete k st).dev = if k = .stop then s.dev.readSession s.params (sessionOf s.events) else s.dev := by
  cases k <;> simp [State.complete]

/-! ### Register writes -/

@[simp] theorem regWrite_ra (s : State) (r : RegWrite) : (s.regWrite r).ra = s.ra := by
  cases r <;> rfl
@[simp] theorem regWrite_rb (s : State) (r : RegWrite) : (s.regWrite r).rb = s.rb := by
  cases r <;> rfl
@[simp] theorem regWrite_rc (s : State) (r : RegWrite) : (s.regWrite r).rc = s.rc := by
  cases r <;> rfl
@[simp] theorem regWrite_op (s : State) (r : RegWrite) : (s.regWrite r).op = s.op := by
  cases r <;> rfl
@[simp] theorem regWrite_phase (s : State) (r : RegWrite) : (s.regWrite r).phase = s.phase := by
  cases r <;> rfl
@[simp] theorem regWrite_seq (s : State) (r : RegWrite) : (s.regWrite r).seq = s.seq := by
  cases r <;> rfl
@[simp] theorem regWrite_sess (s : State) (r : RegWrite) : (s.regWrite r).sess = s.sess := by
  cases r <;> rfl
@[simp] theorem regWrite_ie (s : State) (r : RegWrite) : (s.regWrite r).ie = s.ie := by
  cases r <;> rfl
@[simp] theorem regWrite_errf (s : State) (r : RegWrite) : (s.regWrite r).errf = s.errf := by
  cases r <;> rfl
@[simp] theorem regWrite_dev (s : State) (r : RegWrite) : (s.regWrite r).dev = s.dev := by
  cases r <;> rfl
@[simp] theorem regWrite_pending (s : State) (r : RegWrite) : (s.regWrite r).pending = s.pending := by
  cases r <;> rfl
@[simp] theorem regWrite_events (s : State) (r : RegWrite) : (s.regWrite r).events = s.events := by
  cases r <;> rfl
@[simp] theorem regWrite_params (s : State) (r : RegWrite) : (s.regWrite r).params = s.params := by
  cases r <;> rfl
@[simp] theorem regWrite_host (s : State) (r : RegWrite) : (s.regWrite r).host = s.host := by
  cases r <;> rfl
@[simp] theorem regWrite_answers (s : State) (r : RegWrite) : (s.regWrite r).answers = s.answers := by
  cases r <;> rfl

@[simp] theorem foldl_regWrite_ra (rs : List RegWrite) (s : State) : (rs.foldl State.regWrite s).ra = s.ra := by
  induction rs generalizing s with
  | nil => rfl
  | cons r rs ih => simp [ih]
@[simp] theorem foldl_regWrite_rb (rs : List RegWrite) (s : State) : (rs.foldl State.regWrite s).rb = s.rb := by
  induction rs generalizing s with
  | nil => rfl
  | cons r rs ih => simp [ih]
@[simp] theorem foldl_regWrite_rc (rs : List RegWrite) (s : State) : (rs.foldl State.regWrite s).rc = s.rc := by
  induction rs generalizing s with
  | nil => rfl
  | cons r rs ih => simp [ih]
@[simp] theorem foldl_regWrite_op (rs : List RegWrite) (s : State) : (rs.foldl State.regWrite s).op = s.op := by
  induction rs generalizing s with
  | nil => rfl
  | cons r rs ih => simp [ih]
@[simp] theorem foldl_regWrite_phase (rs : List RegWrite) (s : State) : (rs.foldl State.regWrite s).phase = s.phase := by
  induction rs generalizing s with
  | nil => rfl
  | cons r rs ih => simp [ih]
@[simp] theorem foldl_regWrite_seq (rs : List RegWrite) (s : State) : (rs.foldl State.regWrite s).seq = s.seq := by
  induction rs generalizing s with
  | nil => rfl
  | cons r rs ih => simp [ih]
@[simp] theorem foldl_regWrite_sess (rs : List RegWrite) (s : State) : (rs.foldl State.regWrite s).sess = s.sess := by
  induction rs generalizing s with
  | nil => rfl
  | cons r rs ih => simp [ih]
@[simp] theorem foldl_regWrite_ie (rs : List RegWrite) (s : State) : (rs.foldl State.regWrite s).ie = s.ie := by
  induction rs generalizing s with
  | nil => rfl
  | cons r rs ih => simp [ih]
@[simp] theorem foldl_regWrite_errf (rs : List RegWrite) (s : State) : (rs.foldl State.regWrite s).errf = s.errf := by
  induction rs generalizing s with
  | nil => rfl
  | cons r rs ih => simp [ih]
@[simp] theorem foldl_regWrite_dev (rs : List RegWrite) (s : State) : (rs.foldl State.regWrite s).dev = s.dev := by
  induction rs generalizing s with
  | nil => rfl
  | cons r rs ih => simp [ih]
@[simp] theorem foldl_regWrite_pending (rs : List RegWrite) (s : State) : (rs.foldl State.regWrite s).pending = s.pending := by
  induction rs generalizing s with
  | nil => rfl
  | cons r rs ih => simp [ih]
@[simp] theorem foldl_regWrite_events (rs : List RegWrite) (s : State) : (rs.foldl State.regWrite s).events = s.events := by
  induction rs generalizing s with
  | nil => rfl
  | cons r rs ih => simp [ih]
@[simp] theorem foldl_regWrite_params (rs : List RegWrite) (s : State) : (rs.foldl State.regWrite s).params = s.params := by
  induction rs generalizing s with
  | nil => rfl
  | cons r rs ih => simp [ih]
@[simp] theorem foldl_regWrite_host (rs : List RegWrite) (s : State) : (rs.foldl State.regWrite s).host = s.host := by
  induction rs generalizing s with
  | nil => rfl
  | cons r rs ih => simp [ih]
@[simp] theorem foldl_regWrite_answers (rs : List RegWrite) (s : State) : (rs.foldl State.regWrite s).answers = s.answers := by
  induction rs generalizing s with
  | nil => rfl
  | cons r rs ih => simp [ih]

@[simp] theorem advance_ra (rs : List RegWrite) (s : State) : (s.advance rs).ra = s.ra := by
  simp [State.advance]
@[simp] theorem advance_rb (rs : List RegWrite) (s : State) : (s.advance rs).rb = s.rb := by
  simp [State.advance]
@[simp] theorem advance_rc (rs : List RegWrite) (s : State) : (s.advance rs).rc = s.rc := by
  simp [State.advance]
@[simp] theorem advance_ms (rs : List RegWrite) (s : State) : (s.advance rs).ms = (rs.foldl State.regWrite s).ms := by
  simp [State.advance]
@[simp] theorem advance_me (rs : List RegWrite) (s : State) : (s.advance rs).me = (rs.foldl State.regWrite s).me := by
  simp [State.advance]
@[simp] theorem advance_pg (rs : List RegWrite) (s : State) : (s.advance rs).pg = (rs.foldl State.regWrite s).pg := by
  simp [State.advance]
@[simp] theorem advance_cnt (rs : List RegWrite) (s : State) : (s.advance rs).cnt = (rs.foldl State.regWrite s).cnt := by
  simp [State.advance]
@[simp] theorem advance_op (rs : List RegWrite) (s : State) : (s.advance rs).op = s.op := by
  simp [State.advance]
@[simp] theorem advance_phase (rs : List RegWrite) (s : State) : (s.advance rs).phase = s.phase := by
  simp [State.advance]
@[simp] theorem advance_seq (rs : List RegWrite) (s : State) : (s.advance rs).seq = s.seq + 1 := by
  simp [State.advance]
@[simp] theorem advance_sess (rs : List RegWrite) (s : State) : (s.advance rs).sess = s.sess := by
  simp [State.advance]
@[simp] theorem advance_ie (rs : List RegWrite) (s : State) : (s.advance rs).ie = s.ie := by
  simp [State.advance]
@[simp] theorem advance_errf (rs : List RegWrite) (s : State) : (s.advance rs).errf = s.errf := by
  simp [State.advance]
@[simp] theorem advance_dev (rs : List RegWrite) (s : State) : (s.advance rs).dev = s.dev := by
  simp [State.advance]
@[simp] theorem advance_pending (rs : List RegWrite) (s : State) : (s.advance rs).pending = s.pending := by
  simp [State.advance]
@[simp] theorem advance_events (rs : List RegWrite) (s : State) : (s.advance rs).events = s.events := by
  simp [State.advance]
@[simp] theorem advance_params (rs : List RegWrite) (s : State) : (s.advance rs).params = s.params := by
  simp [State.advance]
@[simp] theorem advance_host (rs : List RegWrite) (s : State) : (s.advance rs).host = s.host := by
  simp [State.advance]
@[simp] theorem advance_answers (rs : List RegWrite) (s : State) : (s.advance rs).answers = s.answers := by
  simp [State.advance]

end Sys2Proof.Machine
end

