-- ==== Sys2Proof/Laws/Run.lean ====
section
/-! SUPPORT. What a list of micro-steps does, said once: it completes exactly when no bus step of it goes unanswered, and
then its final state is a fold (`runDone`) whose fields are each known; else it stalls inside a bus step. The lists of
the 13 operations have the shape R118's `Emit` gives them (`microsOf_acts`). -/

namespace Sys2Proof.Machine

/-! ## Answers -/

@[simp] theorem peek_zero (a : Answers) : a.peek 0 = a.next := rfl
@[simp] theorem peek_succ (a : Answers) (k : Nat) : a.peek (k + 1) = a.rest.peek k := rfl
@[simp] theorem after_zero (a : Answers) : a.after 0 = a := rfl
@[simp] theorem after_succ (a : Answers) (n : Nat) : a.after (n + 1) = a.rest.after n := rfl

theorem after_add (a : Answers) (m n : Nat) : a.after (m + n) = (a.after m).after n := by
  induction m generalizing a with
  | zero => simp
  | succ m ih => rw [Nat.succ_add, after_succ, ih, after_succ]

theorem peek_after (a : Answers) (n k : Nat) : (a.after n).peek k = a.peek (n + k) := by
  induction n generalizing a with
  | zero => simp
  | succ n ih => rw [after_succ, ih, Nat.succ_add, peek_succ]

/-- A queue of `OK` answers answers `OK` for its whole length. -/
theorem peek_replicate_ok (n d k : Nat) (h : k < n) : (Answers.mk (List.replicate n .ok) d).peek k = .ok := by
  induction n generalizing k with
  | zero => omega
  | succ n ih =>
    cases k with
    | zero => rfl
    | succ k => exact ih k (by omega)

/-! ## One micro-step -/

/-- The status an answer gives a step that completes. -/
def Answer.status : Answer → Status
  | .fail => .fail
  | _ => .ok

/-- The state after a micro-step that completes. -/
def State.microDone (m : Micro) (s : State) : State :=
  State.advance m.regs <|
    match m.act with
    | .irqOff => s.irqOff
    | .irqOn => s.irqOn
    | .step k d => (s.request k d).complete k (Answer.status s.answers.next)

/-- Everything one micro-step can do: complete, or stall on a bus step that is never answered. -/
theorem micro_cases (m : Micro) (s : State) :
    (s.micro m = .completed (s.microDone m) ∧ ∀ k d, m.act = .step k d → s.answers.next ≠ .never)
      ∨ ∃ k d, m.act = .step k d ∧ s.answers.next = .never ∧ s.micro m = .stalled (s.strand k d) := by
  obtain ⟨a, r⟩ := m
  cases a with
  | irqOff => exact .inl ⟨rfl, by simp⟩
  | irqOn => exact .inl ⟨rfl, by simp⟩
  | step k d =>
    cases h : s.answers.next with
    | ok => exact .inl ⟨by simp [State.micro, State.act, State.busStep, State.microDone, Answer.status, h], by simp⟩
    | fail => exact .inl ⟨by simp [State.micro, State.act, State.busStep, State.microDone, Answer.status, h], by simp⟩
    | never => exact .inr ⟨k, d, rfl, rfl, by simp [State.micro, State.act, State.busStep, h]⟩

/-- The number of bus steps among the actions of a list. -/
def busCount : List Act → Nat
  | [] => 0
  | .step _ _ :: as => busCount as + 1
  | .irqOff :: as | .irqOn :: as => busCount as

theorem busCount_append (as bs : List Act) : busCount (as ++ bs) = busCount as + busCount bs := by
  induction as with
  | nil => simp [busCount]
  | cons a as ih => cases a <;> (simp [busCount, ih]; try omega)

/-! ## A list of micro-steps -/

/-- The state after a list of micro-steps that all complete. -/
def runDone (ms : List Micro) (s : State) : State := ms.foldl (fun t m => t.microDone m) s

@[simp] theorem runDone_nil (s : State) : runDone [] s = s := rfl
@[simp] theorem runDone_cons (m : Micro) (ms : List Micro) (s : State) :
    runDone (m :: ms) s = runDone ms (s.microDone m) := rfl
theorem runDone_append (as bs : List Micro) (s : State) : runDone (as ++ bs) s = runDone bs (runDone as s) :=
  List.foldl_append

@[simp] theorem microDone_answers (m : Micro) (s : State) :
    (s.microDone m).answers = s.answers.after (busCount [m.act]) := by
  obtain ⟨a, r⟩ := m
  cases a <;> simp [State.microDone, busCount]

/-- A list whose bus steps are all answered completes. -/
theorem runList_completes (ms : List Micro) (s : State)
    (h : ∀ k, k < busCount (ms.map (·.act)) → s.answers.peek k ≠ .never) :
    runList ms s = .completed (runDone ms s) := by
  induction ms generalizing s with
  | nil => rfl
  | cons m ms ih =>
    rcases micro_cases m s with ⟨hm, -⟩ | ⟨k, d, ha, hn, -⟩
    · rw [runList, hm, runDone_cons]
      refine ih _ fun k hk => ?_
      rw [microDone_answers, peek_after]
      refine h _ ?_
      have : busCount ((m :: ms).map (·.act)) = busCount [m.act] + busCount (ms.map (·.act)) := by
        rw [← busCount_append]; rfl
      omega
    · exact absurd hn (h 0 (by simp [ha, busCount]))

/-- A list completes into the fold of its micro-steps, or stalls inside one of its bus steps, all before it done. -/
theorem runList_cases (ms : List Micro) (s : State) :
    (runList ms s = .completed (runDone ms s)
        ∧ ∀ k, k < busCount (ms.map (·.act)) → s.answers.peek k ≠ .never)
      ∨ ∃ pre m post k d, ms = pre ++ m :: post ∧ m.act = .step k d
          ∧ (∀ j, j < busCount (pre.map (·.act)) → s.answers.peek j ≠ .never)
          ∧ s.answers.peek (busCount (pre.map (·.act))) = .never
          ∧ runList ms s = .stalled ((runDone pre s).strand k d) := by
  induction ms generalizing s with
  | nil => exact .inl ⟨rfl, by simp [busCount]⟩
  | cons m ms ih =>
    rcases micro_cases m s with ⟨hm, hn⟩ | ⟨k, d, ha, hn, hm⟩
    · have hfirst : ∀ j, j < busCount [m.act] → s.answers.peek j ≠ .never := by
        intro j hj
        cases ha : m.act with
        | irqOff => simp [ha, busCount] at hj
        | irqOn => simp [ha, busCount] at hj
        | step k d =>
          have hj0 : j = 0 := by simp [ha, busCount] at hj; omega
          subst hj0
          exact hn k d ha
      have hsplit : ∀ l : List Micro, busCount ((m :: l).map (·.act)) = busCount [m.act] + busCount (l.map (·.act)) := by
        intro l; rw [← busCount_append]; rfl
      have hlift : ∀ (l : List Micro), (∀ j, j < busCount (l.map (·.act)) → (s.microDone m).answers.peek j ≠ .never) →
          ∀ j, j < busCount ((m :: l).map (·.act)) → s.answers.peek j ≠ .never := by
        intro l hl j hj
        by_cases hj1 : j < busCount [m.act]
        · exact hfirst j hj1
        · have := hl (j - busCount [m.act]) (by rw [hsplit] at hj; omega)
          rw [microDone_answers, peek_after] at this
          rwa [Nat.add_sub_cancel' (by omega)] at this
      rcases ih (s.microDone m) with ⟨hr, hk⟩ | ⟨pre, m', post, k, d, hms, ha, hpre, hnv, hr⟩
      · exact .inl ⟨by rw [runList, hm, runDone_cons]; exact hr, hlift ms hk⟩
      · refine .inr ⟨m :: pre, m', post, k, d, by rw [hms]; rfl, ha, hlift pre hpre, ?_, ?_⟩
        · rw [hsplit, ← peek_after, ← microDone_answers]; exact hnv
        · rw [runList, hm, runDone_cons]; exact hr
    · exact .inr ⟨[], m, ms, k, d, rfl, ha, by simp [busCount], by simpa [busCount] using hn, by rw [runList, hm]; rfl⟩

/-- What `runMicros` answers when every bus step is answered. -/
theorem runMicros_completes (ms : List Micro) (s : State)
    (h : ∀ k, k < busCount (ms.map (·.act)) → s.answers.peek k ≠ .never) :
    runMicros ms s = { runDone ms s with phase := .idle } := by
  rw [runMicros, runList_completes ms s h]

/-- Everything `runMicros` can do. -/
theorem runMicros_cases (ms : List Micro) (s : State) :
    (runMicros ms s = { runDone ms s with phase := .idle }
        ∧ ∀ k, k < busCount (ms.map (·.act)) → s.answers.peek k ≠ .never)
      ∨ ∃ pre m post k d, ms = pre ++ m :: post ∧ m.act = .step k d
          ∧ (∀ j, j < busCount (pre.map (·.act)) → s.answers.peek j ≠ .never)
          ∧ s.answers.peek (busCount (pre.map (·.act))) = .never
          ∧ runMicros ms s = (runDone pre s).strand k d := by
  rcases runList_cases ms s with ⟨hr, hk⟩ | ⟨pre, m, post, k, d, hms, ha, hp, hn, hr⟩
  · exact .inl ⟨by rw [runMicros, hr], hk⟩
  · exact .inr ⟨pre, m, post, k, d, hms, ha, hp, hn, by rw [runMicros, hr]⟩

/-- Any property that every micro-step of the list keeps, whether it completes or stalls, and that does not look at
`PHASE`, holds of the state `runMicros` answers. -/
theorem runMicros_induct (P : State → Prop) (ms : List Micro) (s : State) (h0 : P s)
    (hdone : ∀ m ∈ ms, ∀ t, P t → P (t.microDone m))
    (hstall : ∀ m ∈ ms, ∀ k d, m.act = .step k d → ∀ t, P t → P (t.strand k d))
    (hphase : ∀ t, P t → P { t with phase := .idle }) : P (runMicros ms s) := by
  have hfold : ∀ l : List Micro, (∀ m ∈ l, m ∈ ms) → ∀ t, P t → P (runDone l t) := by
    intro l
    induction l with
    | nil => intro _ t ht; exact ht
    | cons m l ih =>
      intro hl t ht
      exact ih (fun x hx => hl x (List.mem_cons_of_mem _ hx)) _ (hdone m (hl m List.mem_cons_self) t ht)
  rcases runMicros_cases ms s with ⟨hr, -⟩ | ⟨pre, m, post, k, d, hms, ha, -, -, hr⟩
  · rw [hr]; exact hphase _ (hfold ms (fun _ h => h) s h0)
  · rw [hr]
    have hsub : ∀ x ∈ pre, x ∈ ms := fun x hx => by rw [hms]; simp [hx]
    exact hstall m (by rw [hms]; simp) k d ha _ (hfold pre hsub s h0)

/-! ## The fields of a fold -/

theorem microDone_params (m : Micro) (s : State) : (s.microDone m).params = s.params := by
  obtain ⟨a, r⟩ := m; cases a <;> simp [State.microDone]
theorem microDone_host (m : Micro) (s : State) : (s.microDone m).host = s.host := by
  obtain ⟨a, r⟩ := m; cases a <;> simp [State.microDone]
theorem microDone_op (m : Micro) (s : State) : (s.microDone m).op = s.op := by
  obtain ⟨a, r⟩ := m; cases a <;> simp [State.microDone]
theorem microDone_ra (m : Micro) (s : State) : (s.microDone m).ra = s.ra := by
  obtain ⟨a, r⟩ := m; cases a <;> simp [State.microDone]
theorem microDone_rb (m : Micro) (s : State) : (s.microDone m).rb = s.rb := by
  obtain ⟨a, r⟩ := m; cases a <;> simp [State.microDone]
theorem microDone_rc (m : Micro) (s : State) : (s.microDone m).rc = s.rc := by
  obtain ⟨a, r⟩ := m; cases a <;> simp [State.microDone]
theorem microDone_phase (m : Micro) (s : State) : (s.microDone m).phase = s.phase := by
  obtain ⟨a, r⟩ := m; cases a <;> simp [State.microDone]
theorem microDone_seq (m : Micro) (s : State) : (s.microDone m).seq = s.seq + 1 := by
  obtain ⟨a, r⟩ := m; cases a <;> simp [State.microDone]

/-- The fields no micro-step writes. -/
theorem runDone_fixed (ms : List Micro) (s : State) :
    (runDone ms s).params = s.params ∧ (runDone ms s).host = s.host ∧ (runDone ms s).op = s.op
      ∧ (runDone ms s).ra = s.ra ∧ (runDone ms s).rb = s.rb ∧ (runDone ms s).rc = s.rc
      ∧ (runDone ms s).phase = s.phase := by
  induction ms generalizing s with
  | nil => simp
  | cons m ms ih =>
    simpa [microDone_params, microDone_host, microDone_op, microDone_ra, microDone_rb, microDone_rc, microDone_phase]
      using ih (s.microDone m)

@[simp] theorem runDone_params (ms : List Micro) (s : State) : (runDone ms s).params = s.params :=
  (runDone_fixed ms s).1

/-- `SEQ` counts the micro-steps done (R23). -/
theorem runDone_seq (ms : List Micro) (s : State) : (runDone ms s).seq = s.seq + ms.length := by
  induction ms generalizing s with
  | nil => simp
  | cons m ms ih => rw [runDone_cons, ih, microDone_seq, List.length_cons]; omega

/-- The answers left: one is taken per bus step. -/
theorem runDone_answers (ms : List Micro) (s : State) :
    (runDone ms s).answers = s.answers.after (busCount (ms.map (·.act))) := by
  induction ms generalizing s with
  | nil => simp [busCount]
  | cons m ms ih =>
    rw [runDone_cons, ih, microDone_answers, ← after_add, ← busCount_append]; rfl

/-! ## Events, errors, flags of a fold, from its actions -/

/-- The events of a list of actions that all complete, oldest first. -/
def actEvents (ans : Nat → Answer) : List Act → List Event
  | [] => []
  | .irqOff :: as => .irqOff :: actEvents ans as
  | .irqOn :: as => .irqOn :: actEvents ans as
  | .step k d :: as => .req ⟨k, d⟩ :: completionEvents k (ans 0) ++ actEvents (fun j => ans (j + 1)) as

/-- Some checked step of the list fails. -/
def actNack (ans : Nat → Answer) : List Act → Bool
  | [] => false
  | .irqOff :: as | .irqOn :: as => actNack ans as
  | .step k _ :: as => (decide (k ≠ .stop) && decide (ans 0 = .fail)) || actNack (fun j => ans (j + 1)) as

theorem complete_events (k : Kind) (a : Answer) (h : a ≠ .never) (s : State) :
    (s.complete k (Answer.status a)).events = (completionEvents k a).reverse ++ s.events := by
  cases a <;> cases k <;> simp_all [State.complete, Answer.status, completionEvents, State.respond]

theorem complete_errf (k : Kind) (a : Answer) (h : a ≠ .never) (s : State) :
    (s.complete k (Answer.status a)).errf = (s.errf || (decide (k ≠ .stop) && decide (a = .fail))) := by
  cases a <;> cases k <;> simp_all [State.complete, Answer.status, State.respond]

theorem runDone_events (ms : List Micro) (s : State)
    (h : ∀ k, k < busCount (ms.map (·.act)) → s.answers.peek k ≠ .never) :
    (runDone ms s).events = (actEvents s.answers.peek (ms.map (·.act))).reverse ++ s.events := by
  induction ms generalizing s with
  | nil => simp [actEvents]
  | cons m ms ih =>
    obtain ⟨a, r⟩ := m
    cases a with
    | irqOff =>
      rw [runDone_cons, ih]
      · simp [State.microDone, actEvents]
      · simpa [State.microDone, busCount] using h
    | irqOn =>
      rw [runDone_cons, ih]
      · simp [State.microDone, actEvents]
      · simpa [State.microDone, busCount] using h
    | step k d =>
      have h0 : s.answers.next ≠ .never := h 0 (by simp [busCount])
      rw [runDone_cons, ih]
      · simp only [State.microDone, advance_answers, complete_answers, request_answers, advance_events, List.map_cons,
          actEvents, List.reverse_append, complete_events k _ h0, request_events, peek_zero, List.reverse_cons, peek_succ]
        simp
      · intro j hj
        simpa [State.microDone] using h (j + 1) (by simpa [busCount] using hj)

theorem runDone_errf (ms : List Micro) (s : State)
    (h : ∀ k, k < busCount (ms.map (·.act)) → s.answers.peek k ≠ .never) :
    (runDone ms s).errf = (s.errf || actNack s.answers.peek (ms.map (·.act))) := by
  induction ms generalizing s with
  | nil => simp [actNack]
  | cons m ms ih =>
    obtain ⟨a, r⟩ := m
    cases a with
    | irqOff =>
      rw [runDone_cons, ih]
      · simp [State.microDone, actNack]
      · simpa [State.microDone, busCount] using h
    | irqOn =>
      rw [runDone_cons, ih]
      · simp [State.microDone, actNack]
      · simpa [State.microDone, busCount] using h
    | step k d =>
      have h0 : s.answers.next ≠ .never := h 0 (by simp [busCount])
      rw [runDone_cons, ih]
      · simp [State.microDone, actNack, complete_errf k _ h0, Bool.or_assoc]
        rfl
      · intro j hj
        simpa [State.microDone] using h (j + 1) (by simpa [busCount] using hj)

/-! ## The shape of the operations' lists -/

/-- The actions a request stands for: `IrqOff` before a start, `IrqOn` after a stop (R112). -/
def actsOf (r : Req) : List Act :=
  (if r.kind = .start then [.irqOff] else []) ++ .step r.kind r.data :: (if r.kind = .stop then [.irqOn] else [])

theorem busCount_acts (rs : List Req) : busCount (rs.flatMap actsOf) = rs.length := by
  induction rs with
  | nil => rfl
  | cons r rs ih =>
    obtain ⟨k, d⟩ := r
    cases k <;> simp [actsOf, busCount, ih]

theorem actEvents_acts (ans : Nat → Answer) (rs : List Req) (h : ∀ k, k < rs.length → ans k ≠ .never) :
    actEvents ans (rs.flatMap actsOf) = eventsOf ans rs := by
  induction rs generalizing ans with
  | nil => rfl
  | cons r rs ih =>
    obtain ⟨k, d⟩ := r
    have h0 : ans 0 ≠ .never := h 0 (by simp)
    have := ih (fun k => ans (k + 1)) (fun k hk => h (k + 1) (by simpa using hk))
    cases k <;> simp [actsOf, actEvents, eventsOf, h0, this]

theorem actNack_acts (ans : Nat → Answer) (rs : List Req) : actNack ans (rs.flatMap actsOf) = nackIn ans rs := by
  induction rs generalizing ans with
  | nil => rfl
  | cons r rs ih =>
    obtain ⟨k, d⟩ := r
    cases k <;> simp [actsOf, actNack, nackIn, ih]

theorem length_acts (rs : List Req) : (rs.flatMap actsOf).length = microCount rs := by
  induction rs with
  | nil => rfl
  | cons r rs ih =>
    obtain ⟨k, d⟩ := r
    simp only [microCount] at ih ⊢
    cases k <;> simp [actsOf, ih] <;> omega

theorem pageByte_eq (n : Nat) : pageByte n = BitVec.ofNat 8 (0xB0 + n) := rfl

/-- The actions of one position session are those of R118's `Emit(SETPOS)`. -/
theorem positionMicros_acts (p : Params) (x : Byte) (page : Nat) (r : List RegWrite) :
    (positionMicros p x page r).map (·.act) = (emitSetPos p x page).flatMap actsOf := by
  simp [positionMicros, cmdSession, openMicros, beginMicros, endMicros, posBytes, dataStep, bus, emitSetPos, emitOpen,
    reqStart, reqStop, reqData, actsOf, Config.ctrlCmd, pageByte, Config.cmdPageBase, colHiByte, colLoByte]

theorem openMicros_acts (p : Params) (c : Byte) (r r' : List RegWrite) :
    (openMicros p c r r').map (·.act) = (emitOpen p c).flatMap actsOf := by
  simp [openMicros, beginMicros, bus, emitOpen, reqStart, reqData, actsOf]

theorem endMicros_acts (r : List RegWrite) : (endMicros r).map (·.act) = [reqStop].flatMap actsOf := by
  simp [endMicros, bus, reqStop, actsOf]

theorem dataSteps_acts (l : List Byte) : (l.map dataStep).map (·.act) = (l.map reqData).flatMap actsOf := by
  induction l with
  | nil => rfl
  | cons b l ih => simpa [dataStep, bus, reqData, actsOf] using ih

theorem cmdSession_acts (p : Params) (l : List Byte) (r : List RegWrite) :
    (cmdSession p l r).map (·.act) = (emitOpen p Config.ctrlCmd ++ l.map reqData ++ [reqStop]).flatMap actsOf := by
  rw [cmdSession, List.map_append, List.map_append, openMicros_acts, endMicros_acts, dataSteps_acts,
    List.flatMap_append, List.flatMap_append]

theorem countedData_acts (p : Params) (n : Nat) (v : Byte) :
    (countedData p n v).map (·.act)
      = (emitOpen p Config.ctrlData ++ List.replicate n (reqData v) ++ [reqStop]).flatMap actsOf := by
  have : (List.replicate n ({ act := .step .data v, regs := [.cntDec] } : Micro)).map (·.act)
      = (List.replicate n (reqData v)).flatMap actsOf := by
    induction n with
    | zero => rfl
    | succ n ih => simpa [List.replicate_succ, reqData, actsOf] using ih
  rw [countedData, List.map_append, List.map_append, openMicros_acts, endMicros_acts, this,
    List.flatMap_append, List.flatMap_append]

theorem pageWrite_acts (p : Params) (x y len : Byte) (i : Nat) :
    (pageWrite p x y len i).map (·.act)
      = (emitSetPos p x (y.toNat / 8 + i) ++ emitOpen p 0x40#8 ++ [reqData (lineByte y len i), reqStop]).flatMap actsOf := by
  have : [reqData (lineByte y len i), reqStop] = [reqData (lineByte y len i)] ++ [reqStop] := rfl
  rw [pageWrite, List.map_append, List.map_append, List.map_append, positionMicros_acts, openMicros_acts, endMicros_acts,
    this, List.flatMap_append, List.flatMap_append, List.flatMap_append]
  simp [dataStep, bus, reqData, actsOf, Config.ctrlData, pageOf, Config.pageRows]

/-- The micro-step list of every operation has the actions of its `Emit` (R118). -/
theorem microsOf_acts (p : Params) (i : Instr) : (microsOf p i).map (·.act) = (emit p i).flatMap actsOf := by
  cases i with
  | beginSess => simp [microsOf, microsBegin, beginMicros, bus, emit, reqStart, actsOf]
  | txByte v => simp [microsOf, microsTxByte, dataStep, bus, emit, reqData, actsOf]
  | endSess => exact endMicros_acts []
  | openCmd => exact openMicros_acts p 0x00#8 [] []
  | openData => exact openMicros_acts p 0x40#8 [] []
  | setPos x page => exact positionMicros_acts p x page.toNat []
  | drawH x y len =>
    show (microsDrawH p x y len).map (·.act) = _
    rw [microsDrawH, List.map_append, positionMicros_acts, countedData_acts, ← List.flatMap_append]
    simp [emit, Config.ctrlData, pageOf, rowByte, bitOf, Config.pageRows]
  | drawV x y len =>
    show (microsDrawV p x y len).map (·.act) = _
    simp only [microsDrawV, emit, List.map_flatMap, List.flatMap_assoc, pageWrite_acts]
  | init =>
    show (microsInit p).map (·.act) = _
    rw [microsInit, cmdSession_acts]
    simp [emit, Params.initPayload, Config.ctrlCmd]
  | clear =>
    show (microsClear p).map (·.act) = _
    rw [microsClear, List.map_append, positionMicros_acts, countedData_acts, ← List.flatMap_append]
    simp only [emit, Config.ctrlData, Config.frameBytes, List.append_assoc]
  | pwrOff => show (microsPwrOff p).map (·.act) = _; rw [microsPwrOff, cmdSession_acts]; rfl
  | pwrOn => show (microsPwrOn p).map (·.act) = _; rw [microsPwrOn, cmdSession_acts]; rfl
  | contrast v => show (microsContrast p v).map (·.act) = _; rw [microsContrast, cmdSession_acts]; rfl

/-- Every meaning issues its own micro-step list. -/
theorem exec_eq_issue (i : Instr) (s : State) : exec i s = issue i (microsOf s.params i) s := by
  cases i <;> rfl

/-- An accepted operation is accepted: `refusalOf` finds nothing (R23, R85, R116). -/
theorem refusalOf_eq_none (i : Instr) (s : State) : refusalOf i s = none ↔ Accepts i s := by
  simp only [refusalOf, Accepts]
  cases hp : s.phase <;> cases hw : i.wf <;> cases hn : needsSess i <;> cases hs : s.sess <;> simp

/-- An accepted operation answers a next state: its micro-steps, run from acceptance. -/
theorem exec_accepted (i : Instr) (s : State) (h : Accepts i s) :
    exec i s = .next (runMicros (microsOf s.params i) (s.accept (encode i))) := by
  rw [exec_eq_issue, issue, (refusalOf_eq_none i s).mpr h]

/-- If `exec` answers a next state, the operation was accepted and the state is that of its micro-steps. -/
theorem exec_next (i : Instr) (s t : State) (h : exec i s = .next t) :
    Accepts i s ∧ t = runMicros (microsOf s.params i) (s.accept (encode i)) := by
  rw [exec_eq_issue, issue] at h
  cases hr : refusalOf i s with
  | some r => simp [hr] at h
  | none => exact ⟨(refusalOf_eq_none i s).mp hr, by simpa [hr] using h.symm⟩

/-- The number of bus steps of an operation is the length of its `Emit`. -/
theorem busCount_microsOf (p : Params) (i : Instr) : busCount ((microsOf p i).map (·.act)) = (emit p i).length := by
  rw [microsOf_acts, busCount_acts]

/-! ## The trace, stalled or not -/

/-- The events of a list of actions, oldest first, ending inside the first step never completed (R117). -/
def actTrace (ans : Nat → Answer) : List Act → List Event
  | [] => []
  | .irqOff :: as => .irqOff :: actTrace ans as
  | .irqOn :: as => .irqOn :: actTrace ans as
  | .step k d :: as =>
    .req ⟨k, d⟩ :: (if ans 0 = .never then [] else completionEvents k (ans 0) ++ actTrace (fun j => ans (j + 1)) as)

theorem actTrace_acts (ans : Nat → Answer) (rs : List Req) : actTrace ans (rs.flatMap actsOf) = eventsOf ans rs := by
  induction rs generalizing ans with
  | nil => rfl
  | cons r rs ih =>
    obtain ⟨k, d⟩ := r
    have := ih (fun k => ans (k + 1))
    by_cases h0 : ans 0 = .never <;> cases k <;> simp [actsOf, actTrace, eventsOf, h0, this]

theorem actTrace_complete (ans : Nat → Answer) (as : List Act) (h : ∀ k, k < busCount as → ans k ≠ .never) :
    actTrace ans as = actEvents ans as := by
  induction as generalizing ans with
  | nil => rfl
  | cons a as ih =>
    cases a with
    | irqOff => simp [actTrace, actEvents, ih ans h]
    | irqOn => simp [actTrace, actEvents, ih ans h]
    | step k d =>
      have h0 : ans 0 ≠ .never := h 0 (by simp [busCount])
      simp [actTrace, actEvents, h0, ih (fun j => ans (j + 1)) (fun j hj => h (j + 1) (by simpa [busCount] using hj))]

theorem actTrace_stall (ans : Nat → Answer) (pre post : List Act) (k : Kind) (d : Byte)
    (h : ∀ j, j < busCount pre → ans j ≠ .never) (hn : ans (busCount pre) = .never) :
    actTrace ans (pre ++ .step k d :: post) = actEvents ans pre ++ [.req ⟨k, d⟩] := by
  induction pre generalizing ans with
  | nil =>
    have hn' : ans 0 = .never := hn
    simp [actTrace, actEvents, hn']
  | cons a as ih =>
    cases a with
    | irqOff => simpa [actTrace, actEvents] using ih ans h hn
    | irqOn => simpa [actTrace, actEvents] using ih ans h hn
    | step k' d' =>
      have h0 : ans 0 ≠ .never := h 0 (by simp [busCount])
      have := ih (fun j => ans (j + 1)) (fun j hj => h (j + 1) (by simpa [busCount] using hj)) hn
      simp [actTrace, actEvents, h0, this]

/-- What any run of micro-steps adds to `TRACE`, stalled or not. -/
theorem runMicros_events (ms : List Micro) (s : State) :
    (runMicros ms s).events = (actTrace s.answers.peek (ms.map (·.act))).reverse ++ s.events := by
  rcases runMicros_cases ms s with ⟨hr, hk⟩ | ⟨pre, m, post, k, d, rfl, ha, hp, hn, hr⟩
  · rw [hr, actTrace_complete _ _ hk]; exact runDone_events ms s hk
  · rw [hr, List.map_append, List.map_cons, ha, actTrace_stall _ _ _ _ _ hp hn, strand_events, runDone_events pre s hp]
    simp

end Sys2Proof.Machine
end

