-- ==== Sys2Proof/Laws/Session.lean ====
section
/-! SUPPORT. What a run of micro-steps leaves in the flags, the working registers and the device: the device changes at
a stop only, and a whole session acts on it by its control byte and payload (spec/20_memory.md R58). -/

namespace Sys2Proof.Machine

/-! ## Flags -/

/-- `SESS` after a list of actions: what its last mask action says (R25, R112). -/
def sessOf (s0 : Sess) : List Act → Sess
  | [] => s0
  | .irqOff :: as => sessOf .opened as
  | .irqOn :: as => sessOf .closed as
  | .step _ _ :: as => sessOf s0 as

theorem sessOf_append (s0 : Sess) (as bs : List Act) : sessOf s0 (as ++ bs) = sessOf (sessOf s0 as) bs := by
  induction as generalizing s0 with
  | nil => rfl
  | cons a as ih => cases a <;> simp [sessOf, ih]

theorem runDone_sess (ms : List Micro) (s : State) : (runDone ms s).sess = sessOf s.sess (ms.map (·.act)) := by
  induction ms generalizing s with
  | nil => rfl
  | cons m ms ih =>
    obtain ⟨a, r⟩ := m
    rw [runDone_cons, ih]
    cases a <;> simp [State.microDone, sessOf]

/-- `IE` follows `SESS`: every mask action writes both (R26, R112). -/
theorem runDone_ie (ms : List Micro) (s : State) (h : s.ie = decide (s.sess = .closed)) :
    (runDone ms s).ie = decide ((runDone ms s).sess = .closed) := by
  induction ms generalizing s with
  | nil => exact h
  | cons m ms ih =>
    obtain ⟨a, r⟩ := m
    rw [runDone_cons]
    refine ih _ ?_
    cases a <;> simp [State.microDone, h]

/-- The value `IE` has after a list that holds a mask action. -/
theorem runDone_ie_mask (ms : List Micro) (s : State) (h : ∃ m ∈ ms, m.act = .irqOff ∨ m.act = .irqOn) :
    (runDone ms s).ie = decide ((runDone ms s).sess = .closed) := by
  obtain ⟨m, hm, ha⟩ := h
  obtain ⟨pre, post, rfl⟩ := List.append_of_mem hm
  rw [runDone_append, runDone_cons]
  refine runDone_ie post _ ?_
  obtain ⟨a, r⟩ := m
  rcases ha with ha | ha <;> subst ha <;> simp [State.microDone]

/-- After a list that holds a bus step nothing is in flight (R34). -/
theorem runDone_pending (ms : List Micro) (s : State) (h : s.pending = none ∨ ∃ m ∈ ms, ∃ k d, m.act = .step k d) :
    (runDone ms s).pending = none := by
  induction ms generalizing s with
  | nil => simpa using h
  | cons m ms ih =>
    obtain ⟨a, r⟩ := m
    rw [runDone_cons]
    refine ih _ ?_
    cases a with
    | step k d => exact .inl (by simp [State.microDone])
    | irqOff => rcases h with h | h
                · exact .inl (by simpa [State.microDone] using h)
                · exact .inr (by simpa using h)
    | irqOn => rcases h with h | h
               · exact .inl (by simpa [State.microDone] using h)
               · exact .inr (by simpa using h)

/-! ## Working registers -/

/-- A list that writes no register of a kind leaves it alone: `ms`, `me`, `pg` (R22). -/
def RegWrite.cntOnly : RegWrite → Bool
  | .cnt _ | .cntDec => true
  | .ms _ | .me _ | .pg _ | .pgInc => false

theorem foldl_regs_keep (rs : List RegWrite) (s : State) (h : ∀ r ∈ rs, r.cntOnly = true) :
    (rs.foldl State.regWrite s).ms = s.ms ∧ (rs.foldl State.regWrite s).me = s.me
      ∧ (rs.foldl State.regWrite s).pg = s.pg := by
  induction rs generalizing s with
  | nil => simp
  | cons r rs ih =>
    have := ih (s.regWrite r) (fun x hx => h x (List.mem_cons_of_mem _ hx))
    have hr := h r List.mem_cons_self
    cases r <;> simp_all [RegWrite.cntOnly, State.regWrite]

theorem microDone_regs (m : Micro) (s : State) :
    (s.microDone m).ms = (m.regs.foldl State.regWrite s).ms ∧ (s.microDone m).me = (m.regs.foldl State.regWrite s).me
      ∧ (s.microDone m).pg = (m.regs.foldl State.regWrite s).pg
      ∧ (s.microDone m).cnt = (m.regs.foldl State.regWrite s).cnt := by
  have key : ∀ (rs : List RegWrite) (u v : State), u.ms = v.ms → u.me = v.me → u.pg = v.pg → u.cnt = v.cnt →
      (rs.foldl State.regWrite u).ms = (rs.foldl State.regWrite v).ms
        ∧ (rs.foldl State.regWrite u).me = (rs.foldl State.regWrite v).me
        ∧ (rs.foldl State.regWrite u).pg = (rs.foldl State.regWrite v).pg
        ∧ (rs.foldl State.regWrite u).cnt = (rs.foldl State.regWrite v).cnt := by
    intro rs
    induction rs with
    | nil => intro u v h1 h2 h3 h4; exact ⟨h1, h2, h3, h4⟩
    | cons r rs ih =>
      intro u v h1 h2 h3 h4
      refine ih _ _ ?_ ?_ ?_ ?_ <;> cases r <;> simp [State.regWrite, h1, h2, h3, h4]
  obtain ⟨a, r⟩ := m
  cases a with
  | irqOff => exact key r s.irqOff s rfl rfl rfl rfl
  | irqOn => exact key r s.irqOn s rfl rfl rfl rfl
  | step k d => exact key r _ s (by simp) (by simp) (by simp) (by simp)

/-- The working registers after a list are those of its register writes done in order (R22). -/
theorem runDone_regs (ms : List Micro) (s : State) :
    (runDone ms s).ms = ((ms.flatMap (·.regs)).foldl State.regWrite s).ms
      ∧ (runDone ms s).me = ((ms.flatMap (·.regs)).foldl State.regWrite s).me
      ∧ (runDone ms s).pg = ((ms.flatMap (·.regs)).foldl State.regWrite s).pg
      ∧ (runDone ms s).cnt = ((ms.flatMap (·.regs)).foldl State.regWrite s).cnt := by
  have key : ∀ (rs : List RegWrite) (u v : State), u.ms = v.ms → u.me = v.me → u.pg = v.pg → u.cnt = v.cnt →
      (rs.foldl State.regWrite u).ms = (rs.foldl State.regWrite v).ms
        ∧ (rs.foldl State.regWrite u).me = (rs.foldl State.regWrite v).me
        ∧ (rs.foldl State.regWrite u).pg = (rs.foldl State.regWrite v).pg
        ∧ (rs.foldl State.regWrite u).cnt = (rs.foldl State.regWrite v).cnt := by
    intro rs
    induction rs with
    | nil => intro u v h1 h2 h3 h4; exact ⟨h1, h2, h3, h4⟩
    | cons r rs ih =>
      intro u v h1 h2 h3 h4
      refine ih _ _ ?_ ?_ ?_ ?_ <;> cases r <;> simp [State.regWrite, h1, h2, h3, h4]
  induction ms generalizing s with
  | nil => exact ⟨rfl, rfl, rfl, rfl⟩
  | cons m ms ih =>
    have hk := microDone_regs m s
    have := key (ms.flatMap (·.regs)) _ _ hk.1 hk.2.1 hk.2.2.1 hk.2.2.2
    rw [runDone_cons, List.flatMap_cons, List.foldl_append]
    exact ⟨(ih _).1.trans this.1, (ih _).2.1.trans this.2.1, (ih _).2.2.1.trans this.2.2.1,
      (ih _).2.2.2.trans this.2.2.2⟩

/-! ## The device -/

/-- A list without a stop leaves the device alone (R58). -/
theorem runDone_dev_noStop (ms : List Micro) (s : State) (h : ∀ m ∈ ms, ∀ d, m.act ≠ .step .stop d) :
    (runDone ms s).dev = s.dev := by
  induction ms generalizing s with
  | nil => rfl
  | cons m ms ih =>
    rw [runDone_cons, ih _ (fun x hx => h x (List.mem_cons_of_mem _ hx))]
    have hm := h m List.mem_cons_self
    obtain ⟨a, r⟩ := m
    cases a with
    | irqOff => simp [State.microDone]
    | irqOn => simp [State.microDone]
    | step k d =>
      have : k ≠ .stop := fun e => hm d (by rw [e])
      simp [State.microDone, complete_dev, this]

/-- The address bytes among a list of actions. -/
def actAddrs (as : List Act) : List Byte :=
  as.filterMap fun a => match a with
    | .step .addr d => some d
    | _ => none

/-- The data bytes among a list of actions. -/
def actData (as : List Act) : List Byte :=
  as.filterMap fun a => match a with
    | .step .data d => some d
    | _ => none

theorem sessionFailed_actEvents (ans : Nat → Answer) (as : List Act) :
    sessionFailed (actEvents ans as) = actNack ans as := by
  induction as generalizing ans with
  | nil => rfl
  | cons a as ih =>
    cases a with
    | irqOff => exact ih ans
    | irqOn => exact ih ans
    | step k d =>
      have := ih (fun j => ans (j + 1))
      simp only [sessionFailed] at this
      cases k <;> cases h : ans 0 <;>
        simp [actEvents, actNack, sessionFailed, completionEvents, h, this]

theorem sessionAddrs_append (es fs : List Event) : sessionAddrs (es ++ fs) = sessionAddrs es ++ sessionAddrs fs :=
  List.filterMap_append
theorem sessionData_append (es fs : List Event) : sessionData (es ++ fs) = sessionData es ++ sessionData fs :=
  List.filterMap_append
theorem sessionFailed_append (es fs : List Event) :
    sessionFailed (es ++ fs) = (sessionFailed es || sessionFailed fs) := by
  simp [sessionFailed]

theorem sessionAddrs_completion (k : Kind) (a : Answer) : sessionAddrs (completionEvents k a) = [] := by
  cases k <;> cases a <;> rfl
theorem sessionData_completion (k : Kind) (a : Answer) : sessionData (completionEvents k a) = [] := by
  cases k <;> cases a <;> rfl

theorem sessionAddrs_actEvents (ans : Nat → Answer) (as : List Act) :
    sessionAddrs (actEvents ans as) = actAddrs as := by
  induction as generalizing ans with
  | nil => rfl
  | cons a as ih =>
    cases a with
    | irqOff => exact ih ans
    | irqOn => exact ih ans
    | step k d =>
      have h := ih (fun j => ans (j + 1))
      have : actEvents ans (.step k d :: as)
          = [.req ⟨k, d⟩] ++ completionEvents k (ans 0) ++ actEvents (fun j => ans (j + 1)) as := by simp [actEvents]
      rw [this, sessionAddrs_append, sessionAddrs_append, sessionAddrs_completion, h]
      cases k <;> rfl

theorem sessionData_actEvents (ans : Nat → Answer) (as : List Act) :
    sessionData (actEvents ans as) = actData as := by
  induction as generalizing ans with
  | nil => rfl
  | cons a as ih =>
    cases a with
    | irqOff => exact ih ans
    | irqOn => exact ih ans
    | step k d =>
      have h := ih (fun j => ans (j + 1))
      have : actEvents ans (.step k d :: as)
          = [.req ⟨k, d⟩] ++ completionEvents k (ans 0) ++ actEvents (fun j => ans (j + 1)) as := by simp [actEvents]
      rw [this, sessionData_append, sessionData_append, sessionData_completion, h]
      cases k <;> rfl

/-- A stop request in the log says nothing to the device (R58). -/
theorem readSession_stop (p : Params) (es : List Event) (d : Dev) (b : Byte) :
    d.readSession p (es ++ [.req ⟨.stop, b⟩]) = d.readSession p es := by
  have h1 : sessionFailed (es ++ [.req ⟨.stop, b⟩]) = sessionFailed es := by simp [sessionFailed]
  have h2 : sessionAddrs (es ++ [.req ⟨.stop, b⟩]) = sessionAddrs es := by
    rw [sessionAddrs_append]; simp [sessionAddrs]
  have h3 : sessionData (es ++ [.req ⟨.stop, b⟩]) = sessionData es := by
    rw [sessionData_append]; simp [sessionData]
  simp only [Dev.readSession, h1, h2, h3]

theorem sessionOf_req (r : Req) (es : List Event) : sessionOf (.req r :: es) = sessionOf es ++ [.req r] := by
  simp [sessionOf]

/-- The session's events are those since its `IrqOff`, if none of them is one. -/
theorem sessionOf_append (es es' : List Event) (h : ∀ e ∈ es, e ≠ .irqOff) :
    sessionOf (es.reverse ++ .irqOff :: es') = es := by
  have h' : ∀ e ∈ es.reverse, decide (e ≠ .irqOff) = true := by
    intro e he; simpa using h e (by simpa using he)
  rw [sessionOf, List.takeWhile_append_of_pos h']
  simp

theorem actEvents_ne_irqOff (ans : Nat → Answer) (as : List Act) (h : ∀ a ∈ as, a ≠ .irqOff) :
    ∀ e ∈ actEvents ans as, e ≠ .irqOff := by
  induction as generalizing ans with
  | nil => simp [actEvents]
  | cons a as ih =>
    have h' := fun x hx => h x (List.mem_cons_of_mem _ hx)
    cases a with
    | irqOff => exact absurd rfl (h .irqOff List.mem_cons_self)
    | irqOn => simp only [actEvents, List.mem_cons]; rintro e (rfl | he); · simp
               · exact ih ans h' e he
    | step k d =>
      simp only [actEvents, List.cons_append, List.mem_cons, List.mem_append]
      rintro e (rfl | he | he)
      · simp
      · cases k <;> cases hh : ans 0 <;> simp_all [completionEvents] <;> (try rcases he with rfl | rfl) <;> simp_all
      · exact ih _ h' e he

/-- What a fully acknowledged session does to the device (R58 case 3). -/
def payloadEffect (p : Params) (control : Byte) (payload : List Byte) (d : Dev) : Dev :=
  if control = Config.ctrlData then d.writes payload
  else if control = Config.ctrlCmd then d.commands p payload
  else d.havoc

/-- The actions of an open session up to its stop: the frame of R88 with payload `payload`. -/
def openActs (p : Params) (control : Byte) (payload : List Byte) : List Act :=
  .step .start 0#8 :: .step .addr p.devAddrW :: .step .data control :: payload.map (.step .data ·)

theorem actData_payload (l : List Byte) : actData (l.map (Act.step .data ·)) = l := by
  induction l with
  | nil => rfl
  | cons b l ih => simp [actData]

theorem actAddrs_payload (l : List Byte) : actAddrs (l.map (Act.step .data ·)) = [] := by
  induction l with
  | nil => rfl
  | cons b l ih => simp [actAddrs]

/-- A session's micro-steps, from its `IrqOff` to its `IrqOn`. -/
def IsSession (p : Params) (control : Byte) (payload : List Byte) (ms : List Micro) : Prop :=
  ms.map (·.act) = .irqOff :: (openActs p control payload ++ [.step .stop 0#8, .irqOn])

theorem busCount_openActs (p : Params) (c : Byte) (l : List Byte) : busCount (openActs p c l) = l.length + 3 := by
  have : ∀ l : List Byte, busCount (l.map (Act.step .data ·)) = l.length := by
    intro l
    induction l with
    | nil => rfl
    | cons b l ih => simp [busCount, ih]
  simp [openActs, busCount, this]

theorem actNack_openActs_stop (ans : Nat → Answer) (as : List Act) :
    actNack ans (as ++ [.step .stop 0#8, .irqOn]) = actNack ans as := by
  induction as generalizing ans with
  | nil => simp [actNack]
  | cons a as ih => cases a <;> simp [actNack, ih]

/-- **The session lemma.** A session whose steps are all answered havocs the device if one of them failed, and else acts
on it by its control byte and payload (R58, R61). -/
theorem runDone_session (p : Params) (control : Byte) (payload : List Byte) (ms : List Micro) (s : State)
    (hms : IsSession p control payload ms) (hp : s.params = p)
    (h : ∀ k, k < payload.length + 4 → s.answers.peek k ≠ .never) :
    (runDone ms s).dev
      = if actNack s.answers.peek (openActs p control payload) then s.dev.havoc
        else payloadEffect p control payload s.dev := by
  obtain ⟨m0, rest, rfl, h0, hrest⟩ := List.map_eq_cons_iff.mp hms
  obtain ⟨mid, fin, rfl, hmid, hfin⟩ := List.map_eq_append_iff.mp hrest
  obtain ⟨m1, fin', rfl, h1, hfin'⟩ := List.map_eq_cons_iff.mp hfin
  obtain ⟨m2, fin'', rfl, h2, hnil⟩ := List.map_eq_cons_iff.mp hfin'
  have hfn : fin'' = [] := by simpa using hnil
  subst hfn
  obtain ⟨t0, ht0def⟩ : ∃ t0, t0 = s.microDone m0 := ⟨_, rfl⟩
  have ht0 : t0.events = .irqOff :: s.events ∧ t0.dev = s.dev ∧ t0.answers = s.answers ∧ t0.params = s.params := by
    obtain ⟨a, r⟩ := m0
    dsimp only at h0
    subst h0
    simp [ht0def, State.microDone]
  have hmidc : ∀ k, k < busCount (mid.map (·.act)) → t0.answers.peek k ≠ .never := by
    intro k hk
    rw [hmid, busCount_openActs] at hk
    rw [ht0.2.2.1]
    exact h k (by omega)
  have hev := runDone_events mid t0 hmidc
  rw [hmid, ht0.1, ht0.2.2.1] at hev
  have hdev : (runDone mid t0).dev = s.dev := by
    rw [runDone_dev_noStop mid t0, ht0.2.1]
    intro m hm d hd
    have hmem : Act.step .stop d ∈ mid.map (·.act) := by rw [← hd]; exact List.mem_map_of_mem hm
    rw [hmid] at hmem
    simp [openActs] at hmem
  have hfinal : (runDone (m0 :: (mid ++ [m1, m2])) s).dev
      = (runDone mid t0).dev.readSession s.params (sessionOf ((runDone mid t0).events)) := by
    rw [runDone_cons, runDone_append, ← ht0def]
    obtain ⟨a1, r1⟩ := m1
    obtain ⟨a2, r2⟩ := m2
    dsimp only at h1 h2
    subst h1 h2
    simp [State.microDone, State.complete, ht0.2.2.2, sessionOf_req, readSession_stop]
  have hirq : ∀ e ∈ actEvents s.answers.peek (openActs p control payload), e ≠ .irqOff := by
    apply actEvents_ne_irqOff
    intro a ha he
    subst he
    simp [openActs] at ha
  rw [hfinal, hev, sessionOf_append _ _ hirq, hdev, hp]
  have ha : sessionAddrs (actEvents s.answers.peek (openActs p control payload)) = [p.devAddrW] := by
    rw [sessionAddrs_actEvents]
    show p.devAddrW :: actAddrs (payload.map (Act.step .data ·)) = _
    rw [actAddrs_payload]
  have hd : sessionData (actEvents s.answers.peek (openActs p control payload)) = control :: payload := by
    rw [sessionData_actEvents]
    show control :: actData (payload.map (Act.step .data ·)) = _
    rw [actData_payload]
  simp only [Dev.readSession, sessionFailed_actEvents, ha, hd, payloadEffect]
  simp

/-- No failure among answers that are all `OK`. -/
theorem actNack_ok (ans : Nat → Answer) (as : List Act) (h : ∀ k, k < busCount as → ans k = .ok) :
    actNack ans as = false := by
  induction as generalizing ans with
  | nil => rfl
  | cons a as ih =>
    cases a with
    | irqOff => exact ih ans h
    | irqOn => exact ih ans h
    | step k d =>
      have h0 : ans 0 = .ok := h 0 (by simp [busCount])
      simp [actNack, h0, ih (fun j => ans (j + 1)) (fun j hj => h (j + 1) (by simpa [busCount] using hj))]

/-- A session whose steps all answer `OK` (R58 case 3). -/
theorem runDone_session_ok (p : Params) (control : Byte) (payload : List Byte) (ms : List Micro) (s : State)
    (hms : IsSession p control payload ms) (hp : s.params = p)
    (h : ∀ k, k < payload.length + 4 → s.answers.peek k = .ok) :
    (runDone ms s).dev = payloadEffect p control payload s.dev := by
  rw [runDone_session p control payload ms s hms hp (fun k hk => by rw [h k hk]; simp), actNack_ok, if_neg (by simp)]
  intro k hk
  rw [busCount_openActs] at hk
  exact h k (by omega)

/-! ## The sessions of the operations -/

theorem cmdSession_isSession (p : Params) (l : List Byte) (r : List RegWrite) :
    IsSession p Config.ctrlCmd l (cmdSession p l r) := by
  simp [IsSession, cmdSession, openMicros, beginMicros, endMicros, bus, openActs, dataStep, Function.comp_def]

theorem countedData_isSession (p : Params) (n : Nat) (v : Byte) :
    IsSession p Config.ctrlData (List.replicate n v) (countedData p n v) := by
  simp [IsSession, countedData, openMicros, beginMicros, endMicros, bus, openActs]

theorem pageData_isSession (p : Params) (v : Byte) (r : List RegWrite) :
    IsSession p Config.ctrlData [v] (openMicros p Config.ctrlData [] [] ++ [dataStep v] ++ endMicros r) := by
  simp [IsSession, openMicros, beginMicros, endMicros, bus, openActs, dataStep]

/-! ## Sessions one after another -/

/-- A list of checked bus steps holds a failure exactly when one of its answers is `FAIL` (R111). -/
theorem actNack_range (ans : Nat → Answer) (as : List Act) (h : ∀ a ∈ as, ∃ k d, a = .step k d ∧ k ≠ .stop) :
    actNack ans as = (List.range as.length).any fun k => decide (ans k = .fail) := by
  induction as generalizing ans with
  | nil => rfl
  | cons a as ih =>
    obtain ⟨k, d, rfl, hk⟩ := h a List.mem_cons_self
    simp only [actNack, ih (fun j => ans (j + 1)) fun x hx => h x (List.mem_cons_of_mem _ hx), List.length_cons,
      List.range_succ_eq_map, List.any_cons, List.any_map, Function.comp_def]
    simp [hk]

theorem actNack_openActs (ans : Nat → Answer) (p : Params) (c : Byte) (l : List Byte) :
    actNack ans (openActs p c l) = (List.range (l.length + 3)).any fun k => decide (ans k = .fail) := by
  rw [actNack_range]
  · simp [openActs]
  · simp [openActs]

/-- The micro-steps of whole sessions, one after another. -/
def IsSessions (p : Params) : List (Byte × List Byte) → List Micro → Prop
  | [], ms => ms = []
  | c :: cs, ms => ∃ as bs, ms = as ++ bs ∧ IsSession p c.1 c.2 as ∧ (c.1 = 0x40#8 ∨ c.1 = 0x00#8) ∧ IsSessions p cs bs

theorem isSessions_append (p : Params) (cs ds : List (Byte × List Byte)) (as bs : List Micro)
    (h : IsSessions p cs as) (h' : IsSessions p ds bs) : IsSessions p (cs ++ ds) (as ++ bs) := by
  induction cs generalizing as with
  | nil => rw [show as = [] from h]; exact h'
  | cons c cs ih =>
    obtain ⟨a1, a2, rfl, h1, h2, h3⟩ := h
    exact ⟨a1, a2 ++ bs, by simp, h1, h2, ih a2 h3⟩

theorem isSessions_one (p : Params) (c : Byte) (l : List Byte) (ms : List Micro) (h : IsSession p c l ms)
    (hc : c = 0x40#8 ∨ c = 0x00#8) : IsSessions p [(c, l)] ms := ⟨ms, [], by simp, h, hc, rfl⟩

/-- What one session does is what `sessionDev` says (R58, R61). -/
theorem runDone_sessionDev (p : Params) (c : Byte × List Byte) (ms : List Micro) (s : State)
    (hms : IsSession p c.1 c.2 ms) (hc : c.1 = 0x40#8 ∨ c.1 = 0x00#8) (hp : s.params = p)
    (h : ∀ k, k < c.2.length + 4 → s.answers.peek k ≠ .never) :
    (runDone ms s).dev = sessionDev p s.answers.peek c s.dev := by
  rw [runDone_session p c.1 c.2 ms s hms hp h, actNack_openActs, sessionDev, payloadEffect]
  congr 1
  rcases hc with e | e <;> simp [e, Config.ctrlData, Config.ctrlCmd]

theorem busCount_isSession (p : Params) (c : Byte) (l : List Byte) (ms : List Micro) (h : IsSession p c l ms) :
    busCount (ms.map (·.act)) = l.length + 4 := by
  rw [IsSession] at h
  rw [h]
  simp [busCount, busCount_append, busCount_openActs]

/-- **The sessions lemma.** Whole sessions whose steps are all answered act on the device one after another. -/
theorem runDone_sessionsDev (p : Params) (cs : List (Byte × List Byte)) (ms : List Micro) (s : State)
    (hms : IsSessions p cs ms) (hp : s.params = p)
    (h : ∀ k, k < busCount (ms.map (·.act)) → s.answers.peek k ≠ .never) :
    (runDone ms s).dev = sessionsDev p s.answers.peek cs s.dev := by
  induction cs generalizing ms s with
  | nil => rw [show ms = [] from hms]; rfl
  | cons c cs ih =>
    obtain ⟨as, bs, rfl, h1, h2, h3⟩ := hms
    have hb : busCount (as.map (·.act)) = c.2.length + 4 := busCount_isSession p c.1 c.2 as h1
    have hsum : busCount ((as ++ bs).map (·.act)) = c.2.length + 4 + busCount (bs.map (·.act)) := by
      rw [List.map_append, busCount_append, hb]
    have hans : (runDone as s).answers = s.answers.after (c.2.length + 4) := by rw [runDone_answers, hb]
    rw [runDone_append, ih bs (runDone as s) h3 ((runDone_fixed as s).1.trans hp), hans,
      runDone_sessionDev p c as s h1 h2 hp fun k hk => h k (by omega), sessionsDev]
    · congr 1
      funext k
      rw [peek_after, Nat.add_comm]
    · intro k hk
      rw [hans, peek_after]
      exact h _ (by omega)

/-- The sessions of the operations that are whole sessions (R95, R116). -/
theorem microsOf_isSessions (p : Params) (i : Instr) (h1 : needsSess i = .closed) (h2 : sessAfter i = .closed) :
    IsSessions p (sessionsOf p i) (microsOf p i) := by
  have cmd : ∀ l r, IsSessions p [(0x00#8, l)] (cmdSession p l r) := fun l r =>
    isSessions_one p _ _ _ (cmdSession_isSession p l r) (.inr rfl)
  have pos : ∀ x page r, IsSessions p [positionSession p x page] (positionMicros p x page r) := fun x page r =>
    cmd (posBytes p x page) r
  have line : ∀ n v, IsSessions p [(0x40#8, List.replicate n v)] (countedData p n v) := fun n v =>
    isSessions_one p _ _ _ (countedData_isSession p n v) (.inl rfl)
  cases i with
  | beginSess => cases h2
  | txByte => cases h2
  | endSess => cases h1
  | openCmd => cases h2
  | openData => cases h2
  | setPos x page => exact pos ..
  | drawH x y len => exact isSessions_append p _ _ _ _ (pos ..) (line ..)
  | drawV x y len =>
    show IsSessions p ((List.range (pageCount y len)).flatMap _) ((List.range (pageCount y len)).flatMap _)
    generalize List.range (pageCount y len) = l
    induction l with
    | nil => rfl
    | cons i l ih =>
      refine isSessions_append p _ _ _ _ ?_ ih
      have := isSessions_append p _ _ _ _ (pos x (pageOf y + i) (if i = 0 then lineRegs y len else []))
        (isSessions_one p _ _ _ (pageData_isSession p (lineByte y len i) [.pgInc, .cntDec]) (.inl rfl))
      simp only [pageWrite, List.append_assoc] at this ⊢
      exact this
  | init => exact cmd ..
  | clear => exact isSessions_append p _ _ _ _ (pos ..) (line ..)
  | pwrOff => exact cmd ..
  | pwrOn => exact cmd ..
  | contrast v => exact cmd ..

end Sys2Proof.Machine
end

