-- ==== Sys2Proof/Laws/Complete.lean ====
section
/-! SUPPORT. An accepted operation whose bus steps are all answered runs to its end: the state it leaves, field by field,
and what a command session does to the device. -/

namespace Sys2Proof.Machine

/-- The state an accepted operation leaves when every bus step of it is answered. -/
def finalState (i : Instr) (s : State) : State :=
  { runDone (microsOf s.params i) (s.accept (encode i)) with phase := .idle }

theorem answered_microsOf (i : Instr) (s : State) (hc : AllComplete s (emit s.params i).length) :
    ∀ k, k < busCount ((microsOf s.params i).map (·.act)) → (s.accept (encode i)).answers.peek k ≠ .never := by
  intro k hk
  rw [busCount_microsOf] at hk
  exact hc k hk

theorem exec_finalState (i : Instr) (s : State) (h : Accepts i s) (hc : AllComplete s (emit s.params i).length) :
    exec i s = .next (finalState i s) := by
  rw [exec_accepted i s h, runMicros_completes _ _ (answered_microsOf i s hc)]; rfl

theorem allOk_complete {s : State} {n : Nat} (h : AllOk s n) : AllComplete s n := by
  intro k hk; rw [h k hk]; simp

/-! ## The shape of `Emit` -/

/-- In its domain `DRAWV` writes at least one page (R155). -/
theorem pageCount_pos (x y len : Byte) (h : (Instr.drawV x y len).wf = true) : 0 < pageCount y len := by
  simp only [Instr.wf, drawVDomain, Bool.and_eq_true, decide_eq_true_eq] at h
  simp only [pageCount, bitOf, Config.pageRows]
  omega

theorem emit_ne_nil (p : Params) (i : Instr) (h : i.wf = true) : emit p i ≠ [] := by
  cases i with
  | drawV x y len =>
    obtain ⟨n, hn⟩ : ∃ n, pageCount y len = n + 1 := ⟨pageCount y len - 1, by have := pageCount_pos x y len h; omega⟩
    simp [emit, hn, List.range_succ]
  | drawH x y len => simp [emit]
  | clear => exact List.append_ne_nil_of_right_ne_nil _ (by simp)
  | _ => simp [emit, emitOpen, emitSetPos]

theorem acts_has_step (rs : List Req) (h : rs ≠ []) : ∃ k d, Act.step k d ∈ rs.flatMap actsOf := by
  cases rs with
  | nil => exact absurd rfl h
  | cons r rs => exact ⟨r.kind, r.data, by simp [actsOf]⟩

theorem sessOf_setPos (p : Params) (x : Byte) (pg : Nat) (s0 : Sess) :
    sessOf s0 ((emitSetPos p x pg).flatMap actsOf) = .closed := by
  simp [emitSetPos, emitOpen, reqStart, reqStop, reqData, actsOf, sessOf]

theorem sessOf_open (p : Params) (c : Byte) (s0 : Sess) : sessOf s0 ((emitOpen p c).flatMap actsOf) = .opened := by
  simp [emitOpen, reqStart, reqData, actsOf, sessOf]

theorem sessOf_stop (s0 : Sess) : sessOf s0 ([reqStop].flatMap actsOf) = .closed := by
  simp [reqStop, actsOf, sessOf]

/-- A list of requests that ends with a stop leaves no session open. -/
theorem sessOf_endlist (l : List Req) (s0 : Sess) : sessOf s0 ((l ++ [reqStop]).flatMap actsOf) = .closed := by
  rw [List.flatMap_append, sessOf_append, sessOf_stop]

/-- `DRAWV`'s requests, its last stop set apart. -/
theorem emit_drawV_last (p : Params) (x y len : Byte) (h : (Instr.drawV x y len).wf = true) :
    ∃ l, emit p (.drawV x y len) = l ++ [reqStop] := by
  obtain ⟨n, hn⟩ : ∃ n, pageCount y len = n + 1 := ⟨pageCount y len - 1, by have := pageCount_pos x y len h; omega⟩
  refine ⟨((List.range n).flatMap fun i => emitSetPos p x (y.toNat / 8 + i) ++ emitOpen p 0x40#8
      ++ [reqData (lineByte y len i), reqStop])
    ++ (emitSetPos p x (y.toNat / 8 + n) ++ emitOpen p 0x40#8 ++ [reqData (lineByte y len n)]), ?_⟩
  simp [emit, hn, List.range_succ]

theorem sessOf_emit (p : Params) (i : Instr) (hw : i.wf = true) :
    sessOf (needsSess i) ((emit p i).flatMap actsOf) = sessAfter i := by
  cases i with
  | beginSess => simp [emit, reqStart, actsOf, sessOf, sessAfter]
  | txByte v => simp [emit, reqData, actsOf, sessOf, sessAfter, needsSess]
  | endSess => exact sessOf_stop _
  | openCmd => exact sessOf_open ..
  | openData => exact sessOf_open ..
  | setPos x pg => exact sessOf_setPos ..
  | drawH x y l => exact sessOf_endlist ..
  | drawV x y len =>
    obtain ⟨l, hl⟩ := emit_drawV_last p x y len hw
    rw [hl]; exact sessOf_endlist l _
  | init =>
    rw [show emit p .init = (emitOpen p 0x00#8 ++ p.initSeq.map reqData
      ++ [reqData p.colRangeOp, reqData 0#8, reqData 127#8, reqData p.pageRangeOp, reqData 0#8, reqData 7#8])
      ++ [reqStop] by simp [emit]]
    exact sessOf_endlist ..
  | clear => exact sessOf_endlist ..
  | pwrOff => exact sessOf_endlist (emitOpen p 0x00#8 ++ [reqData 0xAE#8]) _
  | pwrOn => exact sessOf_endlist (emitOpen p 0x00#8 ++ [reqData 0xAF#8]) _
  | contrast v => exact sessOf_endlist (emitOpen p 0x00#8 ++ [reqData 0x81#8, reqData v]) _

/-- Every operation but `TXBYTE` masks or unmasks interrupts (R112). -/
theorem microsOf_has_mask (p : Params) (i : Instr) (hw : i.wf = true) (h : ∀ v, i ≠ .txByte v) :
    ∃ m ∈ microsOf p i, m.act = .irqOff ∨ m.act = .irqOn := by
  suffices hs : ∃ a ∈ (emit p i).flatMap actsOf, a = .irqOff ∨ a = .irqOn by
    rw [← microsOf_acts] at hs
    obtain ⟨a, ha, h2⟩ := hs
    obtain ⟨m, hm, rfl⟩ := List.mem_map.mp ha
    exact ⟨m, hm, h2⟩
  have hstart : ∀ l, ∃ a ∈ (reqStart :: l).flatMap actsOf, a = .irqOff ∨ a = .irqOn := fun l =>
    ⟨.irqOff, by simp [reqStart, actsOf], .inl rfl⟩
  cases i with
  | txByte v => exact absurd rfl (h v)
  | endSess => exact ⟨.irqOn, by simp [emit, reqStop, actsOf], .inr rfl⟩
  | drawV x y len =>
    obtain ⟨l, hl⟩ := emit_drawV_last p x y len hw
    rw [hl]
    exact ⟨.irqOn, by simp [reqStop, actsOf], .inr rfl⟩
  | beginSess => exact hstart _
  | openCmd => exact hstart _
  | openData => exact hstart _
  | setPos x pg => exact hstart _
  | drawH x y l => exact hstart _
  | init => exact hstart _
  | clear => exact hstart _
  | pwrOff => exact hstart _
  | pwrOn => exact hstart _
  | contrast v => exact hstart _

/-! ## Every bus step lies inside a session -/

/-- Reading actions with `SESS` at hand: `IrqOff` only outside a session, `IrqOn` and bus steps only inside one (R112,
R117). -/
def actsOk : Sess → List Act → Bool
  | _, [] => true
  | .closed, .irqOff :: as => actsOk .opened as
  | .opened, .irqOn :: as => actsOk .closed as
  | .opened, .step _ _ :: as => actsOk .opened as
  | .opened, .irqOff :: _ | .closed, .irqOn :: _ | .closed, .step _ _ :: _ => false

theorem actsOk_append (s : Sess) (as bs : List Act) :
    actsOk s (as ++ bs) = (actsOk s as && actsOk (sessOf s as) bs) := by
  induction as generalizing s with
  | nil => rfl
  | cons a as ih => cases s <;> cases a <;> simp [actsOk, sessOf, ih]

theorem actsOk_setPos (p : Params) (x : Byte) (pg : Nat) : actsOk .closed ((emitSetPos p x pg).flatMap actsOf) = true := by
  simp [emitSetPos, emitOpen, reqStart, reqStop, reqData, actsOf, actsOk]

theorem actsOk_open (p : Params) (c : Byte) : actsOk .closed ((emitOpen p c).flatMap actsOf) = true := by
  simp [emitOpen, reqStart, reqData, actsOf, actsOk]

theorem actsOk_data (l : List Byte) : actsOk .opened ((l.map reqData).flatMap actsOf) = true := by
  induction l with
  | nil => rfl
  | cons b l ih => simpa [reqData, actsOf, actsOk] using ih

theorem sessOf_data (l : List Byte) : sessOf .opened ((l.map reqData).flatMap actsOf) = .opened := by
  induction l with
  | nil => rfl
  | cons b l ih => simpa [reqData, actsOf, sessOf] using ih

/-- A whole session: an open, data bytes, a stop. -/
theorem actsOk_session (p : Params) (c : Byte) (l : List Byte) :
    actsOk .closed ((emitOpen p c ++ l.map reqData ++ [reqStop]).flatMap actsOf) = true := by
  rw [List.flatMap_append, List.flatMap_append, actsOk_append, actsOk_append, actsOk_open, sessOf_append, sessOf_open,
    actsOk_data, sessOf_data]
  rfl

/-- The actions of an operation, from the `SESS` its acceptance needs (R116). -/
theorem actsOk_emit (p : Params) (i : Instr) : actsOk (needsSess i) ((emit p i).flatMap actsOf) = true := by
  cases i with
  | beginSess => rfl
  | txByte v => rfl
  | endSess => rfl
  | openCmd => exact actsOk_open ..
  | openData => exact actsOk_open ..
  | setPos x pg => exact actsOk_setPos ..
  | drawH x y len =>
    show actsOk .closed _ = true
    rw [emit, List.append_assoc, List.append_assoc, ← List.append_assoc (emitOpen p 0x40#8), ← List.map_replicate,
      List.flatMap_append, actsOk_append, sessOf_setPos, actsOk_setPos, actsOk_session]
    rfl
  | clear =>
    show actsOk .closed _ = true
    rw [emit, List.append_assoc, List.append_assoc, ← List.append_assoc (emitOpen p 0x40#8), ← List.map_replicate,
      List.flatMap_append, actsOk_append, sessOf_setPos, actsOk_setPos, actsOk_session]
    rfl
  | drawV x y len =>
    show actsOk .closed _ = true
    rw [emit]
    generalize hf : (fun i => emitSetPos p x (y.toNat / 8 + i) ++ emitOpen p 0x40#8 ++ [reqData (lineByte y len i), reqStop]) = f
    have hok : ∀ i, actsOk .closed ((f i).flatMap actsOf) = true := by
      intro i
      subst hf
      show actsOk .closed ((emitSetPos p x (y.toNat / 8 + i) ++ emitOpen p 0x40#8
        ++ [reqData (lineByte y len i), reqStop]).flatMap actsOf) = true
      have := actsOk_session p 0x40#8 [lineByte y len i]
      rw [List.append_assoc, List.flatMap_append, actsOk_append, sessOf_setPos, actsOk_setPos]
      simpa using this
    have hse : ∀ i, sessOf .closed ((f i).flatMap actsOf) = .closed := by
      intro i
      subst hf
      exact sessOf_endlist (emitSetPos p x (y.toNat / 8 + i) ++ emitOpen p 0x40#8 ++ [reqData (lineByte y len i)]) .closed
        |> (by simpa using ·)
    have hlist : ∀ l : List Nat, actsOk .closed ((l.flatMap f).flatMap actsOf) = true := by
      intro l
      induction l with
      | nil => rfl
      | cons i l ih =>
        rw [List.flatMap_cons, List.flatMap_append, actsOk_append, hok, hse, ih]; rfl
    exact hlist _
  | init =>
    have := actsOk_session p 0x00#8 p.initPayload
    simpa [emit, Params.initPayload, needsSess] using this
  | pwrOff => exact actsOk_session p 0x00#8 [0xAE#8]
  | pwrOn => exact actsOk_session p 0x00#8 [0xAF#8]
  | contrast v => exact actsOk_session p 0x00#8 [0x81#8, v]

/-- Wherever an operation stalls, its session is open (R117). -/
theorem stall_sess (i : Instr) (s : State) (h : Accepts i s) (pre : List Micro) (m : Micro) (post : List Micro) (k : Kind)
    (d : Byte) (hms : microsOf s.params i = pre ++ m :: post) (hm : m.act = .step k d) :
    (runDone pre (s.accept (encode i))).sess = .opened := by
  have hok := actsOk_emit s.params i
  rw [← microsOf_acts, hms, List.map_append, List.map_cons, hm, actsOk_append] at hok
  rw [runDone_sess, accept_sess, h.2.2]
  cases hs : sessOf (needsSess i) (pre.map (·.act)) with
  | opened => rfl
  | closed => rw [hs] at hok; simp [actsOk] at hok

/-! ## The final state -/

/-- All of the final state but the device, the working registers and `IE` is what `completedState` says. -/
theorem finalState_eq (i : Instr) (s : State) (h : Accepts i s) (hc : AllComplete s (emit s.params i).length) :
    finalState i s
      = { completedState i s (finalState i s).dev with
          ms := (finalState i s).ms, me := (finalState i s).me, pg := (finalState i s).pg, cnt := (finalState i s).cnt
          ie := (finalState i s).ie } := by
  have hb := answered_microsOf i s hc
  have hf := runDone_fixed (microsOf s.params i) (s.accept (encode i))
  have hev := runDone_events _ _ hb
  have herr := runDone_errf _ _ hb
  have hpend : (runDone (microsOf s.params i) (s.accept (encode i))).pending = none := by
    apply runDone_pending
    right
    obtain ⟨k, d, hk⟩ := acts_has_step (emit s.params i) (emit_ne_nil _ _ h.2.1)
    rw [← microsOf_acts] at hk
    obtain ⟨m, hm, hmk⟩ := List.mem_map.mp hk
    exact ⟨m, hm, k, d, hmk⟩
  have hsess : (runDone (microsOf s.params i) (s.accept (encode i))).sess = sessAfter i := by
    rw [runDone_sess, microsOf_acts, accept_sess, h.2.2, sessOf_emit _ _ h.2.1]
  have hans := runDone_answers (microsOf s.params i) (s.accept (encode i))
  have hseq := runDone_seq (microsOf s.params i) (s.accept (encode i))
  rw [microsOf_acts, actEvents_acts _ _ (by exact hc)] at hev
  rw [microsOf_acts, actNack_acts] at herr
  rw [busCount_microsOf] at hans
  have hlen : (microsOf s.params i).length = microCount (emit s.params i) := by
    rw [← length_acts, ← microsOf_acts, List.length_map]
  simp only [finalState, completedState]
  obtain ⟨f1, f2, f3, f4, f5, f6, f7⟩ := hf
  simp only [State.mk.injEq, true_and]
  simp [f2, f3, f4, f5, f6, hev, herr, hpend, hsess, hans, hseq, hlen, fieldOp_encode, fieldA_encode,
    fieldB_encode, fieldC_encode]

theorem finalState_sess (i : Instr) (s : State) (h : Accepts i s) (hc : AllComplete s (emit s.params i).length) :
    (finalState i s).sess = sessAfter i := congrArg State.sess (finalState_eq i s h hc)

theorem finalState_ie (i : Instr) (s : State) (h : Accepts i s) (hc : AllComplete s (emit s.params i).length)
    (hn : ∀ v, i ≠ .txByte v) : (finalState i s).ie = decide (sessAfter i = .closed) := by
  have : (finalState i s).ie = decide ((finalState i s).sess = .closed) :=
    runDone_ie_mask _ _ (microsOf_has_mask _ _ h.2.1 hn)
  rw [this, finalState_sess i s h hc]

/-- The working registers of the final state. -/
theorem finalState_regs (i : Instr) (s : State) :
    (finalState i s).ms = (((microsOf s.params i).flatMap (·.regs)).foldl State.regWrite (s.accept (encode i))).ms
      ∧ (finalState i s).me = (((microsOf s.params i).flatMap (·.regs)).foldl State.regWrite (s.accept (encode i))).me
      ∧ (finalState i s).pg = (((microsOf s.params i).flatMap (·.regs)).foldl State.regWrite (s.accept (encode i))).pg
      ∧ (finalState i s).cnt
          = (((microsOf s.params i).flatMap (·.regs)).foldl State.regWrite (s.accept (encode i))).cnt :=
  runDone_regs _ _

theorem cmdSession_regs (p : Params) (l : List Byte) (r : List RegWrite) :
    (cmdSession p l r).flatMap (·.regs) = r := by
  simp [cmdSession, openMicros, beginMicros, endMicros, bus, List.flatMap_append, dataStep, List.flatMap_map]

/-- Only `DRAWV`, `DRAWH` and `CLEAR` write working registers (R22). -/
theorem microsOf_noRegs (p : Params) (i : Instr) (h1 : ∀ x y len, i ≠ .drawV x y len)
    (h2 : ∀ x y len, i ≠ .drawH x y len) (h3 : i ≠ .clear) : (microsOf p i).flatMap (·.regs) = [] := by
  cases i with
  | drawV x y l => exact absurd rfl (h1 x y l)
  | drawH x y l => exact absurd rfl (h2 x y l)
  | clear => exact absurd rfl h3
  | beginSess => rfl
  | txByte => rfl
  | endSess => rfl
  | openCmd => rfl
  | openData => rfl
  | setPos x y => exact cmdSession_regs ..
  | init => exact cmdSession_regs ..
  | pwrOn => exact cmdSession_regs ..
  | pwrOff => exact cmdSession_regs ..
  | contrast v => exact cmdSession_regs ..

/-- What a command session whose steps all answer `OK` does to the device (R58, R59). -/
theorem finalState_cmd_dev (i : Instr) (s : State) (l : List Byte)
    (hi : microsOf s.params i = cmdSession s.params l []) (h : AllOk s (l.length + 4)) :
    (finalState i s).dev = s.dev.commands s.params l := by
  have := runDone_session_ok s.params Config.ctrlCmd l _ (s.accept (encode i))
    (cmdSession_isSession s.params l []) rfl h
  simp only [finalState, hi, this]
  rfl

end Sys2Proof.Machine
end

