-- ==== Sys2Proof/Laws/Draw.lean ====
section
/-! SUPPORT. What the drawing operations do to the device when every step answers `OK`: a position sets the cursor, a
counted data session writes a run of equal bytes, a page write of `DRAWV` one byte. -/

namespace Sys2Proof.Machine

theorem posBytes_length (p : Params) (x : Byte) (page : Nat) : (posBytes p x page).length = 3 := rfl

theorem after_ok {a : Answers} {m n : Nat} (h : ∀ k, k < m + n → a.peek k = .ok) :
    ∀ k, k < n → (a.after m).peek k = .ok := fun k hk => by rw [peek_after]; exact h _ (by omega)

theorem busCount_position (p : Params) (x : Byte) (page : Nat) (r : List RegWrite) :
    busCount ((positionMicros p x page r).map (·.act)) = 7 := by
  rw [positionMicros_acts, busCount_acts]; rfl

theorem busCount_counted (p : Params) (n : Nat) (v : Byte) : busCount ((countedData p n v).map (·.act)) = n + 4 := by
  rw [countedData_acts, busCount_acts]; simp [emitOpen]

/-- A position session sets the cursor (R144). -/
theorem runDone_position_dev (p : Params) (x : Byte) (page : Nat) (r : List RegWrite) (s : State) (hp : s.params = p)
    (hd : p.disjoint = true) (hx : x.toNat ≤ 127) (hpg : page ≤ 7) (h : ∀ k, k < 7 → s.answers.peek k = .ok) :
    (runDone (positionMicros p x page r) s).dev
      = { s.dev with col := Fin.ofNat 128 x.toNat, page := Fin.ofNat 8 page } := by
  rw [positionMicros, runDone_session_ok p Config.ctrlCmd (posBytes p x page) _ s (cmdSession_isSession p _ r) hp h]
  exact commands_posBytes p hd x page hx hpg s.dev

theorem payloadEffect_data (p : Params) (l : List Byte) (d : Dev) : payloadEffect p Config.ctrlData l d = d.writes l := by
  simp [payloadEffect]

/-- A position session, then a counted data session (R153, R183). -/
theorem runDone_line_dev (p : Params) (x : Byte) (page n : Nat) (v : Byte) (s : State) (hp : s.params = p)
    (hd : p.disjoint = true) (hx : x.toNat ≤ 127) (hpg : page ≤ 7) (h : ∀ k, k < 11 + n → s.answers.peek k = .ok) :
    (runDone (positionMicros p x page [] ++ countedData p n v) s).dev
      = ({ s.dev with col := Fin.ofNat 128 x.toNat, page := Fin.ofNat 8 page } : Dev).writes (List.replicate n v) := by
  rw [runDone_append, runDone_session_ok p Config.ctrlData (List.replicate n v) _ _ (countedData_isSession p n v)
      (by rw [runDone_params]; exact hp), payloadEffect_data,
    runDone_position_dev p x page [] s hp hd hx hpg (fun k hk => h k (by omega))]
  intro k hk
  rw [runDone_answers, busCount_position, peek_after]
  rw [List.length_replicate] at hk
  exact h _ (by omega)

/-- The cursor address a position leaves (R144, R51). -/
theorem cursorAddr_position (d : Dev) (x : Byte) (page : Nat) (hx : x.toNat ≤ 127) (hpg : page ≤ 7) :
    ({ d with col := Fin.ofNat 128 x.toNat, page := Fin.ofNat 8 page } : Dev).cursorAddr = cellAddr page x.toNat := by
  simp only [Dev.cursorAddr, cellAddr, Config.width, Fin.ofNat]
  omega

/-- One page write of `DRAWV` (R157). -/
theorem runDone_pageWrite_dev (p : Params) (x y len : Byte) (i : Nat) (s : State) (hp : s.params = p)
    (hd : p.disjoint = true) (hx : x.toNat ≤ 127) (hpg : pageOf y + i ≤ 7) (h : ∀ k, k < 12 → s.answers.peek k = .ok) :
    (runDone (pageWrite p x y len i) s).dev
      = ({ s.dev with col := Fin.ofNat 128 x.toNat, page := Fin.ofNat 8 (pageOf y + i) } : Dev).memWrite
          (lineByte y len i) := by
  have hsplit : pageWrite p x y len i = positionMicros p x (pageOf y + i) (if i = 0 then lineRegs y len else [])
      ++ (openMicros p Config.ctrlData [] [] ++ [dataStep (lineByte y len i)] ++ endMicros [.pgInc, .cntDec]) := by
    simp [pageWrite]
  rw [hsplit, runDone_append, runDone_session_ok p Config.ctrlData [lineByte y len i] _ _
      (pageData_isSession p _ _) (by rw [runDone_params]; exact hp), payloadEffect_data,
    runDone_position_dev p x _ _ s hp hd hx hpg (fun k hk => h k (by omega))]
  · rfl
  · intro k hk
    rw [runDone_answers, busCount_position, peek_after]
    exact h _ (by simp at hk; omega)

theorem busCount_pageWrite (p : Params) (x y len : Byte) (i : Nat) :
    busCount ((pageWrite p x y len i).map (·.act)) = 12 := by
  rw [pageWrite_acts, busCount_acts]; rfl

theorem busCount_pages (p : Params) (x y len : Byte) (m : Nat) :
    busCount (((List.range m).flatMap (pageWrite p x y len)).map (·.act)) = 12 * m := by
  induction m with
  | zero => rfl
  | succ m ih =>
    rw [List.range_succ, List.flatMap_append, List.map_append, busCount_append, ih, List.flatMap_cons, List.flatMap_nil,
      List.append_nil, busCount_pageWrite]
    omega

/-- The first `m` page writes of `DRAWV` on a configured device: each byte in its place, every other byte as before, the
cursor where the last page write leaves it (R157). -/
theorem runDone_pages_dev (p : Params) (x y len : Byte) (m : Nat) (s : State) (hp : s.params = p)
    (hd : p.disjoint = true) (hx : x.toNat ≤ 127) (hpg : pageOf y + m ≤ 8) (hc : s.dev.cfg = .configured)
    (hw : s.dev.gddram.wf = true) (h : ∀ k, k < 12 * m → s.answers.peek k = .ok) :
    let d := (runDone ((List.range m).flatMap (pageWrite p x y len)) s).dev
    (∀ i, i < m → d.gddram.read (cellAddr (pageOf y + i) x.toNat) = lineByte y len i)
      ∧ (∀ a, (∀ i, i < m → a ≠ cellAddr (pageOf y + i) x.toNat) → d.gddram.read a = s.dev.gddram.read a)
      ∧ d.gddram.wf = true ∧ d.on = s.dev.on ∧ d.contrast = s.dev.contrast ∧ d.cfg = .configured
      ∧ (0 < m → x.toNat ≤ 126 → d.page.val + 1 = pageOf y + m ∧ d.col.val = x.toNat + 1)
      ∧ (0 < m → x.toNat = 127 → pageOf y + m ≤ 7 → d.page.val = pageOf y + m ∧ d.col.val = 0) := by
  induction m with
  | zero => exact ⟨by simp, fun _ _ => rfl, hw, rfl, rfl, hc, by simp, by simp⟩
  | succ m ih =>
    have ih := ih (by omega) (fun k hk => h k (by omega))
    simp only [List.range_succ, List.flatMap_append, List.flatMap_cons, List.flatMap_nil, List.append_nil,
      runDone_append] at ih ⊢
    obtain ⟨h1, h2, h3, h4, h5, h6, -, -⟩ := ih
    generalize hu : runDone ((List.range m).flatMap (pageWrite p x y len)) s = u at h1 h2 h3 h4 h5 h6 ⊢
    have hup : u.params = p := by rw [← hu, runDone_params]; exact hp
    have hua : u.answers = s.answers.after (12 * m) := by rw [← hu, runDone_answers, busCount_pages]
    have hdev := runDone_pageWrite_dev p x y len m u hup hd hx (by omega) (by
      intro k hk; rw [hua, peek_after]; exact h _ (by omega))
    rw [hdev, memWrite_configured _ _ (by exact h6)]
    have hca := cursorAddr_position u.dev x (pageOf y + m) hx (by omega)
    have hread : ∀ a, (u.dev.gddram.write (cellAddr (pageOf y + m) x.toNat) (lineByte y len m)).read a
        = if a = cellAddr (pageOf y + m) x.toNat then lineByte y len m else u.dev.gddram.read a :=
      fun a => read_write _ _ _ _ h3
    rw [hca]
    simp only [advance_gddram, advance_on, advance_contrast, advance_cfg, hread]
    refine ⟨?_, ?_, ?_, h4, h5, h6, ?_, ?_⟩
    · intro i hi
      by_cases he : i = m
      · subst he; simp
      · rw [if_neg (by simp only [cellAddr, Config.width]; omega)]
        exact h1 i (by omega)
    · intro a ha
      rw [if_neg (ha m (by omega))]
      exact h2 a fun i hi => ha i (by omega)
    · exact write_wf _ _ _ (by rw [← hca]; exact cursorAddr_lt _) h3
    · intro _ hx'
      have e1 : x.toNat % 128 = x.toNat := by omega
      simp only [Dev.advance, Fin.ofNat, e1]
      rw [if_pos (by omega)]
      simp only []
      omega
    · intro _ hx' hpl
      have e1 : x.toNat % 128 = x.toNat := by omega
      simp only [Dev.advance, Fin.ofNat, e1]
      rw [if_neg (by omega), if_pos (by omega)]
      constructor
      · simp only []; omega
      · rfl

/-! ## The final states -/

/-- The counted loop leaves `CNT` at what it did not count (R153, R183). -/
theorem foldl_cntDec (n m : Nat) (u : State) (h : u.cnt = BitVec.ofNat 11 (n + m)) (hb : n + m < 2048) :
    ((List.replicate n RegWrite.cntDec).foldl State.regWrite u).cnt = BitVec.ofNat 11 m
      ∧ ((List.replicate n RegWrite.cntDec).foldl State.regWrite u).ms = u.ms
      ∧ ((List.replicate n RegWrite.cntDec).foldl State.regWrite u).me = u.me
      ∧ ((List.replicate n RegWrite.cntDec).foldl State.regWrite u).pg = u.pg := by
  induction n generalizing u with
  | zero => simpa using h
  | succ n ih =>
    rw [List.replicate_succ, List.foldl_cons]
    refine ih (u.regWrite .cntDec) ?_ (by omega)
    simp only [State.regWrite, h]
    apply BitVec.eq_of_toNat_eq
    simp [BitVec.toNat_sub]
    omega

theorem countedData_regs (p : Params) (n : Nat) (v : Byte) :
    (countedData p n v).flatMap (·.regs) = .cnt (BitVec.ofNat 11 n) :: List.replicate n .cntDec := by
  have : (List.replicate n ({ act := .step .data v, regs := [.cntDec] } : Micro)).flatMap (·.regs)
      = List.replicate n .cntDec := by
    induction n with
    | zero => rfl
    | succ n ih => simp [List.replicate_succ, ih]
  simp [countedData, openMicros, beginMicros, endMicros, bus, this]

/-- A position and a counted data session write `CNT` only, and leave it 0. -/
theorem finalState_line_regs (i : Instr) (s : State) (x : Byte) (page n : Nat) (v : Byte) (hn : n < 2048)
    (hi : microsOf s.params i = positionMicros s.params x page [] ++ countedData s.params n v) :
    (finalState i s).ms = s.ms ∧ (finalState i s).me = s.me ∧ (finalState i s).pg = s.pg
      ∧ (finalState i s).cnt = 0#11 := by
  have r := finalState_regs i s
  rw [hi, List.flatMap_append, countedData_regs, positionMicros, cmdSession_regs, List.nil_append, List.foldl_cons] at r
  have c := foldl_cntDec n 0 ((s.accept (encode i)).regWrite (.cnt (BitVec.ofNat 11 n))) rfl (by omega)
  rw [c.1, c.2.1, c.2.2.1, c.2.2.2] at r
  exact r

/-- The answer of `exec` for an operation that is a position and a counted data session. -/
theorem exec_line (i : Instr) (s : State) (x : Byte) (page n : Nat) (v : Byte) (hn : n < 2048) (h : Accepts i s)
    (hc : AllComplete s (emit s.params i).length)
    (hi : microsOf s.params i = positionMicros s.params x page [] ++ countedData s.params n v)
    (ht : ∀ v, i ≠ .txByte v) :
    exec i s = .next { completedState i s (finalState i s).dev with cnt := 0#11 } := by
  rw [exec_finalState i s h hc, finalState_eq i s h hc]
  have r := finalState_line_regs i s x page n v hn hi
  rw [r.1, r.2.1, r.2.2.1, r.2.2.2, finalState_ie i s h hc ht]
  rfl

theorem finalState_line_dev (i : Instr) (s : State) (x : Byte) (page n : Nat) (v : Byte)
    (hi : microsOf s.params i = positionMicros s.params x page [] ++ countedData s.params n v)
    (hd : s.params.disjoint = true) (hx : x.toNat ≤ 127) (hpg : page ≤ 7) (h : AllOk s (11 + n)) :
    (finalState i s).dev
      = ({ s.dev with col := Fin.ofNat 128 x.toNat, page := Fin.ofNat 8 page } : Dev).writes (List.replicate n v) := by
  have := runDone_line_dev s.params x page n v (s.accept (encode i)) rfl hd hx hpg h
  simp only [finalState, hi, this]
  rfl

theorem pageWrite_regs (p : Params) (x y len : Byte) (i : Nat) :
    (pageWrite p x y len i).flatMap (·.regs) = (if i = 0 then lineRegs y len else []) ++ [.pgInc, .cntDec] := by
  simp [pageWrite, positionMicros, cmdSession_regs, openMicros, beginMicros, endMicros, bus, dataStep]

/-- The working registers after the first `n` page writes of `DRAWV` (R157). -/
theorem pages_regs (n : Nat) (p : Params) (x y len : Byte) (u : State) (hn : 0 < n) (hc : n ≤ pageCount y len)
    (hpc : pageCount y len ≤ 8) :
    let t := (((List.range n).flatMap (pageWrite p x y len)).flatMap (·.regs)).foldl State.regWrite u
    t.ms = startMask y ∧ t.me = endMask y len ∧ t.pg = BitVec.ofNat 4 (pageOf y + n)
      ∧ t.cnt = BitVec.ofNat 11 (pageCount y len - n) := by
  induction n with
  | zero => omega
  | succ n ih =>
    simp only [List.range_succ, List.flatMap_append, List.flatMap_cons, List.flatMap_nil, List.append_nil, pageWrite_regs,
      List.foldl_append] at ih ⊢
    by_cases h0 : n = 0
    · subst h0
      simp only [List.range_zero, List.flatMap_nil, List.foldl_nil, if_true, lineRegs, List.foldl_cons, State.regWrite,
        true_and]
      constructor
      · apply BitVec.eq_of_toNat_eq; simp
      · apply BitVec.eq_of_toNat_eq; simp [BitVec.toNat_sub]; omega
    · obtain ⟨a1, a2, a3, a4⟩ := ih (by omega) (by omega)
      simp only [if_neg h0, List.foldl_nil, List.foldl_cons, State.regWrite, a1, a2, a3, a4, true_and]
      constructor
      · apply BitVec.eq_of_toNat_eq; simp; omega
      · apply BitVec.eq_of_toNat_eq; simp [BitVec.toNat_sub]; omega

end Sys2Proof.Machine
end

