-- ==== Sys2Proof/Laws/PerInstr.lean ====
section
/-! SUPPORT. One lemma per operation: the four fields of its command word are those of its row in the spec's opcode table
(spec/30_encoding.md R80, R81, R83). -/

namespace Sys2Proof.Laws.EncodingFields

/-- `W[31:24]` is the opcode of `i`'s row, and `W[23:16]`, `W[15:8]`, `W[7:0]` are its operands in the table's order, 0
where the table shows 0. -/
def Statement (i : Instr) : Prop :=
  (fieldOp (encode i), fieldA (encode i), fieldB (encode i), fieldC (encode i))
    = match i with
      | .beginSess => (0x01#8, 0#8, 0#8, 0#8)
      | .txByte v => (0x02#8, v, 0#8, 0#8)
      | .endSess => (0x03#8, 0#8, 0#8, 0#8)
      | .openCmd => (0x10#8, 0#8, 0#8, 0#8)
      | .openData => (0x11#8, 0#8, 0#8, 0#8)
      | .setPos x page => (0x20#8, x, page, 0#8)
      | .drawH x y len => (0x30#8, x, y, len)
      | .drawV x y len => (0x31#8, x, y, len)
      | .init => (0x40#8, 0#8, 0#8, 0#8)
      | .clear => (0x41#8, 0#8, 0#8, 0#8)
      | .pwrOff => (0x42#8, 0#8, 0#8, 0#8)
      | .pwrOn => (0x43#8, 0#8, 0#8, 0#8)
      | .contrast v => (0x44#8, v, 0#8, 0#8)

theorem beginSess : Statement .beginSess := by simp [Statement, Instr.opcode, Instr.operands]
theorem txByte (v : Byte) : Statement (.txByte v) := by simp [Statement, Instr.opcode, Instr.operands]
theorem endSess : Statement .endSess := by simp [Statement, Instr.opcode, Instr.operands]
theorem openCmd : Statement .openCmd := by simp [Statement, Instr.opcode, Instr.operands]
theorem openData : Statement .openData := by simp [Statement, Instr.opcode, Instr.operands]
theorem setPos (x page : Byte) : Statement (.setPos x page) := by simp [Statement, Instr.opcode, Instr.operands]
theorem drawH (x y len : Byte) : Statement (.drawH x y len) := by simp [Statement, Instr.opcode, Instr.operands]
theorem drawV (x y len : Byte) : Statement (.drawV x y len) := by simp [Statement, Instr.opcode, Instr.operands]
theorem init : Statement .init := by simp [Statement, Instr.opcode, Instr.operands]
theorem clear : Statement .clear := by simp [Statement, Instr.opcode, Instr.operands]
theorem pwrOff : Statement .pwrOff := by simp [Statement, Instr.opcode, Instr.operands]
theorem pwrOn : Statement .pwrOn := by simp [Statement, Instr.opcode, Instr.operands]
theorem contrast (v : Byte) : Statement (.contrast v) := by simp [Statement, Instr.opcode, Instr.operands]

end Sys2Proof.Laws.EncodingFields
end

