-- ==== Sys2Proof/Laws/Step.lean ====
section
/-! SUPPORT. What one step can do, said once. -/

namespace Sys2Proof.Machine

/-- What the sequencer can have done while `PHASE = RUN`: waited, or gone on between two micro-steps (R23, R117). -/
theorem continueRun_cases {s t : State} (h : s.continueRun = .next t) :
    t = s ∨ ∃ i, s.pending = none ∧ i.wf = true ∧ t = runMicros ((microsOf s.params i).drop s.seq) s := by
  simp only [State.continueRun] at h
  split at h
  · injection h with h; exact .inl h.symm
  · rename_i hn
    simp only [State.resume] at h
    split at h
    · cases h
    · split at h
      · rename_i i _ hw
        injection h with h; exact .inr ⟨i, hn, hw, h.symm⟩
      · cases h

/-- An operation cut short by `rst` was accepted, and ends in the reset of the state its micro-steps led to. -/
theorem cutShort_next {i : Instr} {n : Nat} {s t : State} (h : State.cutShort i n s = .next t) :
    Accepts i s ∧ t = (runMicros ((microsOf s.params i).take n) (s.accept (encode i))).assertReset := by
  simp only [State.cutShort] at h
  split at h
  · cases h
  · rename_i hr
    injection h with h; exact ⟨(refusalOf_eq_none i s).mp hr, h.symm⟩

/-- Everything a step that answers a next state can have done: taken a reset; stayed where it was (no word presented, or
waiting inside a bus step); run the operation of the word presented; run it until a reset; or gone on between two
micro-steps of the running operation (R23, R36, R117, R230). -/
theorem step_cases {s t : State} (h : step s = .next t) :
    (∃ rest, s.host = .rst :: rest ∧ t = State.assertReset { s with host := rest })
      ∨ t = s
      ∨ (∃ w rest i, s.host = .word w :: rest ∧ s.phase = .idle ∧ decode w = .ok i
          ∧ exec i { s with host := rest } = .next t)
      ∨ (∃ w n rest i, s.host = .wordThenRst w n :: rest ∧ s.phase = .idle ∧ decode w = .ok i
          ∧ State.cutShort i n { s with host := rest } = .next t)
      ∨ ∃ i, s.phase = .run ∧ s.pending = none ∧ i.wf = true
          ∧ t = runMicros ((microsOf s.params i).drop s.seq) s := by
  have hrun : s.phase = .run → s.continueRun = .next t →
      t = s ∨ ∃ i, s.phase = .run ∧ s.pending = none ∧ i.wf = true
        ∧ t = runMicros ((microsOf s.params i).drop s.seq) s := by
    intro hp hc
    rcases continueRun_cases hc with h | ⟨i, h1, h2, h3⟩
    · exact .inl h
    · exact .inr ⟨i, hp, h1, h2, h3⟩
  rcases hh : s.host with _ | ⟨m, rest⟩
  · cases hp : s.phase with
    | idle =>
      simp only [step, State.task, hh, hp] at h
      injection h with h; exact .inr (.inl h.symm)
    | run =>
      simp only [step, State.task, hh, hp] at h
      rcases hrun hp h with h | h
      · exact .inr (.inl h)
      · rw [hp] at h; exact .inr (.inr (.inr (.inr h)))
  · cases m with
    | rst =>
      simp only [step, State.task, hh] at h
      injection h with h; exact .inl ⟨rest, rfl, h.symm⟩
    | word w =>
      cases hp : s.phase with
      | run =>
        simp only [step, State.task, hh, hp] at h
        rcases hrun hp h with h | h
        · exact .inr (.inl h)
        · rw [hp] at h; exact .inr (.inr (.inr (.inr h)))
      | idle =>
        simp only [step, State.task, hh, hp] at h
        cases hd : decode w with
        | error r => rw [hd] at h; cases h
        | ok i => rw [hd] at h; exact .inr (.inr (.inl ⟨w, rest, i, rfl, rfl, hd, h⟩))
    | wordThenRst w n =>
      cases hp : s.phase with
      | run =>
        simp only [step, State.task, hh, hp] at h
        rcases hrun hp h with h | h
        · exact .inr (.inl h)
        · rw [hp] at h; exact .inr (.inr (.inr (.inr h)))
      | idle =>
        simp only [step, State.task, hh, hp] at h
        cases hd : decode w with
        | error r => rw [hd] at h; cases h
        | ok i => rw [hd] at h; exact .inr (.inr (.inr (.inl ⟨w, n, rest, i, rfl, rfl, hd, h⟩)))

end Sys2Proof.Machine
end

