-- ==== Sys2Proof/Tests/Slice0.lean ====
section
/-! SUPPORT. Tests of the model against the spec's own vectors (spec/95_test_vectors.md), with the spec's general-knowledge
parameter values, and a witness for the hypotheses of every obligation that has some. -/

namespace Sys2Proof.Tests

open Sys2Proof.Machine

/-! ## A small state -/

/-- The general-knowledge parameter values of 95_test_vectors.md, and an `INIT_SEQ` that meets R185. -/
def gk : Params :=
  { devAddrW := 0x78#8, colHiBias := 0x10#8, colRangeOp := 0x21#8, pageRangeOp := 0x22#8,
    initSeq := [0xA8#8, 0x3F#8, 0x20#8, 0x00#8, 0xA1#8, 0xC8#8, 0xD5#8, 0x80#8, 0x8D#8, 0x14#8, 0x81#8, 0x7F#8, 0xAF#8] }

/-- A configured device whose cursor is (5, page 2). -/
def dev : Dev :=
  { gddram := Memory.drawn 0, col := 5, page := 2, on := true, contrast := 0x10#8, cfg := .configured, draws := 1 }

/-- TXC after reset, its device configured, the transceiver's coming answers `q`. -/
def idle (q : List Answer) : State :=
  { State.reset with params := gk, dev := dev, answers := { queue := q, drawn := 0 } }

/-- TXC inside a session whose events so far are `es`, newest first. -/
def opened (q : List Answer) (es : List Event) : State :=
  { idle q with sess := .opened, ie := false, events := es ++ [.irqOff] }

/-- `n` answers `OK`. -/
def oks (n : Nat) : List Answer := List.replicate n .ok

/-- The outcome is a next state of which `P` holds. -/
def nextIs (o : Host.Outcome State Fault Refusal) (P : State → Bool) : Bool :=
  match o with
  | .next t => P t
  | .fault _ => false
  | .refused _ => false

/-- The outcome is the refusal `r`. -/
def refusedAs (o : Host.Outcome State Fault Refusal) (r : Refusal) : Bool :=
  match o with
  | .next _ => false
  | .fault _ => false
  | .refused r' => decide (r = r')

/-- The requests of a session: start, address, the data bytes, stop. -/
def session (bytes : List Byte) : List Req :=
  [⟨.start, 0#8⟩, ⟨.addr, 0x78#8⟩] ++ bytes.map (⟨.data, ·⟩) ++ [⟨.stop, 0#8⟩]

/-! ## Operand domains (R85; V19d, V26, V43) -/

theorem test_wf_setPos_x : (Instr.setPos 128#8 0#8).wf = false := by decide
theorem test_wf_setPos_page : (Instr.setPos 0#8 8#8).wf = false := by decide
theorem test_wf_drawH_x : (Instr.drawH 128#8 0#8 1#8).wf = false := by decide
theorem test_wf_drawH_y : (Instr.drawH 0#8 64#8 1#8).wf = false := by decide
theorem test_wf_drawH_zero : (Instr.drawH 0#8 0#8 0#8).wf = false := by decide
theorem test_wf_drawH_end : (Instr.drawH 127#8 0#8 2#8).wf = false := by decide
theorem test_wf_drawV_x : (Instr.drawV 128#8 0#8 1#8).wf = false := by decide
theorem test_wf_drawV_y : (Instr.drawV 0#8 64#8 1#8).wf = false := by decide
theorem test_wf_drawV_zero : (Instr.drawV 0#8 0#8 0#8).wf = false := by decide
theorem test_wf_drawV_long : (Instr.drawV 0#8 0#8 65#8).wf = false := by decide
theorem test_wf_drawV_end : (Instr.drawV 0#8 60#8 5#8).wf = false := by decide
theorem test_wf_edges : (Instr.setPos 127#8 7#8).wf = true ∧ (Instr.drawH 0#8 0#8 128#8).wf = true
    ∧ (Instr.drawH 127#8 0#8 1#8).wf = true ∧ (Instr.drawV 0#8 0#8 64#8).wf = true
    ∧ (Instr.drawV 127#8 63#8 1#8).wf = true := by decide

/-! ## Decoding: the words of R81, their bits written out -/

theorem test_decode_begin : decode 0b00000001000000000000000000000000#32 = .ok .beginSess := by decide
theorem test_decode_txByte : decode 0b00000010101010100000000000000000#32 = .ok (.txByte 0xAA#8) := by decide
theorem test_decode_end : decode 0b00000011000000000000000000000000#32 = .ok .endSess := by decide
theorem test_decode_openCmd : decode 0b00010000000000000000000000000000#32 = .ok .openCmd := by decide
theorem test_decode_openData : decode 0b00010001000000000000000000000000#32 = .ok .openData := by decide
theorem test_decode_setPos : decode 0b00100000000001010000001000000000#32 = .ok (.setPos 5#8 2#8) := by decide
theorem test_decode_drawH : decode 0b00110000000101000010000100000100#32 = .ok (.drawH 20#8 33#8 4#8) := by decide
theorem test_decode_drawV : decode 0b00110001000010100000010100001110#32 = .ok (.drawV 10#8 5#8 14#8) := by decide
theorem test_decode_init : decode 0b01000000000000000000000000000000#32 = .ok .init := by decide
theorem test_decode_clear : decode 0b01000001000000000000000000000000#32 = .ok .clear := by decide
theorem test_decode_pwrOff : decode 0b01000010000000000000000000000000#32 = .ok .pwrOff := by decide
theorem test_decode_pwrOn : decode 0b01000011000000000000000000000000#32 = .ok .pwrOn := by decide
theorem test_decode_contrast : decode 0b01000100011111110000000000000000#32 = .ok (.contrast 127#8) := by decide

/-- V10: unassigned opcodes. -/
theorem test_reserved_opcodes : decode 0x00000000#32 = .error (.opcode 0x00#8)
    ∧ decode 0x04000000#32 = .error (.opcode 0x04#8) ∧ decode 0x12000000#32 = .error (.opcode 0x12#8)
    ∧ decode 0x45000000#32 = .error (.opcode 0x45#8) ∧ decode 0xFF000000#32 = .error (.opcode 0xFF#8) := by decide

/-- V10: non-zero unused fields. -/
theorem test_reserved_fields : decode 0x01000001#32 = .error (.unusedField 0x01#8)
    ∧ decode 0x01010000#32 = .error (.unusedField 0x01#8) ∧ decode 0x02AA0100#32 = .error (.unusedField 0x02#8)
    ∧ decode 0x20050201#32 = .error (.unusedField 0x20#8) ∧ decode 0x447F0001#32 = .error (.unusedField 0x44#8) := by
  decide

theorem test_table_word : decodeTableWord 32 0x310A050E = some (.drawV 10#8 5#8 14#8) := by decide

/-! ## One step per operation -/

/-- V2: a failed start does not keep the address byte from being sent. -/
theorem test_begin_start_fails : nextIs (exec .beginSess (idle [.fail, .ok])) (fun t => decide
    (t.trace = [.irqOff, .req ⟨.start, 0#8⟩, .rsp .fail, .err .start, .req ⟨.addr, 0x78#8⟩, .rsp .ok]
      ∧ t.sess = .opened ∧ t.ie = false ∧ t.errf = true ∧ t.phase = .idle)) = true := by decide

/-- V1, through `step`: the word is fetched and run, `STATUS` after it is `0b0010`. -/
theorem test_begin_step : nextIs (step ((idle (oks 2)).withFetchWord 32 0x01000000)) (fun t => decide
    (t.trace = [.irqOff, .req ⟨.start, 0#8⟩, .rsp .ok, .req ⟨.addr, 0x78#8⟩, .rsp .ok] ∧ t.status = 0b0010#4)) = true := by
  decide

/-- V6. -/
theorem test_txByte_fails : nextIs (exec (.txByte 0x55#8) (opened [.fail] [])) (fun t => decide
    (t.trace = [.irqOff, .req ⟨.data, 0x55#8⟩, .rsp .fail, .err .data] ∧ t.errf = true ∧ t.sess = .opened)) = true := by
  decide

/-- V9. -/
theorem test_txByte_closed : refusedAs (exec (.txByte 0xAA#8) (idle (oks 1))) .sessionClosed = true := by decide

/-- V7, V8: an unchecked stop, `ERRF` kept; V16: `BEGIN` then `END` havocs the device, whose `cfg` is then free. -/
theorem test_end : nextIs (exec .endSess { opened [.fail] [] with errf := true }) (fun t => decide
    (t.trace = [.irqOff, .req ⟨.stop, 0#8⟩, .done, .irqOn] ∧ t.sess = .closed ∧ t.ie = true ∧ t.errf = true
      ∧ t.dev.draws = 2)) = true := by decide

/-- P1, word 4: the data byte `0xAA` at page 2, column 5; the cursor moves to column 6. -/
theorem test_end_data : nextIs (exec .endSess (opened (oks 1)
    [.rsp .ok, .req ⟨.data, 0xAA#8⟩, .rsp .ok, .req ⟨.data, 0x40#8⟩, .rsp .ok, .req ⟨.addr, 0x78#8⟩, .rsp .ok,
     .req ⟨.start, 0#8⟩])) (fun t => decide
    (t.dev.gddram.read 261 = 0xAA#8 ∧ t.dev.col = 6 ∧ t.dev.page = 2 ∧ t.ra = 0#8)) = true := by decide

/-- V14: the address step never completes. -/
theorem test_openCmd_stalls : nextIs (exec .openCmd (idle [.ok, .never])) (fun t => decide
    (t.trace = [.irqOff, .req ⟨.start, 0#8⟩, .rsp .ok, .req ⟨.addr, 0x78#8⟩] ∧ t.pending = some ⟨.addr, 0x78#8⟩
      ∧ t.phase = .run ∧ t.sess = .opened ∧ t.ie = false ∧ t.errf = false ∧ t.errPulses = 0)) = true := by decide

/-- V11. -/
theorem test_openCmd : nextIs (exec .openCmd (idle (oks 3))) (fun t => decide
    (t.busProjection = [⟨.start, 0#8⟩, ⟨.addr, 0x78#8⟩, ⟨.data, 0x00#8⟩] ∧ t.sess = .opened ∧ t.ie = false)) = true := by
  decide

/-- V13: the control byte is still sent after a failed address. -/
theorem test_openData_addr_fails : nextIs (exec .openData (idle [.ok, .fail, .ok])) (fun t => decide
    (t.trace = [.irqOff, .req ⟨.start, 0#8⟩, .rsp .ok, .req ⟨.addr, 0x78#8⟩, .rsp .fail, .err .addr,
      .req ⟨.data, 0x40#8⟩, .rsp .ok] ∧ t.errf = true ∧ t.sess = .opened)) = true := by decide

/-- V19: the top corner of the display. -/
theorem test_setPos_corner : nextIs (exec (.setPos 127#8 7#8) (idle (oks 7))) (fun t => decide
    (t.busProjection = session [0x00#8, 0xB7#8, 0x17#8, 0x0F#8] ∧ t.dev.col = 127 ∧ t.dev.page = 7
      ∧ t.dev.gddram = dev.gddram ∧ t.sess = .closed ∧ t.ie = true)) = true := by decide

/-- V19e: one failed byte; the same requests, the device havocked at `Done`. -/
theorem test_setPos_fails : nextIs (exec (.setPos 5#8 2#8) (idle [.ok, .ok, .ok, .fail, .ok, .ok, .ok])) (fun t => decide
    (t.busProjection = session [0x00#8, 0xB2#8, 0x10#8, 0x05#8] ∧ t.errf = true ∧ t.errPulses = 1 ∧ t.dev.draws = 2
      ∧ t.sess = .closed ∧ t.ie = true)) = true := by decide

/-- V20. -/
theorem test_drawH : nextIs (exec (.drawH 0#8 10#8 3#8) (idle (oks 14))) (fun t => decide
    (t.busProjection = session [0x00#8, 0xB1#8, 0x10#8, 0x00#8] ++ session [0x40#8, 0x04#8, 0x04#8, 0x04#8]
      ∧ t.dev.gddram.cells = [(128, 0x04#8), (129, 0x04#8), (130, 0x04#8)] ∧ t.dev.col = 3 ∧ t.dev.page = 1
      ∧ t.cnt = 0#11)) = true := by decide

/-- V25: the line ends at the last column, so the cursor goes to the next page. -/
theorem test_drawH_end : nextIs (exec (.drawH 120#8 16#8 8#8) (idle (oks 19))) (fun t => decide
    (t.dev.gddram.read 383 = 0x01#8 ∧ t.dev.col = 0 ∧ t.dev.page = 3 ∧ t.cnt = 0#11)) = true := by decide

/-- V44, P2. -/
theorem test_drawV : nextIs (exec (.drawV 10#8 5#8 14#8) (idle (oks 36))) (fun t => decide
    (t.busProjection = session [0x00#8, 0xB0#8, 0x10#8, 0x0A#8] ++ session [0x40#8, 0xE0#8]
        ++ session [0x00#8, 0xB1#8, 0x10#8, 0x0A#8] ++ session [0x40#8, 0xFF#8]
        ++ session [0x00#8, 0xB2#8, 0x10#8, 0x0A#8] ++ session [0x40#8, 0x1F#8]
      ∧ t.ms = 0xE0#8 ∧ t.me = 0x1F#8 ∧ t.pg = 3#4 ∧ t.cnt = 0#11 ∧ t.ra = 0x0A#8 ∧ t.rb = 0x05#8 ∧ t.rc = 0x0E#8
      ∧ t.dev.gddram.cells = [(10, 0xE0#8), (138, 0xFF#8), (266, 0x1F#8)] ∧ t.dev.col = 11 ∧ t.dev.page = 2)) = true := by
  decide

/-- V45: one page written at the last column of page 0, the boundary `e = 0` (B1). -/
theorem test_drawV_boundary : nextIs (exec (.drawV 127#8 0#8 8#8) (idle (oks 12))) (fun t => decide
    (t.busProjection = session [0x00#8, 0xB0#8, 0x17#8, 0x0F#8] ++ session [0x40#8, 0xFF#8]
      ∧ t.dev.gddram.cells = [(127, 0xFF#8)] ∧ t.dev.col = 0 ∧ t.dev.page = 1)) = true := by decide

/-- V60. -/
theorem test_pwrOn : nextIs (exec .pwrOn { idle (oks 5) with dev := { dev with on := false } }) (fun t => decide
    (t.busProjection = session [0x00#8, 0xAF#8] ∧ t.dev = dev)) = true := by decide

/-- P4, word 1: a failed address byte; the requests are the same. -/
theorem test_pwrOn_addr_fails : nextIs (exec .pwrOn (idle [.ok, .fail, .ok, .ok, .ok])) (fun t => decide
    (t.trace = [.irqOff, .req ⟨.start, 0#8⟩, .rsp .ok, .req ⟨.addr, 0x78#8⟩, .rsp .fail, .err .addr,
      .req ⟨.data, 0x00#8⟩, .rsp .ok, .req ⟨.data, 0xAF#8⟩, .rsp .ok, .req ⟨.stop, 0#8⟩, .done, .irqOn]
      ∧ t.status = 0b1100#4 ∧ t.dev.draws = 2)) = true := by decide

/-- V61. -/
theorem test_pwrOff : nextIs (exec .pwrOff (idle (oks 5))) (fun t => decide
    (t.busProjection = session [0x00#8, 0xAE#8] ∧ t.dev = { dev with on := false })) = true := by decide

/-- V62: the byte after `0x81` is the value, even where it is another command's byte. -/
theorem test_contrast : nextIs (exec (.contrast 0xAE#8) (idle (oks 6))) (fun t => decide
    (t.busProjection = session [0x00#8, 0x81#8, 0xAE#8] ∧ t.dev = { dev with contrast := 0xAE#8 })) = true := by decide

/-- V64: the payload, and the effect of the whole session. -/
theorem test_init : nextIs (exec .init { idle (oks 23) with dev := { dev with on := false, cfg := .unconfigured } }) (fun t =>
    decide (t.busProjection
        = session ([0x00#8] ++ gk.initSeq ++ [0x21#8, 0x00#8, 0x7F#8, 0x22#8, 0x00#8, 0x07#8])
      ∧ t.dev.cfg = .configured ∧ t.dev.on = true)) = true := by decide

/-- V64: one failed byte, so the device does not count as configured: its `cfg` is draw 1. -/
theorem test_init_fails : nextIs (exec .init (idle (oks 5 ++ [.fail] ++ oks 17))) (fun t => decide
    (t.errf = true ∧ t.dev.gddram = Memory.drawn 1 ∧ t.dev.draws = 2 ∧ t.sess = .closed)) = true := by decide

/-- V63: the requests of `CLEAR`, as counted there. -/
theorem test_clear_requests : (emit gk .clear).take 10
    = session [0x00#8, 0xB0#8, 0x10#8, 0x00#8] ++ [⟨.start, 0#8⟩, ⟨.addr, 0x78#8⟩, ⟨.data, 0x40#8⟩] := by decide

/-- A stall in the data session of `CLEAR`: `CNT` counts what is left, and the device is draw 1 (R58). -/
theorem test_clear_stalls : nextIs (exec .clear (idle (oks 12 ++ [.never]))) (fun t => decide
    (t.cnt = 1022#11 ∧ t.pending = some ⟨.data, 0#8⟩ ∧ t.dev.gddram = Memory.drawn 1
      ∧ t.dev.draws = 2)) = true := by decide

/-- V71: reset from the stalled state of V14. -/
theorem test_reset_stalled : nextIs (step { opened [] [] with
      host := [.rst], phase := .run, pending := some ⟨.addr, 0x78#8⟩ }) (fun t => decide
    (t.sess = .closed ∧ t.ie = true ∧ t.pending = none ∧ t.trace = [] ∧ t.phase = .idle ∧ t.dev.draws = 2)) = true := by
  decide

/-- V70: reset between operations leaves the device alone and clears `ERRF`. -/
theorem test_reset_idle : nextIs (step { idle [] with host := [.rst], errf := true }) (fun t => decide
    (t.dev = dev ∧ t.errf = false ∧ t.status = 0b0100#4)) = true := by decide

/-- R230, R231: `DRAWH` cut off between its two sessions (9 micro-steps) keeps the device as the position left it; one
micro-step later a session is open, and the device is havocked. -/
theorem test_reset_inside : nextIs (step { idle (oks 14) with host := [.wordThenRst 0x30000A03#32 9] }) (fun t => decide
    (t.dev = { dev with col := 0, page := 1 } ∧ t.trace = [] ∧ t.phase = .idle ∧ t.sess = .closed)) = true
    ∧ nextIs (step { idle (oks 14) with host := [.wordThenRst 0x30000A03#32 10] }) (fun t => decide
    (t.dev.draws = 2 ∧ t.dev.gddram = Memory.drawn 1 ∧ t.trace = [] ∧ t.ie = true)) = true := by decide

/-- The bytes of the vectors V31, V33, V34, V37, V42 and B16. -/
theorem test_line_bytes : lineByte 0#8 4#8 0 = 0x0F#8 ∧ lineByte 2#8 3#8 0 = 0x04#8 ∧ lineByte 20#8 1#8 0 = 0x00#8
    ∧ (List.range (pageCount 3#8 6#8)).map (lineByte 3#8 6#8) = [0xF8#8, 0x7F#8]
    ∧ (List.range (pageCount 1#8 62#8)).map (lineByte 1#8 62#8)
        = [0xFE#8, 0xFF#8, 0xFF#8, 0xFF#8, 0xFF#8, 0xFF#8, 0xFF#8, 0x01#8]
    ∧ (List.range (pageCount 1#8 63#8)).map (lineByte 1#8 63#8)
        = [0xFE#8, 0xFF#8, 0xFF#8, 0xFF#8, 0xFF#8, 0xFF#8, 0xFF#8, 0xFF#8] := by decide

/-- R185 (a), (b): the test parameters are of the kind the spec describes, and their first bytes are disjoint (R59). -/
theorem test_params : gk.disjoint = true ∧ gk.initSeqKnown = true := by decide

/-- R185 (b), no such sequences: the commands without their arguments; and one whose last byte is the value of a second
contrast command, so that no display-on stands in it. -/
theorem test_params_not_known :
    ({ gk with initSeq := [0xA8#8, 0x20#8, 0xA1#8, 0xC8#8, 0xD5#8, 0x8D#8, 0x81#8, 0xAF#8] } : Params).initSeqKnown = false
      ∧ ({ gk with initSeq := [0xA8#8, 0x3F#8, 0x20#8, 0x00#8, 0xA1#8, 0xC8#8, 0xD5#8, 0x80#8, 0x8D#8, 0x14#8, 0x81#8,
            0x7F#8, 0x81#8, 0xAF#8] } : Params).initSeqKnown = false := by decide

/-- R185 (c): further commands may stand between, whatever their arguments. -/
theorem test_params_further :
    ({ gk with initSeq := [0xAE#8, 0xA8#8, 0x3F#8, 0xD3#8, 0xAF#8, 0x20#8, 0x00#8, 0xA1#8, 0xC8#8, 0xDA#8, 0x12#8, 0xD5#8,
        0x80#8, 0x8D#8, 0x14#8, 0x81#8, 0xA8#8, 0xA4#8, 0xA6#8, 0xAF#8] } : Params).initSeqKnown = true := by decide

/-- R58, `k = 1`: an empty command payload changes nothing, also where the OPEN parameters are not disjoint. -/
theorem test_empty_payload : ({ gk with colHiBias := 0xB0#8 } : Params).disjoint = false
    ∧ dev.commands { gk with colHiBias := 0xB0#8 } [] = dev := by decide

/-- R59: a page select and then an unknown byte havocs the device. -/
theorem test_unknown_command : dev.commands gk [0xB2#8, 0xE3#8] = dev.havoc := rfl

/-- R55: a data byte to an unconfigured device draws display RAM and cursor, and keeps the rest. -/
theorem test_unconfigured_write : ({ dev with cfg := .unconfigured } : Dev).memWrite 0xAA#8
    = { dev with cfg := .unconfigured, gddram := Memory.drawn 1, col := Config.freeCol 1, page := Config.freePage 1,
                 draws := 2 } := rfl

/-! ## Witnesses: the hypotheses of each obligation hold together somewhere -/

theorem idle_ok (n : Nat) : AllOk (idle (oks n)) n := fun k h => peek_replicate_ok n 0 k h
theorem opened_ok (n : Nat) (es : List Event) : AllOk (opened (oks n) es) n := fun k h => peek_replicate_ok n 0 k h
theorem idle_complete (n : Nat) : AllComplete (idle (oks n)) n := allOk_complete (idle_ok n)
theorem opened_complete (n : Nat) (es : List Event) : AllComplete (opened (oks n) es) n :=
  allOk_complete (opened_ok n es)
theorem ok_noneFails {s : State} {n : Nat} (h : AllOk s n) : NoneFails s n := fun k hk => by rw [h k hk]; simp

/-- The state in which operation `i` meets a transceiver that answers `OK` to every step of it. -/
def ready (i : Instr) : State :=
  match needsSess i with
  | .closed => idle (oks (emit gk i).length)
  | .opened => opened (oks (emit gk i).length) []

theorem ready_params (i : Instr) : (ready i).params = gk := by
  unfold ready; split <;> rfl
theorem ready_accepts (i : Instr) (h : i.wf = true) : Accepts i (ready i) := by
  refine ⟨?_, h, ?_⟩ <;> unfold ready <;> split <;> simp_all [idle, opened, State.reset]
theorem ready_ok (i : Instr) : AllOk (ready i) (emit (ready i).params i).length := by
  rw [ready_params]
  unfold ready; split
  · exact idle_ok _
  · exact opened_ok _ _

/-- EveryOperationCompletes, OperationTrace, BusProjectionIsEmit, OnePulsePerFailure, ExpansionEquivalent,
FailuresDoNotRedirect: for EVERY operation in its domain there is such a state. -/
theorem test_witness_EveryOperationCompletes (i : Instr) (h : i.wf = true) :
    ∃ s, Accepts i s ∧ AllComplete s (emit s.params i).length ∧ (s.ie = false ↔ s.sess = .opened)
      ∧ AllComplete { s with answers := (ready i).answers } (emit s.params i).length :=
  ⟨ready i, ready_accepts i h, allOk_complete (ready_ok i), by unfold ready; split <;> simp [idle, opened, State.reset],
    allOk_complete (ready_ok i)⟩

/-- FailuresDoNotRedirect with answers that do differ: one run fails its first step. -/
theorem test_witness_FailuresDoNotRedirect :
    Accepts .beginSess (idle [.ok, .ok]) ∧ AllComplete (idle [.ok, .ok]) 2
      ∧ AllComplete { idle [.ok, .ok] with answers := { queue := [.fail, .ok], drawn := 0 } } 2 := by
  unfold Accepts AllComplete; decide

/-- OperationFrame, and the premise of every frame: an operation in its domain answers a next state somewhere. -/
theorem test_witness_OperationFrame (i : Instr) (h : i.wf = true) : ∃ s t, exec i s = .next t :=
  ⟨ready i, _, exec_accepted i _ (ready_accepts i h)⟩

theorem test_witness_EncodeOfDecode : decode 0x447F0000#32 = .ok (.contrast 0x7F#8) := by decide

/-- ReservedWordRefused: an unlisted opcode, and a non-zero unused field. -/
theorem test_witness_ReservedWordRefused : (idle []).phase = .idle
    ∧ ({ idle [] with host := [.word 0xFF000000#32] } : State).host = [.word 0xFF000000#32]
    ∧ (¬ ∃ r ∈ opcodeRows, 0xFF000000#32 &&& r.2 = r.1)
    ∧ ({ idle [] with host := [.word 0x03000100#32] } : State).host = [.word 0x03000100#32]
    ∧ ¬ ∃ r ∈ opcodeRows, 0x03000100#32 &&& r.2 = r.1 :=
  ⟨rfl, rfl, by simp [opcodeRows], rfl, by simp [opcodeRows]⟩

/-- OutOfDomainRefused: each clause just past its edge. -/
theorem test_witness_OutOfDomainRefused : (idle []).phase = .idle
    ∧ ¬ ((128#8 : Byte).toNat ≤ 127 ∧ (0#8 : Byte).toNat ≤ 7) ∧ ¬ ((0#8 : Byte).toNat ≤ 127 ∧ (8#8 : Byte).toNat ≤ 7)
    ∧ ¬ ((127#8 : Byte).toNat ≤ 127 ∧ (0#8 : Byte).toNat ≤ 63 ∧ 1 ≤ (2#8 : Byte).toNat
        ∧ (127#8 : Byte).toNat + (2#8 : Byte).toNat ≤ 128)
    ∧ ¬ ((0#8 : Byte).toNat ≤ 127 ∧ (63#8 : Byte).toNat ≤ 63 ∧ 1 ≤ (2#8 : Byte).toNat ∧ (2#8 : Byte).toNat ≤ 64
        ∧ (63#8 : Byte).toNat + (2#8 : Byte).toNat ≤ 64) := by decide

/-- SessionDisciplineRefused: both clauses. -/
theorem test_witness_SessionDisciplineRefused :
    ((idle []).phase = .idle ∧ (Instr.txByte 0xAA#8).wf = true ∧ (idle []).sess = .closed)
      ∧ ((opened [] []).phase = .idle ∧ Instr.clear.wf = true ∧ (opened [] []).sess = .opened
        ∧ Instr.clear ≠ .endSess ∧ ∀ v, Instr.clear ≠ .txByte v) := by
  refine ⟨by decide, rfl, rfl, rfl, by decide, by simp⟩

/-- StepRunsDecodedWord: a word in its domain and one outside it. -/
theorem test_witness_StepRunsDecodedWord :
    ((idle []).withFetchWord 32 0x20050200).phase = .idle
      ∧ ((idle []).withFetchWord 32 0x20050200).host = [.word 0x20050200#32]
      ∧ decode 0x20050200#32 = .ok (.setPos 5#8 2#8) ∧ decode 0x20800000#32 = .ok (.setPos 128#8 0#8) := by decide

theorem test_witness_IdleWithoutWordWaits : (idle []).phase = .idle ∧ (idle []).host = [] := by decide

/-- A state stuck inside its address step, as V14 leaves it. -/
def stalled : State := { opened [] [] with phase := .run, pending := some ⟨.addr, 0x78#8⟩ }

theorem test_witness_StuckUnlessReset : stalled.stuck ∧ stalled.host.head? ≠ some .rst := by
  unfold State.stuck; decide

/-- ResetInput: with a session open and with none. -/
theorem test_witness_ResetInput :
    (({ stalled with host := [.rst] } : State).host = [.rst] ∧ stalled.sess = .opened)
      ∧ ({ idle [] with host := [.rst] } : State).host = [.rst] ∧ (idle []).sess = .closed := by decide

/-- ResetInsideOperation. -/
theorem test_witness_ResetInsideOperation :
    ({ idle (oks 14) with host := [.wordThenRst 0x30000A03#32 9] } : State).host = .wordThenRst 0x30000A03#32 9 :: []
      ∧ decode 0x30000A03#32 = .ok (.drawH 0#8 10#8 3#8)
      ∧ Accepts (.drawH 0#8 10#8 3#8) { idle (oks 14) with host := [.wordThenRst 0x30000A03#32 9] } := by
  refine ⟨rfl, by decide, rfl, by decide, rfl⟩

/-- CompoundSessionsPaired: the eight compound operations. -/
theorem test_witness_CompoundSessionsPaired : ∀ i ∈ ([.setPos 0#8 0#8, .drawH 0#8 0#8 1#8, .drawV 0#8 0#8 1#8, .init,
    .clear, .pwrOff, .pwrOn, .contrast 0#8] : List Instr), needsSess i = .closed ∧ sessAfter i = .closed := by decide

/-- BeginCompletes, OpenCmdCompletes, OpenDataCompletes: the refused clause. -/
theorem test_witness_sessionOpen : (opened [] []).phase = .idle ∧ (opened [] []).sess = .opened := by decide
/-- TxByteCompletes, EndCompletes: the refused clause. -/
theorem test_witness_sessionClosed : (idle []).phase = .idle ∧ (idle []).sess = .closed := by decide
/-- EndCompletes: the clause of the stop that never completes (V15). -/
theorem test_witness_EndStalls : (opened [.never] []).phase = .idle ∧ (opened [.never] []).sess = .opened
    ∧ (opened [.never] []).answers.next = .never := by decide
theorem test_witness_BeginCompletes : (idle (oks 2)).phase = .idle ∧ (idle (oks 2)).sess = .closed
    ∧ AllComplete (idle (oks 2)) 2 := ⟨rfl, rfl, idle_complete 2⟩

/-- TxByteCompletes, EndCompletes. -/
theorem test_witness_TxByteCompletes : (opened (oks 1) []).phase = .idle ∧ (opened (oks 1) []).sess = .opened
    ∧ AllComplete (opened (oks 1) []) 1 := ⟨rfl, rfl, opened_complete 1 []⟩
/-- OpenCmdCompletes, OpenDataCompletes. -/
theorem test_witness_OpenCmdCompletes : (idle (oks 3)).phase = .idle ∧ (idle (oks 3)).sess = .closed
    ∧ AllComplete (idle (oks 3)) 3 := ⟨rfl, rfl, idle_complete 3⟩
/-- SetPosPositions, at both ends of both operands. -/
theorem test_witness_SetPosPositions : (idle (oks 7)).phase = .idle ∧ (idle (oks 7)).sess = .closed
    ∧ (0#8 : Byte).toNat ≤ 127 ∧ (127#8 : Byte).toNat ≤ 127 ∧ (0#8 : Byte).toNat ≤ 7 ∧ (7#8 : Byte).toNat ≤ 7
    ∧ (idle (oks 7)).params.disjoint = true ∧ AllOk (idle (oks 7)) 7 :=
  ⟨rfl, rfl, by decide, by decide, by decide, by decide, by decide, idle_ok 7⟩
/-- PwrOnSwitchesOn, PwrOffSwitchesOff. -/
theorem test_witness_PwrOnSwitchesOn : (idle (oks 5)).phase = .idle ∧ (idle (oks 5)).sess = .closed
    ∧ (idle (oks 5)).params.disjoint = true ∧ AllOk (idle (oks 5)) 5 := ⟨rfl, rfl, by decide, idle_ok 5⟩
theorem test_witness_ContrastSetsValue : (idle (oks 6)).phase = .idle ∧ (idle (oks 6)).sess = .closed
    ∧ (idle (oks 6)).params.disjoint = true ∧ AllOk (idle (oks 6)) 6 := ⟨rfl, rfl, by decide, idle_ok 6⟩
theorem test_witness_InitConfigures : (idle (oks 23)).phase = .idle ∧ (idle (oks 23)).sess = .closed
    ∧ AllOk (idle (oks 23)) (10 + (idle (oks 23)).params.initSeq.length) := ⟨rfl, rfl, idle_ok 23⟩

/-- What the raster statements ask of the state: idle, closed, disjoint parameters, configured, canonical. -/
theorem idle_draws (n : Nat) : (idle (oks n)).phase = .idle ∧ (idle (oks n)).sess = .closed
    ∧ (idle (oks n)).params.disjoint = true ∧ (idle (oks n)).dev.cfg = .configured
    ∧ (idle (oks n)).dev.gddram.wf = true ∧ AllOk (idle (oks n)) n :=
  ⟨rfl, rfl, show gk.disjoint = true by decide, rfl, rfl, idle_ok n⟩

/-- DrawHDrawsLine, DrawHClobbersPage: a line that ends at column 126 in the last row (first cursor clause), and one that
ends at the last column above the last page (second clause). -/
theorem test_witness_DrawHDrawsLine :
    ((126#8 : Byte).toNat ≤ 127 ∧ (63#8 : Byte).toNat ≤ 63 ∧ 1 ≤ (1#8 : Byte).toNat
        ∧ (126#8 : Byte).toNat + (1#8 : Byte).toNat ≤ 127 ∧ (idle (oks 12)).phase = .idle ∧ (idle (oks 12)).sess = .closed
        ∧ (idle (oks 12)).params.disjoint = true ∧ (idle (oks 12)).dev.cfg = .configured
        ∧ (idle (oks 12)).dev.gddram.wf = true ∧ AllOk (idle (oks 12)) (11 + (1#8 : Byte).toNat))
      ∧ (120#8 : Byte).toNat ≤ 127 ∧ (55#8 : Byte).toNat ≤ 55 ∧ 1 ≤ (8#8 : Byte).toNat
        ∧ (120#8 : Byte).toNat + (8#8 : Byte).toNat = 128 ∧ (idle (oks 19)).phase = .idle ∧ (idle (oks 19)).sess = .closed
        ∧ (idle (oks 19)).params.disjoint = true ∧ (idle (oks 19)).dev.cfg = .configured
        ∧ (idle (oks 19)).dev.gddram.wf = true ∧ AllOk (idle (oks 19)) (11 + (8#8 : Byte).toNat) :=
  ⟨⟨by decide, by decide, by decide, by decide, idle_draws 12⟩, by decide, by decide, by decide, by decide, idle_draws 19⟩

/-- DrawVDrawsLine, DrawVLightsRows: the whole height at column 126 (first cursor clause, eight pages), and one page at
column 127 above the last page (second clause). -/
theorem test_witness_DrawVDrawsLine :
    ((126#8 : Byte).toNat ≤ 126 ∧ (0#8 : Byte).toNat ≤ 63 ∧ 1 ≤ (64#8 : Byte).toNat
        ∧ (0#8 : Byte).toNat + (64#8 : Byte).toNat ≤ 64 ∧ (emit gk (.drawV 126#8 0#8 64#8)).length = 96
        ∧ (idle (oks 96)).phase = .idle ∧ (idle (oks 96)).sess = .closed ∧ (idle (oks 96)).params.disjoint = true
        ∧ (idle (oks 96)).dev.cfg = .configured ∧ (idle (oks 96)).dev.gddram.wf = true ∧ AllOk (idle (oks 96)) 96)
      ∧ (127#8 : Byte).toNat = 127 ∧ (48#8 : Byte).toNat / 8 + pageCount 48#8 8#8 ≤ 7 ∧ 1 ≤ (8#8 : Byte).toNat
        ∧ (48#8 : Byte).toNat + (8#8 : Byte).toNat ≤ 64 ∧ (emit gk (.drawV 127#8 48#8 8#8)).length = 12
        ∧ (idle (oks 12)).phase = .idle ∧ (idle (oks 12)).sess = .closed ∧ (idle (oks 12)).params.disjoint = true
        ∧ (idle (oks 12)).dev.cfg = .configured ∧ (idle (oks 12)).dev.gddram.wf = true ∧ AllOk (idle (oks 12)) 12 :=
  ⟨⟨by decide, by decide, by decide, by decide, by decide, idle_draws 96⟩,
    by decide, by decide, by decide, by decide, by decide, idle_draws 12⟩

theorem test_witness_ClearBlanksDisplay : (idle (oks 1035)).phase = .idle ∧ (idle (oks 1035)).sess = .closed
    ∧ (idle (oks 1035)).params.disjoint = true ∧ (idle (oks 1035)).dev.cfg = .configured
    ∧ (idle (oks 1035)).dev.gddram.wf = true ∧ AllOk (idle (oks 1035)) 1035 := idle_draws 1035

/-- FailedCommandSessionHavocs: `PWRON` with a failed address byte (P4), and `INIT` with a failed start. -/
theorem test_witness_FailedCommandSessionHavocs :
    (Accepts .pwrOn (idle [.ok, .fail, .ok, .ok, .ok]) ∧ AllComplete (idle [.ok, .fail, .ok, .ok, .ok]) 5
        ∧ nackIn (idle [.ok, .fail, .ok, .ok, .ok]).answers.peek (emit gk .pwrOn) = true)
      ∧ Accepts .init (idle (.fail :: oks 22)) ∧ AllComplete (idle (.fail :: oks 22)) 23
        ∧ nackIn (idle (.fail :: oks 22)).answers.peek (emit gk .init) = true := by
  unfold Accepts AllComplete; decide

/-- FailedDataSessionHavocs: `DRAWH` with the start of its data session failed (its first request), and with its last data
byte failed. -/
theorem test_witness_FailedDataSessionHavocs :
    Accepts (.drawH 0#8 10#8 3#8) (idle (oks 7 ++ [.fail] ++ oks 6))
      ∧ AllComplete (idle (oks 7 ++ [.fail] ++ oks 6)) (emit gk (.drawH 0#8 10#8 3#8)).length
      ∧ (sessionsOf gk (.drawH 0#8 10#8 3#8)).getLast? = some (0x40#8, [0x04#8, 0x04#8, 0x04#8])
      ∧ (emit gk (.drawH 0#8 10#8 3#8)).length ≤ 7 + (3 + 4)
      ∧ (idle (oks 7 ++ [.fail] ++ oks 6)).answers.peek 7 = .fail
      ∧ AllComplete (idle (oks 12 ++ [.fail] ++ oks 1)) (emit gk (.drawH 0#8 10#8 3#8)).length
      ∧ 12 + 1 < (emit gk (.drawH 0#8 10#8 3#8)).length
      ∧ (idle (oks 12 ++ [.fail] ++ oks 1)).answers.peek 12 = .fail := by
  unfold Accepts AllComplete; decide

/-- FailedDataSessionHavocs: `DRAWV` over two pages, the byte of the second page failed, and the position of the first. -/
theorem test_witness_FailedDataSessionHavocs_drawV :
    Accepts (.drawV 127#8 7#8 2#8) (idle (oks 22 ++ [.fail] ++ oks 1))
      ∧ AllComplete (idle (oks 22 ++ [.fail] ++ oks 1)) (emit gk (.drawV 127#8 7#8 2#8)).length
      ∧ (sessionsOf gk (.drawV 127#8 7#8 2#8)).getLast? = some (0x40#8, [0x7F#8])
      ∧ (emit gk (.drawV 127#8 7#8 2#8)).length ≤ 22 + (1 + 4) ∧ 22 + 1 < (emit gk (.drawV 127#8 7#8 2#8)).length
      ∧ (idle (oks 22 ++ [.fail] ++ oks 1)).answers.peek 22 = .fail
      ∧ AllComplete (idle (oks 3 ++ [.fail] ++ oks 20)) (emit gk (.drawV 127#8 7#8 2#8)).length
      ∧ (idle (oks 3 ++ [.fail] ++ oks 20)).answers.peek 3 = .fail := by
  unfold Accepts AllComplete; decide

/-- FailedDataSessionHavocs: `CLEAR` with the start of its position session failed (and every session's length). -/
theorem test_witness_FailedDataSessionHavocs_clear : Accepts .clear (idle (.fail :: oks 1034))
    ∧ AllComplete (idle (.fail :: oks 1034)) 1035 ∧ (idle (.fail :: oks 1034)).answers.peek 0 = .fail := by
  refine ⟨⟨rfl, rfl, rfl⟩, ?_, rfl⟩
  intro k hk
  cases k with
  | zero => simp [idle, Answers.peek, Answers.next]
  | succ k => exact idle_complete 1034 k (by omega)

/-- StallLeavesRunning: `OPENCMD` stalled at its first and at its second request. -/
theorem test_witness_StallLeavesRunning : (idle [.ok, .never]).Inv ∧ Accepts .openCmd (idle [.ok, .never])
    ∧ (emit gk .openCmd)[1]? = some ⟨.addr, 0x78#8⟩
    ∧ (∀ j, j < 1 → (idle [.ok, .never]).answers.peek j ≠ .never) ∧ (idle [.ok, .never]).answers.peek 1 = .never
    ∧ (emit gk .openCmd)[0]? = some ⟨.start, 0#8⟩ ∧ (idle [.never]).answers.peek 0 = .never := by
  refine ⟨⟨by decide, by decide, by decide, by simp [idle, State.reset], rfl⟩, ?_, by decide, by decide, by decide,
    by decide, by decide⟩
  unfold Accepts; decide

/-- OpenSessionFrame: each of its four operations completed, and one stalled. -/
theorem test_witness_OpenSessionFrame : (∃ t, exec .beginSess (idle (oks 2)) = .next t ∧ t.phase = .idle)
    ∧ (∃ t, exec (.txByte 0#8) (opened (oks 1) []) = .next t ∧ t.phase = .idle)
    ∧ (∃ t, exec .openCmd (idle (oks 3)) = .next t ∧ t.phase = .idle)
    ∧ (∃ t, exec .openData (idle (oks 3)) = .next t ∧ t.phase = .idle)
    ∧ ∃ t, exec .openCmd (idle [.ok, .never]) = .next t ∧ t.phase = .run :=
  ⟨⟨_, rfl, rfl⟩, ⟨_, rfl, rfl⟩, ⟨_, rfl, rfl⟩, ⟨_, rfl, rfl⟩, _, rfl, rfl⟩

/-- CommandFrame: each of its four operations. -/
theorem test_witness_CommandFrame : ∀ i ∈ ([.setPos 127#8 7#8, .pwrOn, .pwrOff, .contrast 0xFF#8] : List Instr),
    (ready i).params.disjoint = true ∧ NoneFails (ready i) (emit (ready i).params i).length
      ∧ ∃ t, exec i (ready i) = .next t ∧ t.phase = .idle := by
  intro i hi
  refine ⟨by rw [ready_params]; decide, ok_noneFails (ready_ok i), finalState i (ready i),
    exec_finalState i _ (ready_accepts i ?_) (allOk_complete (ready_ok i)), rfl⟩
  revert i; decide

theorem test_witness_DrawHFrame : (idle (oks 12)).params.disjoint = true ∧ (idle (oks 12)).dev.cfg = .configured
    ∧ (idle (oks 12)).dev.gddram.wf = true ∧ NoneFails (idle (oks 12)) (11 + (1#8 : Byte).toNat)
    ∧ ∃ t, exec (.drawH 127#8 63#8 1#8) (idle (oks 12)) = .next t ∧ t.phase = .idle :=
  ⟨by decide, rfl, rfl, ok_noneFails (idle_ok 12), _, rfl, rfl⟩

theorem test_witness_DrawVFrame : (idle (oks 12)).params.disjoint = true ∧ (idle (oks 12)).dev.cfg = .configured
    ∧ (idle (oks 12)).dev.gddram.wf = true
    ∧ NoneFails (idle (oks 12)) (emit (idle (oks 12)).params (.drawV 127#8 63#8 1#8)).length
    ∧ ∃ t, exec (.drawV 127#8 63#8 1#8) (idle (oks 12)) = .next t ∧ t.phase = .idle :=
  ⟨by decide, rfl, rfl, ok_noneFails (idle_ok 12), _, rfl, rfl⟩

/-- The events of an acknowledged session so far, newest first, its data bytes `bytes`. -/
def acked (bytes : List Byte) : List Event :=
  (bytes.reverse.flatMap fun b => [.rsp .ok, .req ⟨.data, b⟩])
    ++ [.rsp .ok, .req ⟨.addr, 0x78#8⟩, .rsp .ok, .req ⟨.start, 0#8⟩]

/-- The state in which an acknowledged session of the data bytes `bytes` is open, the device's cursor at (col, page). -/
def sent (bytes : List Byte) (col : Fin 128) (page : Fin 8) : State :=
  { opened (oks 1) (acked bytes) with dev := { dev with col := col, page := page } }

theorem sent_complete (bytes : List Byte) (col : Fin 128) (page : Fin 8) : AllComplete (sent bytes col page) 1 :=
  allOk_complete fun k h => peek_replicate_ok 1 0 k h

/-- EndStoresDataSession: one byte at the first address, at the last but one (the cursor clause), and at the last. -/
theorem test_witness_EndStoresDataSession : ∀ place ∈ ([(0, 0), (126, 7), (127, 7)] : List (Fin 128 × Fin 8)),
    (sent [0x40#8, 0xAA#8] place.1 place.2).phase = .idle ∧ (sent [0x40#8, 0xAA#8] place.1 place.2).sess = .opened
      ∧ sessionFailed (sessionOf (sent [0x40#8, 0xAA#8] place.1 place.2).events) = false
      ∧ sessionAddrs (sessionOf (sent [0x40#8, 0xAA#8] place.1 place.2).events)
          = [(sent [0x40#8, 0xAA#8] place.1 place.2).params.devAddrW]
      ∧ sessionData (sessionOf (sent [0x40#8, 0xAA#8] place.1 place.2).events) = 0x40#8 :: [0xAA#8]
      ∧ (sent [0x40#8, 0xAA#8] place.1 place.2).dev.cfg = .configured
      ∧ (sent [0x40#8, 0xAA#8] place.1 place.2).dev.gddram.wf = true
      ∧ (sent [0x40#8, 0xAA#8] place.1 place.2).dev.cursorAddr + [0xAA#8].length ≤ 1024
      ∧ AllComplete (sent [0x40#8, 0xAA#8] place.1 place.2) 1 :=
  fun _ _ => ⟨rfl, rfl, rfl, rfl, rfl, rfl, rfl, cursorAddr_lt _, sent_complete _ _ _⟩

/-- EndHavocsBadSession: a failed byte; no address byte; no control byte; a control byte that is neither. -/
theorem test_witness_EndHavocsBadSession :
    sessionFailed (sessionOf (opened (oks 1) [.err .data, .rsp .fail, .req ⟨.data, 0x40#8⟩]).events) = true
      ∧ sessionAddrs (sessionOf (opened (oks 1) []).events) ≠ [(opened (oks 1) []).params.devAddrW]
      ∧ sessionData (sessionOf (sent [] 0 0).events) = []
      ∧ sessionData (sessionOf (sent [0x80#8, 0x01#8] 0 0).events) = [0x80#8, 0x01#8]
      ∧ (opened (oks 1) []).phase = .idle ∧ (opened (oks 1) []).sess = .opened
      ∧ (sent [] 0 0).phase = .idle ∧ (sent [] 0 0).sess = .opened := by decide

/-- EndOfEmptySessionKeepsDevice: both streams. -/
theorem test_witness_EndOfEmptySessionKeepsDevice : ∀ c ∈ [0x00#8, 0x40#8],
    (sent [c] 0 0).phase = .idle ∧ (sent [c] 0 0).sess = .opened
      ∧ sessionFailed (sessionOf (sent [c] 0 0).events) = false
      ∧ sessionAddrs (sessionOf (sent [c] 0 0).events) = [(sent [c] 0 0).params.devAddrW]
      ∧ sessionData (sessionOf (sent [c] 0 0).events) = [c] := by decide

/-- EndHavocsUnknownCommand: an unknown byte and a contrast opcode without its value, each alone and behind commands of
every row of R59's table. -/
theorem test_witness_EndHavocsUnknownCommand : ∀ known ∈ ([[], [[0xB7#8], [0x17#8], [0x0F#8], [0xAE#8], [0xAF#8],
    [0x81#8, 0xE3#8]]] : List (List (List Byte))), ∀ b ∈ [0xE3#8, 0x81#8],
    (sent (0x00#8 :: (known.flatten ++ [b])) 0 0).phase = .idle
      ∧ (sent (0x00#8 :: (known.flatten ++ [b])) 0 0).sess = .opened
      ∧ (∀ c ∈ known, isCommand (sent (0x00#8 :: (known.flatten ++ [b])) 0 0).params c = true)
      ∧ known.flatten ++ [b] ≠ (sent (0x00#8 :: (known.flatten ++ [b])) 0 0).params.initPayload
      ∧ sessionFailed (sessionOf (sent (0x00#8 :: (known.flatten ++ [b])) 0 0).events) = false
      ∧ sessionAddrs (sessionOf (sent (0x00#8 :: (known.flatten ++ [b])) 0 0).events)
          = [(sent (0x00#8 :: (known.flatten ++ [b])) 0 0).params.devAddrW]
      ∧ sessionData (sessionOf (sent (0x00#8 :: (known.flatten ++ [b])) 0 0).events) = 0x00#8 :: (known.flatten ++ [b])
      ∧ ((isColHi (sent (0x00#8 :: (known.flatten ++ [b])) 0 0).params b = false ∧ isOtherFirstByte b = false)
          ∨ b = 0x81#8) := by
  decide

/-- A state whose device is not configured. -/
def unconfigured (s : State) : State := { s with dev := { s.dev with cfg := .unconfigured } }

/-- UnconfiguredDataHavocs: the `END` of a data session of one byte. -/
theorem test_witness_UnconfiguredDataHavocs_end : (unconfigured (sent [0x40#8, 0xAA#8] 5 2)).phase = .idle
    ∧ (unconfigured (sent [0x40#8, 0xAA#8] 5 2)).dev.cfg = .unconfigured
    ∧ (unconfigured (sent [0x40#8, 0xAA#8] 5 2)).sess = .opened ∧ AllComplete (unconfigured (sent [0x40#8, 0xAA#8] 5 2)) 1
    ∧ sessionFailed (sessionOf (unconfigured (sent [0x40#8, 0xAA#8] 5 2)).events) = false
    ∧ sessionAddrs (sessionOf (unconfigured (sent [0x40#8, 0xAA#8] 5 2)).events)
        = [(unconfigured (sent [0x40#8, 0xAA#8] 5 2)).params.devAddrW]
    ∧ sessionData (sessionOf (unconfigured (sent [0x40#8, 0xAA#8] 5 2)).events) = 0x40#8 :: 0xAA#8 :: [] :=
  ⟨rfl, rfl, rfl, sent_complete [0x40#8, 0xAA#8] 5 2, rfl, rfl, rfl⟩

/-- UnconfiguredDataHavocs: each of the three drawing operations. -/
theorem test_witness_UnconfiguredDataHavocs : ∀ i ∈ ([.drawH 127#8 63#8 1#8, .drawV 127#8 63#8 1#8, .clear] : List Instr),
    (unconfigured (ready i)).dev.cfg = .unconfigured ∧ Accepts i (unconfigured (ready i))
      ∧ (unconfigured (ready i)).params.disjoint = true
      ∧ AllOk (unconfigured (ready i)) (emit (unconfigured (ready i)).params i).length := by
  intro i hi
  have hw : i.wf = true := by revert i; decide
  exact ⟨rfl, ready_accepts i hw, by show (ready i).params.disjoint = true; rw [ready_params]; decide, ready_ok i⟩

/-- PageSpan, GeometricLineIff: at both ends of the domain. -/
theorem test_witness_PageSpan :
    ((63#8 : Byte).toNat ≤ 63 ∧ 1 ≤ (1#8 : Byte).toNat ∧ (63#8 : Byte).toNat + (1#8 : Byte).toNat ≤ 64)
      ∧ (0#8 : Byte).toNat ≤ 63 ∧ 1 ≤ (64#8 : Byte).toNat ∧ (0#8 : Byte).toNat + (64#8 : Byte).toNat ≤ 64 := by decide

/-- StepKeepsInv, StepKeepsBracketed, StepKeepsParams, ErrfSticky, TraceOnlyGrows, DeviceChangesOnlyAtDone: a state that
meets the invariants, has `ERRF` set, is not reset, and answers a next state with no `Done` in it. -/
theorem test_witness_StepKeepsInv :
    State.Inv { idle (oks 2) with host := [.word 0x01000000#32], errf := true, events := [.irqOn, .done, .err .data, .irqOff] }
      ∧ State.Bracketed { idle (oks 2) with
          host := [.word 0x01000000#32], errf := true, events := [.irqOn, .done, .err .data, .irqOff] }
      ∧ NoReset { idle (oks 2) with
          host := [.word 0x01000000#32], errf := true, events := [.irqOn, .done, .err .data, .irqOff] }
      ∧ nextIs (step { idle (oks 2) with
          host := [.word 0x01000000#32], errf := true, events := [.irqOn, .done, .err .data, .irqOff] })
          (fun t => decide (t.events.count .done = 1 ∧ t.errf = true)) = true := by
  refine ⟨⟨by decide, by decide, by decide, ?_, rfl⟩, ⟨by decide, by decide⟩, ?_, by decide⟩
  rotate_left
  · intro m hm; cases hm; rfl
  exact ⟨fun _ => ⟨.data, by decide⟩, fun _ => rfl⟩

theorem test_witness_BootBlanksDisplay : (idle (oks 1058)).phase = .idle ∧ (idle (oks 1058)).sess = .closed
    ∧ (idle (oks 1058)).errf = false ∧ (idle (oks 1058)).params.disjoint = true
    ∧ AllOk (idle (oks 1058)) (10 + (idle (oks 1058)).params.initSeq.length + 1035) :=
  ⟨rfl, rfl, rfl, show gk.disjoint = true by decide, idle_ok 1058⟩

end Sys2Proof.Tests
end

section
/-! PROOFS. The statements about the state: what a run of micro-steps keeps whether it completes or stalls, what an
operation leaves alone, and the invariants of a step (spec/10_state.md). -/

namespace Sys2Proof.Machine

/-! ## What a run of micro-steps keeps, stalled or not -/

/-- The latches, the parameters and the host's later moves are written by no micro-step. -/
theorem runMicros_fixed (ms : List Micro) (s : State) :
    (runMicros ms s).params = s.params ∧ (runMicros ms s).host = s.host ∧ (runMicros ms s).op = s.op
      ∧ (runMicros ms s).ra = s.ra ∧ (runMicros ms s).rb = s.rb ∧ (runMicros ms s).rc = s.rc := by
  rcases runMicros_cases ms s with ⟨hr, -⟩ | ⟨pre, m, post, k, d, -, -, -, -, hr⟩
  · obtain ⟨hparams, hhost, hop, hra, hrb, hrc, -⟩ := runDone_fixed ms s
    rw [hr]; exact ⟨hparams, hhost, hop, hra, hrb, hrc⟩
  · obtain ⟨hparams, hhost, hop, hra, hrb, hrc, -⟩ := runDone_fixed pre s
    rw [hr]; exact ⟨hparams, hhost, hop, hra, hrb, hrc⟩

@[simp] theorem runMicros_params (ms : List Micro) (s : State) : (runMicros ms s).params = s.params :=
  (runMicros_fixed ms s).1

/-- `TRACE` after a run is `TRACE` before it, then the events of its actions (R32). -/
theorem runMicros_trace (ms : List Micro) (s : State) :
    (runMicros ms s).trace = s.trace ++ actTrace s.answers.peek (ms.map (·.act)) := by
  simp [State.trace, runMicros_events]

theorem complete_errf_of_errf (k : Kind) (st : Status) (s : State) (h : s.errf = true) :
    (s.complete k st).errf = true := by
  cases k with
  | stop => exact h
  | start | addr | data =>
    cases st with
    | ok => exact h
    | fail => rfl

theorem microDone_errf_of_errf (m : Micro) (s : State) (h : s.errf = true) : (s.microDone m).errf = true := by
  obtain ⟨a, r⟩ := m
  cases a with
  | irqOff => simpa [State.microDone] using h
  | irqOn => simpa [State.microDone] using h
  | step k d => simpa [State.microDone] using complete_errf_of_errf k _ (s.request k d) h

/-- No micro-step clears `ERRF` (R27). -/
theorem runMicros_errf_of_errf (ms : List Micro) (s : State) (h : s.errf = true) : (runMicros ms s).errf = true :=
  runMicros_induct (·.errf = true) ms s h (fun m _ t ht => microDone_errf_of_errf m t ht)
    (fun _ _ _ _ _ _ ht => ht) (fun _ ht => ht)

/-- A run whose register writes are all of `CNT` keeps `MS`, `ME` and `PG` (R22). -/
theorem runMicros_masks_pg (ms : List Micro) (s : State) (h : ∀ m ∈ ms, ∀ r ∈ m.regs, r.cntOnly = true) :
    (runMicros ms s).ms = s.ms ∧ (runMicros ms s).me = s.me ∧ (runMicros ms s).pg = s.pg := by
  refine runMicros_induct (fun t => t.ms = s.ms ∧ t.me = s.me ∧ t.pg = s.pg) ms s ⟨rfl, rfl, rfl⟩ ?_
    (fun _ _ _ _ _ _ ht => ht) (fun _ ht => ht)
  rintro m hm t ⟨hms, hme, hpg⟩
  obtain ⟨dms, dme, dpg, -⟩ := microDone_regs m t
  obtain ⟨kms, kme, kpg⟩ := foldl_regs_keep m.regs t (h m hm)
  exact ⟨(dms.trans kms).trans hms, (dme.trans kme).trans hme, (dpg.trans kpg).trans hpg⟩

/-- A run that writes no working register keeps `CNT` (R22). -/
theorem runMicros_cnt (ms : List Micro) (s : State) (h : ∀ m ∈ ms, m.regs = []) :
    (runMicros ms s).cnt = s.cnt := by
  refine runMicros_induct (·.cnt = s.cnt) ms s rfl ?_ (fun _ _ _ _ _ _ ht => ht) (fun _ ht => ht)
  intro m hm t ht
  obtain ⟨-, -, -, dcnt⟩ := microDone_regs m t
  rw [dcnt, h m hm]
  exact ht

/-! ## What an operation leaves -/

/-- The register writes of a counted loop are of `CNT` only (R153, R183). -/
theorem countedData_cntOnly (p : Params) (n : Nat) (v : Byte) :
    ∀ r ∈ (countedData p n v).flatMap (·.regs), r.cntOnly = true := by
  rw [countedData_regs]
  intro r hr
  rcases List.mem_cons.mp hr with rfl | hr
  · rfl
  · rw [List.eq_of_mem_replicate hr]; rfl

/-- Only `DRAWV` writes a working register other than `CNT` (R22). -/
theorem microsOf_cntOnly (p : Params) (i : Instr) (h : ∀ x y len, i ≠ .drawV x y len) :
    ∀ r ∈ (microsOf p i).flatMap (·.regs), r.cntOnly = true := by
  have hline : ∀ (x v : Byte) (page n : Nat),
      ∀ r ∈ (positionMicros p x page [] ++ countedData p n v).flatMap (·.regs), r.cntOnly = true := by
    intro x v page n
    rw [List.flatMap_append, positionMicros, cmdSession_regs]
    exact countedData_cntOnly p n v
  by_cases hH : ∃ x y len, i = .drawH x y len
  · obtain ⟨x, y, len, rfl⟩ := hH
    exact hline x (rowByte y) (pageOf y) len.toNat
  · by_cases hC : i = .clear
    · subst hC
      exact hline 0#8 0#8 0 Config.frameBytes
    · rw [microsOf_noRegs p i h (fun x y len e => hH ⟨x, y, len, e⟩) hC]
      simp

/-- `IE` after a completed operation, where `IE` and `SESS` agreed before it (R26). -/
theorem finalState_ie_of_agree (i : Instr) (s : State) (h : Accepts i s)
    (hc : AllComplete s (emit s.params i).length) (hie : s.ie = false ↔ s.sess = .opened) :
    (finalState i s).ie = decide (sessAfter i = .closed) := by
  have hagree : s.ie = decide (s.sess = .closed) := by
    cases hs : s.sess with
    | closed => simpa [hs] using hie
    | opened => simpa [hs] using hie
  rw [← finalState_sess i s h hc]
  exact runDone_ie (microsOf s.params i) (s.accept (encode i)) hagree

/-- Settles O32: the final state's fields but `IE` are known for every operation; `IE` agrees with `SESS` throughout. -/
theorem everyOperationCompletes : Obligations.EveryOperationCompletes := by
  intro i s h hc hie
  refine ⟨finalState i s, exec_finalState i s h hc, (finalState_eq i s h hc).trans ?_⟩
  rw [finalState_ie_of_agree i s h hc hie]
  rfl

/-- Settles O37: each clause is one of the facts above about the micro-steps run from acceptance. -/
theorem operationFrame : Obligations.OperationFrame := by
  intro i s t h
  obtain ⟨-, rfl⟩ := exec_next i s t h
  obtain ⟨hparams, hhost, hop, hra, hrb, hrc⟩ := runMicros_fixed (microsOf s.params i) (s.accept (encode i))
  refine ⟨hparams, hhost, runMicros_errf_of_errf _ (s.accept (encode i)), ?_, ?_, ?_, ?_, fun hV => ?_, fun hV hH hC => ?_⟩
  · rw [hop, accept_op, fieldOp_encode]
  · rw [hra, accept_ra, fieldA_encode]
  · rw [hrb, accept_rb, fieldB_encode]
  · rw [hrc, accept_rc, fieldC_encode]
  · exact runMicros_masks_pg _ _ fun m hm r hr =>
      microsOf_cntOnly s.params i hV r (List.mem_flatMap.mpr ⟨m, hm, hr⟩)
  · exact runMicros_cnt _ _ (List.flatMap_eq_nil_iff.mp (microsOf_noRegs s.params i hV hH hC))

/-! ## What a step keeps -/

/-- But for a reset, a step stays where it is or runs micro-steps from a state with the `ERRF` and the `TRACE` it found
(R23, R117). -/
theorem step_cases_of_noReset {s t : State} (hn : NoReset s) (h : step s = .next t) :
    t = s ∨ ∃ ms u, t = runMicros ms u ∧ u.errf = s.errf ∧ u.events = s.events := by
  rcases step_cases h with ⟨rest, hh, -⟩ | rfl | ⟨w, rest, i, -, -, -, hx⟩ | ⟨w, n, rest, i, hh, -⟩ | ⟨i, -, -, -, rfl⟩
  · exact absurd (hn _ (by rw [hh]; rfl)) (by decide)
  · exact .inl rfl
  · obtain ⟨-, rfl⟩ := exec_next i _ t hx
    exact .inr ⟨_, _, rfl, rfl, rfl⟩
  · exact absurd (hn _ (by rw [hh]; rfl)) (by simp [HostMove.resets])
  · exact .inr ⟨_, _, rfl, rfl, rfl⟩

/-- Settles O55: neither a micro-step nor a reset writes the parameters. -/
theorem stepKeepsParams : Obligations.StepKeepsParams := by
  intro s t h
  rcases step_cases h with ⟨rest, -, rfl⟩ | rfl | ⟨w, rest, i, -, -, -, hx⟩ | ⟨w, n, rest, i, -, -, -, hx⟩
    | ⟨i, -, -, -, rfl⟩
  · rfl
  · rfl
  · obtain ⟨-, rfl⟩ := exec_next i _ t hx
    simp
  · obtain ⟨-, rfl⟩ := cutShort_next hx
    simp
  · simp

/-- Settles O56: a step without a reset stays, or runs micro-steps, none of which clears `ERRF`. -/
theorem errfSticky : Obligations.ErrfSticky := by
  intro s t hn h herr
  rcases step_cases_of_noReset hn h with rfl | ⟨ms, u, rfl, hu, -⟩
  · exact herr
  · exact runMicros_errf_of_errf ms u (hu.trans herr)

/-- Settles O57: a step without a reset stays, or runs micro-steps, which append their events. -/
theorem traceOnlyGrows : Obligations.TraceOnlyGrows := by
  intro s t hn h
  rcases step_cases_of_noReset hn h with rfl | ⟨ms, u, rfl, -, hu⟩
  · exact List.prefix_rfl
  · have htrace : u.trace = s.trace := congrArg List.reverse hu
    rw [runMicros_trace, htrace]
    exact List.prefix_append ..

/-- Settles O8: the sequencer's task is that operation. -/
theorem stepRunsDecodedWord : Obligations.StepRunsDecodedWord := by
  intro s w rest i hp hh hd
  have htask : s.task = .operation i { s with host := rest } := by simp [State.task, hh, hp, hd]
  rw [step, htask]

/-- Settles O9: the sequencer's task is to answer the same state. -/
theorem idleWithoutWordWaits : Obligations.IdleWithoutWordWaits := by
  intro s hp hh
  have htask : s.task = .answer (.next s) := by simp [State.task, hh, hp]
  rw [step, htask]

/-! ## The machine invariant -/

/-- The clauses of `State.Inv` that hold between two micro-steps as well: they do not speak of `PHASE` and `PENDING`. -/
def State.MicroInv (s : State) : Prop :=
  (s.ie = false ↔ s.sess = .opened) ∧ (s.errf = true ↔ ∃ k, Event.err k ∈ s.events) ∧ s.dev.gddram.wf = true

theorem inv_iff (s : State) :
    s.Inv ↔ s.MicroInv ∧ (s.phase = .run ↔ s.pending.isSome = true) ∧ (s.phase = .run → s.sess = .opened) := by
  simp only [State.Inv, State.MicroInv]
  tauto

theorem irqOff_microInv {s : State} (h : s.MicroInv) : s.irqOff.MicroInv := by
  obtain ⟨-, herr, hwf⟩ := h
  exact ⟨by simp, by simpa using herr, hwf⟩

theorem irqOn_microInv {s : State} (h : s.MicroInv) : s.irqOn.MicroInv := by
  obtain ⟨-, herr, hwf⟩ := h
  exact ⟨by simp, by simpa using herr, hwf⟩

theorem request_microInv (k : Kind) (d : Byte) {s : State} (h : s.MicroInv) : (s.request k d).MicroInv := by
  obtain ⟨hie, herr, hwf⟩ := h
  exact ⟨hie, by simpa using herr, hwf⟩

/-- A failure sets `ERRF` and puts its `Err` in `TRACE` together (R202). -/
theorem respond_microInv (k : Kind) (st : Status) {s : State} (h : s.MicroInv) : (s.respond k st).MicroInv := by
  obtain ⟨hie, herr, hwf⟩ := h
  cases st with
  | ok => exact ⟨hie, by simpa [respond_ok] using herr, hwf⟩
  | fail => exact ⟨hie, by simp [respond_fail], hwf⟩

theorem finish_microInv {s : State} (h : s.MicroInv) : s.finish.MicroInv := by
  obtain ⟨hie, herr, hwf⟩ := h
  exact ⟨hie, by simpa using herr, readSession_wf _ _ _ hwf⟩

theorem complete_microInv (k : Kind) (st : Status) {s : State} (h : s.MicroInv) : (s.complete k st).MicroInv := by
  cases k with
  | stop => exact finish_microInv h
  | start | addr | data => exact respond_microInv _ st h

theorem strand_microInv (k : Kind) (d : Byte) {s : State} (h : s.MicroInv) : (s.strand k d).MicroInv := by
  obtain ⟨hie, herr, -⟩ := request_microInv k d h
  exact ⟨hie, herr, drawn_wf _⟩

theorem advance_microInv (rs : List RegWrite) {s : State} (h : s.MicroInv) : (s.advance rs).MicroInv := by
  simpa [State.MicroInv] using h

theorem microDone_microInv (m : Micro) {s : State} (h : s.MicroInv) : (s.microDone m).MicroInv := by
  obtain ⟨a, rs⟩ := m
  cases a with
  | irqOff => exact advance_microInv rs (irqOff_microInv h)
  | irqOn => exact advance_microInv rs (irqOn_microInv h)
  | step k d => exact advance_microInv rs (complete_microInv k _ (request_microInv k d h))

/-- A run of micro-steps keeps the clauses, whether it completes or stalls. -/
theorem runMicros_microInv (ms : List Micro) {s : State} (h : s.MicroInv) : (runMicros ms s).MicroInv :=
  runMicros_induct State.MicroInv ms s h (fun m _ _ ht => microDone_microInv m ht)
    (fun _ _ k d _ _ ht => strand_microInv k d ht) (fun _ ht => ht)

/-- An operation issued with nothing in flight runs to its end with nothing in flight, or stalls inside one of its
sessions (R34, R117). -/
theorem exec_phase_cases {i : Instr} {s t : State} (hp : s.pending = none) (h : exec i s = .next t) :
    (t.phase = .idle ∧ t.pending = none) ∨ (t.phase = .run ∧ t.pending.isSome = true ∧ t.sess = .opened) := by
  obtain ⟨hacc, rfl⟩ := exec_next i s t h
  rcases runMicros_cases (microsOf s.params i) (s.accept (encode i)) with
    ⟨hr, -⟩ | ⟨pre, m, post, k, d, hms, hm, -, -, hr⟩
  · rw [hr]
    exact .inl ⟨rfl, runDone_pending _ _ (.inl hp)⟩
  · obtain ⟨-, -, -, -, -, -, hphase⟩ := runDone_fixed pre (s.accept (encode i))
    rw [hr]
    exact .inr ⟨hphase, rfl, stall_sess i s hacc pre m post k d hms hm⟩

/-- Every operation keeps the invariant, stalled or not. -/
theorem exec_keeps_inv {i : Instr} {s t : State} (hs : s.Inv) (h : exec i s = .next t) : t.Inv := by
  obtain ⟨⟨hidle, -, -⟩, ht⟩ := exec_next i s t h
  obtain ⟨hmicro, hrun, -⟩ := (inv_iff s).mp hs
  have hpend : s.pending = none := by simpa [hidle] using hrun
  have haccept : (s.accept (encode i)).MicroInv := hmicro
  refine (inv_iff t).mpr ⟨ht ▸ runMicros_microInv _ haccept, ?_⟩
  rcases exec_phase_cases hpend h with ⟨hphase, hnone⟩ | ⟨hphase, hsome, hsess⟩
  · simp [hphase, hnone]
  · simp [hphase, hsome, hsess]

/-- The flags' reset values meet the invariant, whatever the device holds in canonical form. -/
theorem inv_of_resetValues {s : State} (hphase : s.phase = .idle) (hpend : s.pending = none) (hsess : s.sess = .closed)
    (hie : s.ie = true) (herr : s.errf = false) (hev : s.events = []) (hwf : s.dev.gddram.wf = true) : s.Inv := by
  simp [State.Inv, hphase, hpend, hsess, hie, herr, hev, hwf]

theorem assertReset_inv {s : State} (hwf : s.dev.gddram.wf = true) : s.assertReset.Inv := by
  refine inv_of_resetValues rfl rfl rfl rfl rfl rfl ?_
  rw [assertReset_dev]
  split
  · rfl
  · exact hwf

/-- Settles O53, by the cases of a step: a reset, a wait, an operation, an operation cut short by a reset; the invariant
rules out the state between two micro-steps. -/
theorem stepKeepsInv : Obligations.StepKeepsInv := by
  intro s t hs h
  obtain ⟨hmicro, hrun, -⟩ := (inv_iff s).mp hs
  have ⟨_, _, hwf⟩ := hmicro
  rcases step_cases h with ⟨rest, -, rfl⟩ | rfl | ⟨w, rest, i, -, -, -, hx⟩ | ⟨w, n, rest, i, -, -, -, hx⟩
    | ⟨i, hphase, hnone, -, -⟩
  · exact assertReset_inv hwf
  · exact hs
  · have hs' : State.Inv { s with host := rest } := hs
    exact exec_keeps_inv hs' hx
  · obtain ⟨-, rfl⟩ := cutShort_next hx
    have haccept : (State.accept (encode i) { s with host := rest }).MicroInv := hmicro
    obtain ⟨-, -, hwf'⟩ := runMicros_microInv _ haccept
    exact assertReset_inv hwf'
  · simp [hphase, hnone] at hrun

/-- Settles O13: each value is the one `State.reset` is written with. -/
theorem resetState : Obligations.ResetState :=
  ⟨rfl, rfl, rfl, rfl, rfl, rfl, rfl, rfl, rfl, by decide⟩

/-- Settles O52: the flags' reset values meet the machine invariant, and an empty trace with no session open is
bracketed. -/
theorem invariantsAtReset : Obligations.InvariantsAtReset :=
  ⟨inv_of_resetValues rfl rfl rfl rfl rfl rfl rfl, rfl, by simp [State.reset]⟩

end Sys2Proof.Machine
end

section
/-! PROOFS. The statements about the device and its sessions (spec/20_memory.md): the bracketing of sessions in `TRACE`,
when the device changes, what a session does to it at its `Done`, and the operations that are whole sessions. -/

namespace Sys2Proof.Machine

/-! ## The interrupt mask events of `TRACE` -/

@[simp] theorem bracketed_req (s : Sess) (r : Req) (es : List Event) :
    bracketed s (.req r :: es) = bracketed s es := by cases s <;> rfl
@[simp] theorem bracketed_rsp (s : Sess) (st : Status) (es : List Event) :
    bracketed s (.rsp st :: es) = bracketed s es := by cases s <;> rfl
@[simp] theorem bracketed_done (s : Sess) (es : List Event) :
    bracketed s (.done :: es) = bracketed s es := by cases s <;> rfl
@[simp] theorem bracketed_err (s : Sess) (k : Kind) (es : List Event) :
    bracketed s (.err k :: es) = bracketed s es := by cases s <;> rfl

/-- A bus step, completed, changes neither `SESS` nor the mask events. -/
theorem bracketed_complete (s0 : Sess) (k : Kind) (st : Status) (s : State) :
    bracketed s0 (s.complete k st).events = bracketed s0 s.events := by
  cases k with
  | stop => simp [State.complete]
  | start | addr | data => cases st <;> simp [State.complete, respond_ok, respond_fail]

/-- Mask actions that keep the session discipline keep the mask events bracketed (R112). -/
theorem runDone_bracketed (ms : List Micro) (s : State) (hok : actsOk s.sess (ms.map (·.act)) = true)
    (hs : bracketed s.sess s.events = true) : bracketed (runDone ms s).sess (runDone ms s).events = true := by
  induction ms generalizing s with
  | nil => exact hs
  | cons m ms ih =>
    obtain ⟨a, r⟩ := m
    rw [runDone_cons]
    cases hsess : s.sess with
    | closed =>
      rw [hsess] at hok hs
      cases a with
      | irqOff =>
        exact ih _ (by simpa [State.microDone, actsOk] using hok) (by simpa [State.microDone, bracketed] using hs)
      | irqOn | step => simp [actsOk] at hok
    | opened =>
      rw [hsess] at hok hs
      cases a with
      | irqOff => simp [actsOk] at hok
      | irqOn =>
        exact ih _ (by simpa [State.microDone, actsOk] using hok) (by simpa [State.microDone, bracketed] using hs)
      | step k d =>
        exact ih _ (by simpa [State.microDone, hsess, actsOk] using hok)
          (by simpa [State.microDone, hsess, bracketed_complete] using hs)

/-- The same for a run that may stall: it ends with a request, which is no mask event. -/
theorem runMicros_bracketed (ms : List Micro) (s : State) (hok : actsOk s.sess (ms.map (·.act)) = true)
    (hs : bracketed s.sess s.events = true) : bracketed (runMicros ms s).sess (runMicros ms s).events = true := by
  rcases runMicros_cases ms s with ⟨hr, -⟩ | ⟨pre, m, post, k, d, rfl, -, -, -, hr⟩
  · rw [hr]; exact runDone_bracketed ms s hok hs
  · rw [List.map_append, actsOk_append, Bool.and_eq_true] at hok
    rw [hr]
    simpa using runDone_bracketed pre s hok.1 hs

/-- A run of micro-steps that is not back in `IDLE` waits inside a bus step (R117). -/
theorem runMicros_pending_of_run (ms : List Micro) (s : State) (h : (runMicros ms s).phase = .run) :
    (runMicros ms s).pending.isSome = true := by
  rcases runMicros_cases ms s with ⟨hr, -⟩ | ⟨pre, m, post, k, d, -, -, -, -, hr⟩
  · simp [hr] at h
  · simp [hr]

/-- An operation keeps the mask events bracketed: its actions keep the session discipline from the `SESS` it was accepted
with (R116). -/
theorem exec_bracketed {i : Instr} {s t : State} (hs : bracketed s.sess s.events = true) (h : exec i s = .next t) :
    t.Bracketed := by
  obtain ⟨⟨-, -, hsess⟩, rfl⟩ := exec_next i s t h
  refine ⟨runMicros_bracketed _ _ ?_ hs, runMicros_pending_of_run _ _⟩
  rw [accept_sess, hsess, microsOf_acts]
  exact actsOk_emit s.params i

theorem assertReset_bracketed (s : State) : s.assertReset.Bracketed := ⟨rfl, by simp⟩

/-- Settles O54, by the cases of a step: a reset empties `TRACE`, a wait keeps it, an operation keeps the session
discipline; a block that runs waits inside a bus step, so it never goes on between two micro-steps. -/
theorem stepKeepsBracketed : Obligations.StepKeepsBracketed := by
  rintro s t ⟨hev, hrun⟩ h
  rcases step_cases h with ⟨rest, -, rfl⟩ | rfl | ⟨w, rest, i, -, -, -, hx⟩ | ⟨w, n, rest, i, -, -, -, hx⟩
    | ⟨i, hphase, hnone, -, -⟩
  · exact assertReset_bracketed _
  · exact ⟨hev, hrun⟩
  · have hev' : bracketed ({ s with host := rest } : State).sess ({ s with host := rest } : State).events = true := hev
    exact exec_bracketed hev' hx
  · obtain ⟨-, rfl⟩ := cutShort_next hx
    exact assertReset_bracketed _
  · simp [hphase, hnone] at hrun

/-! ## When the device changes -/

/-- A stop among actions that complete leaves its `Done` (R111). -/
theorem done_mem_actEvents (ans : Nat → Answer) (as : List Act) {d : Byte} (h : .step .stop d ∈ as) :
    Event.done ∈ actEvents ans as := by
  induction as generalizing ans with
  | nil => cases h
  | cons a as ih =>
    rcases List.mem_cons.mp h with rfl | hd
    · simp [actEvents, completionEvents]
    · cases a <;> simp [actEvents, ih _ hd]

/-- A `Done` in the events of actions, stalled or not, is that of a stop among them (R111). -/
theorem stop_mem_of_done_mem_actTrace (ans : Nat → Answer) (as : List Act) (h : Event.done ∈ actTrace ans as) :
    ∃ d, Act.step .stop d ∈ as := by
  induction as generalizing ans with
  | nil => cases h
  | cons a as ih =>
    suffices ha : (∃ d, a = .step .stop d) ∨ ∃ ans', Event.done ∈ actTrace ans' as by
      rcases ha with ⟨d, rfl⟩ | ⟨ans', ha⟩
      · exact ⟨d, List.mem_cons_self⟩
      · obtain ⟨d, hd⟩ := ih ans' ha
        exact ⟨d, List.mem_cons_of_mem _ hd⟩
    cases a with
    | irqOff | irqOn => exact .inr ⟨ans, by simpa [actTrace] using h⟩
    | step k d =>
      by_cases hk : k = .stop
      · exact .inl ⟨d, by rw [hk]⟩
      · have hnot : Event.done ∉ completionEvents k (ans 0) := by
          cases k <;> cases ans 0 <;> simp [completionEvents] at hk ⊢
        by_cases h0 : ans 0 = .never
        · simp [actTrace, h0] at h
        · exact .inr ⟨_, by simpa [actTrace, h0, hnot] using h⟩

/-- A list of actions none of whose events is a `Done` leaves the device alone (R58). -/
theorem runDone_dev_of_noDone (ms : List Micro) (s : State)
    (h : Event.done ∉ actEvents s.answers.peek (ms.map (·.act))) : (runDone ms s).dev = s.dev :=
  runDone_dev_noStop ms s fun m hm _ hd => h (done_mem_actEvents _ _ (List.mem_map.mpr ⟨m, hm, hd⟩))

/-- A run that adds no `Done` to `TRACE` completes with the device as it was, or waits inside a bus step with the device
havocked (R58, R117). -/
theorem runMicros_dev_of_noDone (ms : List Micro) (s : State)
    (h : Event.done ∉ actTrace s.answers.peek (ms.map (·.act))) :
    ((runMicros ms s).phase = .idle ∧ (runMicros ms s).dev = s.dev)
      ∨ ((runMicros ms s).phase = s.phase ∧ (runMicros ms s).pending.isSome = true
        ∧ (runMicros ms s).dev = s.dev.havoc) := by
  rcases runMicros_cases ms s with ⟨hr, hk⟩ | ⟨pre, m, post, k, d, rfl, ha, hp, hn, hr⟩
  · rw [actTrace_complete _ _ hk] at h
    rw [hr]
    exact .inl ⟨rfl, runDone_dev_of_noDone ms s h⟩
  · rw [List.map_append, List.map_cons, ha, actTrace_stall _ _ _ _ _ hp hn] at h
    obtain ⟨-, -, -, -, -, -, hphase⟩ := runDone_fixed pre s
    rw [hr, strand_dev, runDone_dev_of_noDone pre s fun hd => h (List.mem_append_left _ hd)]
    exact .inr ⟨hphase, rfl, rfl⟩

/-- But for a reset, a step stays where it is or runs micro-steps from a running state with the device and the `TRACE` it
found. -/
theorem step_runs_of_noReset {s t : State} (hn : NoReset s) (h : step s = .next t) :
    t = s ∨ ∃ ms u, t = runMicros ms u ∧ u.phase = .run ∧ u.dev = s.dev ∧ u.events = s.events := by
  rcases step_cases h with ⟨rest, hh, -⟩ | rfl | ⟨w, rest, i, -, -, -, hx⟩ | ⟨w, n, rest, i, hh, -⟩
    | ⟨i, hphase, -, -, rfl⟩
  · exact absurd (hn _ (by rw [hh]; rfl)) (by decide)
  · exact .inl rfl
  · obtain ⟨-, rfl⟩ := exec_next i _ t hx
    exact .inr ⟨_, _, rfl, rfl, rfl, rfl⟩
  · exact absurd (hn _ (by rw [hh]; rfl)) (by simp [HostMove.resets])
  · exact .inr ⟨_, _, rfl, hphase, rfl, rfl⟩

/-- Settles O58: a step without a reset stays, or runs micro-steps, and these touch the device at a stop's `Done` or in a
stall only. -/
theorem deviceChangesOnlyAtDone : Obligations.DeviceChangesOnlyAtDone := by
  intro s t hn h hcount
  rcases step_runs_of_noReset hn h with rfl | ⟨ms, u, rfl, hphase, hdev, hev⟩
  · exact .inl rfl
  · have hnone : Event.done ∉ actTrace u.answers.peek (ms.map (·.act)) := by
      rw [runMicros_events, hev, List.count_append, List.count_reverse] at hcount
      exact List.count_eq_zero.mp (by omega)
    rw [← hdev]
    rcases runMicros_dev_of_noDone ms u hnone with ⟨-, hd⟩ | ⟨hp, hs, hd⟩
    · exact .inl hd
    · exact .inr ⟨⟨hp.trans hphase, hs⟩, hd⟩

/-- Settles O38: none of the four operations has a stop, so none adds a `Done`. -/
theorem openSessionFrame : Obligations.OpenSessionFrame := by
  intro i s t hi h
  obtain ⟨-, rfl⟩ := exec_next i s t h
  have hstop : ∀ d, Act.step .stop d ∉ (microsOf s.params i).map (·.act) := by
    rcases hi with rfl | ⟨v, rfl⟩ | rfl | rfl <;>
      simp [microsOf_acts, emit, emitOpen, reqStart, reqData, actsOf]
  have hnone : Event.done ∉ actTrace (s.accept (encode i)).answers.peek ((microsOf s.params i).map (·.act)) :=
    fun hd => (stop_mem_of_done_mem_actTrace _ _ hd).elim hstop
  rcases runMicros_dev_of_noDone _ _ hnone with ⟨hp, hd⟩ | ⟨hp, -, hd⟩
  · exact ⟨fun _ => hd, fun hrun => by simp [hp] at hrun⟩
  · exact ⟨fun hidle => by simp [hp] at hidle, fun _ => hd⟩


/-! ## Completed operations -/

/-- An operation that writes no working register and moves the interrupt mask, every step of it answered, leaves the
completed state. -/
theorem exec_completedState (i : Instr) (s : State) (h : Accepts i s) (hc : AllComplete s (emit s.params i).length)
    (hregs : (microsOf s.params i).flatMap (·.regs) = []) (hmask : ∀ v, i ≠ .txByte v) :
    exec i s = .next (completedState i s (finalState i s).dev) := by
  obtain ⟨hms, hme, hpg, hcnt⟩ := finalState_regs i s
  rw [hregs] at hms hme hpg hcnt
  rw [exec_finalState i s h hc, finalState_eq i s h hc, hms, hme, hpg, hcnt, finalState_ie i s h hc hmask]
  rfl

/-- An operation that answers a next state in `IDLE` had every step answered, and the state is its final one. -/
theorem exec_idle {i : Instr} {s t : State} (h : exec i s = .next t) (hidle : t.phase = .idle) :
    t = finalState i s ∧ AllComplete s (emit s.params i).length := by
  obtain ⟨-, rfl⟩ := exec_next i s t h
  rcases runMicros_cases (microsOf s.params i) (s.accept (encode i)) with
    ⟨hr, hk⟩ | ⟨pre, m, post, k, d, -, -, -, -, hr⟩
  · rw [busCount_microsOf] at hk
    exact ⟨hr, hk⟩
  · obtain ⟨-, -, -, -, -, -, hphase⟩ := runDone_fixed pre (s.accept (encode i))
    rw [hr, strand_phase, hphase] at hidle
    cases hidle

/-- Answers that all complete and of which none is `FAIL` are all `OK`. -/
theorem allOk_of_complete {s : State} {n : Nat} (hc : AllComplete s n) (hf : NoneFails s n) : AllOk s n := by
  intro k hk
  cases ha : s.answers.peek k with
  | ok => rfl
  | fail => exact absurd ha (hf k hk)
  | never => exact absurd ha (hc k hk)

/-! ## How the device reads a session -/

/-- A session that failed or that no rule of R58 reads havocs the device. -/
theorem readSession_bad (p : Params) (es : List Event) (d : Dev)
    (h : sessionFailed es = true ∨ sessionAddrs es ≠ [p.devAddrW] ∨ sessionData es = []
      ∨ ∃ c payload, sessionData es = c :: payload ∧ c ≠ 0x00#8 ∧ c ≠ 0x40#8) :
    d.readSession p es = d.havoc := by
  unfold Dev.readSession
  split
  · rfl
  next hfail =>
  split
  · rfl
  next haddr =>
  rcases h with h | h | h | ⟨c, payload, h, hcmd, hdata⟩
  · exact absurd h hfail
  · exact absurd h haddr
  · rw [h]
  · simp [h, hcmd, hdata, Config.ctrlCmd, Config.ctrlData]

section
variable {p : Params} {es : List Event} (hfail : sessionFailed es = false) (haddr : sessionAddrs es = [p.devAddrW])
include hfail haddr

/-- An acknowledged data session writes its payload (R58). -/
theorem readSession_data {payload : List Byte} (hdata : sessionData es = 0x40#8 :: payload) (d : Dev) :
    d.readSession p es = d.writes payload := by
  simp [Dev.readSession, hfail, haddr, hdata, Config.ctrlData]

/-- An acknowledged command session is read by the command parser (R58). -/
theorem readSession_commands {payload : List Byte} (hdata : sessionData es = 0x00#8 :: payload) (d : Dev) :
    d.readSession p es = d.commands p payload := by
  simp [Dev.readSession, hfail, haddr, hdata, Config.ctrlData, Config.ctrlCmd]

end

theorem commands_nil (p : Params) (d : Dev) : d.commands p [] = d := by
  have h : ([] : List Byte) ≠ p.initPayload := fun e => by simpa [← e] using initPayload_length p
  simp [Dev.commands, h, Dev.parse]

/-- The device a havoc leaves depends on the number of draws made before it only. -/
theorem havoc_eq_of_draws {d d' : Dev} (h : d'.draws = d.draws) : d'.havoc = d.havoc := by
  simp [Dev.havoc, h]

/-- The parser on a byte of no row of R59's table. -/
theorem parse_unknown (p : Params) (b : Byte) (l : List Byte) (d : Dev) (hhi : isColHi p b = false)
    (hother : isOtherFirstByte b = false) : Dev.parse p (b :: l) d = d.havoc := by
  simp only [isOtherFirstByte, Bool.or_eq_false_iff, beq_eq_false_iff_ne] at hother
  obtain ⟨⟨⟨⟨hpage, hlo⟩, hoff⟩, hon⟩, hcon⟩ := hother
  have hpage' : isPageSelect b = false := hpage
  have hlo' : isColLo b = false := hlo
  cases l <;> simp [Dev.parse, hpage', hhi, hlo', hoff, hon, hcon]

/-- The first bytes of R59's last three rows are in none of its first three. -/
theorem not_position_of_fixed {p : Params} (hp : p.disjoint = true) {b : Byte}
    (hb : b = Config.cmdDisplayOff ∨ b = Config.cmdDisplayOn ∨ b = Config.cmdContrast) :
    isPageSelect b = false ∧ isColHi p b = false ∧ isColLo b = false := by
  rcases hb with rfl | rfl | rfl <;> exact ⟨by decide, isColHi_false p hp _ (by decide), by decide⟩

/-- The parser on a contrast opcode without its value. -/
theorem parse_contrast_last (p : Params) (hp : p.disjoint = true) (d : Dev) : Dev.parse p [0x81#8] d = d.havoc := by
  obtain ⟨hpage, hhi, hlo⟩ := not_position_of_fixed hp (b := 0x81#8) (.inr (.inr rfl))
  simp [Dev.parse, hpage, hhi, hlo, Config.cmdDisplayOff, Config.cmdDisplayOn, Config.cmdContrast]

/-- A payload that is not `INIT`'s, with whole known commands and then what the table has no command for (R59). -/
theorem commands_unknown (p : Params) (known : List (List Byte)) (b : Byte) (rest : List Byte) (d : Dev)
    (hknown : ∀ c ∈ known, isCommand p c = true) (hinit : known.flatten ++ b :: rest ≠ p.initPayload)
    (hb : (isColHi p b = false ∧ isOtherFirstByte b = false) ∨ (b = 0x81#8 ∧ rest = [])) :
    d.commands p (known.flatten ++ b :: rest) = d.havoc := by
  have hne : (known.flatten ++ b :: rest).isEmpty = false := by simp
  cases hp : p.disjoint with
  | false => simp [Dev.commands, hinit, hp]
  | true =>
    obtain ⟨d', hdraws, hparse⟩ := parse_commands p hp known (b :: rest) d hknown
    have hrest : Dev.parse p (b :: rest) d' = d'.havoc := by
      rcases hb with ⟨hhi, hother⟩ | ⟨rfl, rfl⟩
      · exact parse_unknown p b rest d' hhi hother
      · exact parse_contrast_last p hp d'
    simp only [Dev.commands, if_neg hinit, hp, Bool.or_true, if_true]
    rw [hparse, hrest, havoc_eq_of_draws hdraws]

/-! ## `END` -/

theorem finalState_endSess_dev (s : State) :
    (finalState .endSess s).dev = s.dev.readSession s.params (sessionOf s.events) := by
  simp [finalState, microsOf, microsEnd, endMicros, bus, State.microDone, complete_dev, sessionOf_req, readSession_stop]

/-- `END` inside a session, its stop answered: the device reads the session's events (R58, R115). -/
theorem exec_endSess (s : State) (hidle : s.phase = .idle) (hopen : s.sess = .opened) (hc : AllComplete s 1) :
    exec .endSess s
      = .next (completedState .endSess s (s.dev.readSession s.params (sessionOf s.events))) := by
  rw [← finalState_endSess_dev]
  exact exec_completedState .endSess s ⟨hidle, rfl, hopen⟩ hc rfl (by simp)

/-- Settles O43: each of the four cases is one in which R58 reads no session. -/
theorem endHavocsBadSession : Obligations.EndHavocsBadSession := by
  intro s hidle hopen hc hbad
  rw [exec_endSess s hidle hopen hc, readSession_bad _ _ _ hbad]

/-- Settles O44: an empty payload is no command and no data byte. -/
theorem endOfEmptySessionKeepsDevice : Obligations.EndOfEmptySessionKeepsDevice := by
  intro s hidle hopen hc hfail haddr hdata
  rw [exec_endSess s hidle hopen hc]
  rcases hdata with hdata | hdata
  · rw [readSession_commands hfail haddr hdata, commands_nil]
  · rw [readSession_data hfail haddr hdata]; rfl

/-- Settles O45: the parser takes the known commands without a draw, and then havocs. -/
theorem endHavocsUnknownCommand : Obligations.EndHavocsUnknownCommand := by
  intro s known b rest hidle hopen hc hknown hinit hfail haddr hdata hb
  rw [exec_endSess s hidle hopen hc, readSession_commands hfail haddr hdata,
    commands_unknown s.params known b rest s.dev hknown hinit hb]

/-- Settles O42: the payload's bytes are written one after another from the cursor on. -/
theorem endStoresDataSession : Obligations.EndStoresDataSession := by
  intro s payload hidle hopen hc hfail haddr hdata hcfg hwf hfits
  have hread := writes_read payload s.dev hcfg hwf hfits
  refine ⟨s.dev.writes payload, ?_, fun k v hk => ?_, fun a ha => ?_, writes_cursorAddr payload s.dev hcfg,
    writes_keeps payload s.dev⟩
  · rw [exec_endSess s hidle hopen hc, readSession_data hfail haddr hdata]
  · have hlt : k < payload.length := (List.getElem?_eq_some_iff.mp hk).1
    rw [hread, if_pos ⟨by omega, by omega⟩, Nat.add_sub_cancel_left, hk, Option.getD_some]
  · rw [hread, if_neg ha]

/-! ## Operations of one command session -/

/-- The payload of an operation that is one command session (R95). -/
theorem microsOf_cmdSession (p : Params) {i : Instr} (hi : (∃ x page, i = .setPos x page) ∨ i = .pwrOn
    ∨ i = .pwrOff ∨ (∃ v, i = .contrast v) ∨ i = .init) : ∃ l, microsOf p i = cmdSession p l [] := by
  rcases hi with ⟨x, page, rfl⟩ | rfl | rfl | ⟨v, rfl⟩ | rfl <;> exact ⟨_, rfl⟩

/-- A failure among the requests of an operation that is one session is one before its stop (R111). -/
theorem nackIn_emit_of_isSession {p : Params} {i : Instr} {c : Byte} {l : List Byte}
    (h : IsSession p c l (microsOf p i)) (ans : Nat → Answer) :
    nackIn ans (emit p i) = actNack ans (openActs p c l) := by
  rw [← actNack_acts, ← microsOf_acts, h]
  exact actNack_openActs_stop ans _

/-- Settles O33: the session's failure is read at its `Done`; the flags and the other fields are those of any completed
operation. -/
theorem failedCommandSessionHavocs : Obligations.FailedCommandSessionHavocs := by
  intro s i hi h hc hnack
  obtain ⟨l, hl⟩ := microsOf_cmdSession s.params hi
  have hsession : IsSession s.params Config.ctrlCmd l (microsOf s.params i) := hl ▸ cmdSession_isSession s.params l []
  have hfail : actNack (s.accept (encode i)).answers.peek (openActs s.params Config.ctrlCmd l) = true :=
    (nackIn_emit_of_isSession hsession _).symm.trans hnack
  have hlen : (emit s.params i).length = l.length + 4 := by
    rw [← busCount_microsOf, busCount_isSession _ _ _ _ hsession]
  have hdev : (finalState i s).dev = s.dev.havoc := by
    refine (runDone_session s.params _ l _ (s.accept (encode i)) hsession rfl ?_).trans (if_pos hfail)
    rw [← hlen]; exact hc
  refine ⟨?_, by simp [completedState, hnack]⟩
  rw [← hdev]
  refine exec_completedState i s h hc (hl ▸ cmdSession_regs ..) ?_
  rintro v rfl
  simp at hi

/-- `PWRON`'s payload sets `on` (R59). -/
theorem commands_displayOn (p : Params) (hp : p.disjoint = true) (d : Dev) :
    d.commands p [Config.cmdDisplayOn] = { d with on := true } := by
  obtain ⟨hpage, hhi, hlo⟩ := not_position_of_fixed hp (b := Config.cmdDisplayOn) (.inr (.inl rfl))
  have hoff : Config.cmdDisplayOn ≠ Config.cmdDisplayOff := by decide
  simp [commands_short p hp, Dev.parse, hpage, hhi, hlo, hoff]

/-- `PWROFF`'s payload clears `on` (R59). -/
theorem commands_displayOff (p : Params) (hp : p.disjoint = true) (d : Dev) :
    d.commands p [Config.cmdDisplayOff] = { d with on := false } := by
  obtain ⟨hpage, hhi, hlo⟩ := not_position_of_fixed hp (b := Config.cmdDisplayOff) (.inl rfl)
  simp [commands_short p hp, Dev.parse, hpage, hhi, hlo]

/-- `CONTRAST`'s payload sets `contrast` (R59). -/
theorem commands_contrast (p : Params) (hp : p.disjoint = true) (v : Byte) (d : Dev) :
    d.commands p [Config.cmdContrast, v] = { d with contrast := v } := by
  obtain ⟨hpage, hhi, hlo⟩ := not_position_of_fixed hp (b := Config.cmdContrast) (.inr (.inr rfl))
  have hoff : Config.cmdContrast ≠ Config.cmdDisplayOff := by decide
  have hon : Config.cmdContrast ≠ Config.cmdDisplayOn := by decide
  simp [commands_short p hp, Dev.parse, hpage, hhi, hlo, hoff, hon]

/-- Settles O39: such an operation, completed without a failure, sets the cursor, `on` or `contrast` and nothing else. -/
theorem commandFrame : Obligations.CommandFrame := by
  intro i s t hi hp hnf h hidle
  obtain ⟨⟨-, hw, -⟩, -⟩ := exec_next i s t h
  obtain ⟨rfl, hc⟩ := exec_idle h hidle
  have hok := allOk_of_complete hc hnf
  rcases hi with ⟨x, page, rfl⟩ | rfl | rfl | ⟨v, rfl⟩
  · simp only [Instr.wf, setPosDomain, Bool.and_eq_true, decide_eq_true_eq] at hw
    have hdev := (finalState_cmd_dev (.setPos x page) s (posBytes s.params x page.toNat) rfl hok).trans
      (commands_posBytes s.params hp x page.toNat hw.1 hw.2 s.dev)
    simp [hdev]
  · have hdev := (finalState_cmd_dev .pwrOn s _ rfl hok).trans (commands_displayOn s.params hp s.dev)
    simp [hdev]
  · have hdev := (finalState_cmd_dev .pwrOff s _ rfl hok).trans (commands_displayOff s.params hp s.dev)
    simp [hdev]
  · have hdev := (finalState_cmd_dev (.contrast v) s _ rfl hok).trans (commands_contrast s.params hp v s.dev)
    simp [hdev]

/-! ## Operations of several sessions -/

theorem actNack_append (ans : Nat → Answer) (as bs : List Act) :
    actNack ans (as ++ bs) = (actNack ans as || actNack (fun j => ans (j + busCount as)) bs) := by
  induction as generalizing ans with
  | nil => rfl
  | cons a as ih =>
    cases a with
    | irqOff | irqOn => exact ih ans
    | step k d => simp [actNack, busCount, ih, Bool.or_assoc, Nat.add_assoc]

/-- The micro-steps of whole sessions, the last session's set apart. -/
theorem isSessions_last {p : Params} {cs : List (Byte × List Byte)} {c : Byte × List Byte} {ms : List Micro}
    (h : IsSessions p (cs ++ [c]) ms) :
    ∃ as bs, ms = as ++ bs ∧ IsSessions p cs as ∧ IsSession p c.1 c.2 bs ∧ (c.1 = 0x40#8 ∨ c.1 = 0x00#8) := by
  induction cs generalizing ms with
  | nil =>
    obtain ⟨as, bs, rfl, hsession, hctrl, rfl⟩ := h
    exact ⟨[], as, by simp, rfl, hsession, hctrl⟩
  | cons c' cs ih =>
    obtain ⟨as, bs, rfl, hsession, hctrl, hrest⟩ := h
    obtain ⟨as', bs', rfl, hinit, hlast, hctrl'⟩ := ih hrest
    exact ⟨as ++ as', bs', by simp, ⟨as, as', rfl, hsession, hctrl, hinit⟩, hlast, hctrl'⟩

theorem any_fail {ans : Nat → Answer} {k n : Nat} (hk : k < n) (hfail : ans k = .fail) :
    ((List.range n).any fun k => decide (ans k = .fail)) = true :=
  List.any_eq_true.mpr ⟨k, List.mem_range.mpr hk, by simp [hfail]⟩

/-- A session with a failed start, address or byte havocs the device (R61). -/
theorem sessionDev_of_fail (p : Params) {ans : Nat → Answer} {c : Byte × List Byte} {k : Nat} (d : Dev)
    (hk : k < c.2.length + 3) (hfail : ans k = .fail) : sessionDev p ans c d = d.havoc := by
  rw [sessionDev, if_pos (any_fail hk hfail)]

/-- The same failure, seen in the session's actions. -/
theorem actNack_of_isSession_fail {p : Params} {ans : Nat → Answer} {c : Byte} {l : List Byte} {ms : List Micro}
    {k : Nat} (h : IsSession p c l ms) (hk : k < l.length + 3) (hfail : ans k = .fail) :
    actNack ans (ms.map (·.act)) = true := by
  rw [h]
  have hstop : actNack ans (.irqOff :: (openActs p c l ++ [.step .stop 0#8, .irqOn])) = actNack ans (openActs p c l) :=
    actNack_openActs_stop ans _
  rw [hstop, actNack_openActs]
  exact any_fail hk hfail

/-- **A failure in the last session.** Whole sessions whose steps are all answered, a checked step of the last of them with
`FAIL`: the device is the one the sessions before it left, havocked (R58, R61). -/
theorem runDone_lastSession_fails {p : Params} {cs : List (Byte × List Byte)} {c : Byte × List Byte} {ms : List Micro}
    {s : State} {k : Nat} (hms : IsSessions p (cs ++ [c]) ms) (hp : s.params = p)
    (hc : ∀ k, k < busCount (ms.map (·.act)) → s.answers.peek k ≠ .never)
    (hlow : busCount (ms.map (·.act)) ≤ k + (c.2.length + 4)) (hhigh : k + 1 < busCount (ms.map (·.act)))
    (hfail : s.answers.peek k = .fail) :
    (runDone ms s).dev = (sessionsDev p s.answers.peek cs s.dev).havoc
      ∧ actNack s.answers.peek (ms.map (·.act)) = true := by
  obtain ⟨as, bs, rfl, hinit, hlast, hctrl⟩ := isSessions_last hms
  have hsum : busCount ((as ++ bs).map (·.act)) = busCount (as.map (·.act)) + (c.2.length + 4) := by
    rw [List.map_append, busCount_append, busCount_isSession _ _ _ _ hlast]
  obtain ⟨j, rfl⟩ : ∃ j, k = j + busCount (as.map (·.act)) := ⟨k - busCount (as.map (·.act)), by omega⟩
  have hj : j < c.2.length + 3 := by omega
  constructor
  · have hans : (runDone as s).answers = s.answers.after (busCount (as.map (·.act))) := runDone_answers as s
    have hfail' : (runDone as s).answers.peek j = .fail := by rw [hans, peek_after, Nat.add_comm]; exact hfail
    rw [runDone_append, runDone_sessionDev p c bs _ hlast hctrl ((runDone_params as s).trans hp),
      sessionDev_of_fail p _ hj hfail', runDone_sessionsDev p cs as s hinit hp fun k hk => hc k (by omega)]
    intro k hk
    rw [hans, peek_after]
    exact hc _ (by omega)
  · rw [List.map_append, actNack_append, actNack_of_isSession_fail hlast hj hfail, Bool.or_true]

/-- Settles O34: the operations are whole sessions, which act one after another; a failure in the last is read at its
`Done`. -/
theorem failedDataSessionHavocs : Obligations.FailedDataSessionHavocs := by
  intro s i hi h hc
  obtain ⟨hneeds, hafter, hmask⟩ : needsSess i = .closed ∧ sessAfter i = .closed ∧ ∀ v, i ≠ .txByte v := by
    rcases hi with ⟨x, y, len, rfl⟩ | ⟨x, y, len, rfl⟩ | rfl <;> simp [needsSess, sessAfter]
  have hsessions := microsOf_isSessions s.params i hneeds hafter
  have hanswered := answered_microsOf i s hc
  have herrf : (finalState i s).errf = (s.errf || nackIn s.answers.peek (emit s.params i)) :=
    congrArg State.errf (finalState_eq i s h hc)
  refine ⟨finalState i s, exec_finalState i s h hc, (finalState_sess i s h hc).trans hafter, ?_, herrf,
    runDone_sessionsDev s.params _ _ (s.accept (encode i)) hsessions rfl hanswered, ?_⟩
  · rw [finalState_ie i s h hc hmask, hafter]; rfl
  · intro last k hlast hlow hhigh hfail
    obtain ⟨cs, hcs⟩ := List.getLast?_eq_some_iff.mp hlast
    rw [hcs] at hsessions
    rw [← busCount_microsOf] at hlow hhigh
    obtain ⟨hdev, hnack⟩ :=
      runDone_lastSession_fails (s := s.accept (encode i)) hsessions rfl hanswered hlow hhigh hfail
    rw [microsOf_acts, actNack_acts, accept_answers] at hnack
    rw [hcs, List.dropLast_concat]
    exact ⟨by rw [herrf, hnack, Bool.or_true], hdev⟩

/-! ## Data to an `UNCONFIGURED` device -/

/-- A position, then data bytes, to an `UNCONFIGURED` device: the draw overwrites the cursor the position set (R55). -/
theorem writes_position_unconfigured (d : Dev) (x : Fin 128) (page : Fin 8) (n : Nat) (v : Byte)
    (hcfg : d.cfg = .unconfigured) (hn : 1 ≤ n) :
    ({ d with col := x, page := page } : Dev).writes (List.replicate n v) = d.ramDraw (d.draws + (n - 1)) := by
  obtain ⟨m, rfl⟩ : ∃ m, n = m + 1 := ⟨n - 1, by omega⟩
  rw [List.replicate_succ, writes_unconfigured v _ _ (by exact hcfg), List.length_replicate]
  rfl

/-- The number of requests of an operation that is a position and a counted data session (R118). -/
theorem emit_line_length {p : Params} {i : Instr} {x : Byte} {page n : Nat} {v : Byte}
    (hi : microsOf p i = positionMicros p x page [] ++ countedData p n v) : (emit p i).length = 11 + n := by
  rw [← busCount_microsOf, hi, List.map_append, busCount_append, busCount_position, busCount_counted]
  omega

/-- A position and a counted data session on an `UNCONFIGURED` device (R55). -/
theorem finalState_line_unconfigured (i : Instr) (s : State) (x : Byte) (page n : Nat) (v : Byte)
    (hi : microsOf s.params i = positionMicros s.params x page [] ++ countedData s.params n v)
    (hp : s.params.disjoint = true) (hx : x.toNat ≤ 127) (hpage : page ≤ 7) (hn : 1 ≤ n)
    (hcfg : s.dev.cfg = .unconfigured) (hok : AllOk s (emit s.params i).length) :
    (finalState i s).dev = s.dev.ramDraw (s.dev.draws + (n - 1)) := by
  rw [emit_line_length hi] at hok
  rw [finalState_line_dev i s x page n v hi hp hx hpage hok]
  exact writes_position_unconfigured _ _ _ n v hcfg hn

/-- One page write of `DRAWV` to an `UNCONFIGURED` device draws its display RAM and cursor anew (R55). -/
theorem runDone_pageWrite_unconfigured (p : Params) (x y len : Byte) (i : Nat) (s : State) (hparams : s.params = p)
    (hp : p.disjoint = true) (hx : x.toNat ≤ 127) (hpage : pageOf y + i ≤ 7) (hcfg : s.dev.cfg = .unconfigured)
    (hok : ∀ k, k < 12 → s.answers.peek k = .ok) : (runDone (pageWrite p x y len i) s).dev = s.dev.drawRam := by
  rw [runDone_pageWrite_dev p x y len i s hparams hp hx hpage hok]
  simp [Dev.memWrite, hcfg, Dev.drawRam]

theorem drawRam_iterate_cfg (m : Nat) (d : Dev) : (Dev.drawRam^[m] d).cfg = d.cfg := by
  induction m generalizing d with
  | zero => rfl
  | succ m ih => exact ih d.drawRam

/-- Of several draws the last counts. -/
theorem drawRam_iterate_succ (m : Nat) (d : Dev) : Dev.drawRam^[m + 1] d = d.ramDraw (d.draws + m) := by
  induction m generalizing d with
  | zero => rfl
  | succ m ih =>
    rw [Function.iterate_succ_apply, ih]
    simp [Dev.drawRam, Dev.ramDraw, Nat.add_assoc, Nat.add_comm 1]

/-- The first `m` page writes of `DRAWV` on an `UNCONFIGURED` device: one draw each. -/
theorem runDone_pages_unconfigured (p : Params) (x y len : Byte) (m : Nat) (s : State) (hparams : s.params = p)
    (hp : p.disjoint = true) (hx : x.toNat ≤ 127) (hpage : pageOf y + m ≤ 8) (hcfg : s.dev.cfg = .unconfigured)
    (hok : ∀ k, k < 12 * m → s.answers.peek k = .ok) :
    (runDone ((List.range m).flatMap (pageWrite p x y len)) s).dev = Dev.drawRam^[m] s.dev := by
  induction m with
  | zero => rfl
  | succ m ih =>
    have ih := ih (by omega) fun k hk => hok k (by omega)
    rw [List.range_succ, List.flatMap_append, List.flatMap_singleton, runDone_append, Function.iterate_succ_apply',
      ← ih]
    refine runDone_pageWrite_unconfigured p x y len m _ ((runDone_params _ s).trans hparams) hp hx (by omega) ?_ ?_
    · rw [ih, drawRam_iterate_cfg, hcfg]
    · intro k hk
      rw [runDone_answers, busCount_pages, peek_after]
      exact hok _ (by omega)

/-- In its domain `DRAWV` stays on the panel's eight pages (R155). -/
theorem pageOf_add_pageCount_le {x y len : Byte} (h : (Instr.drawV x y len).wf = true) :
    pageOf y + pageCount y len ≤ 8 := by
  simp only [Instr.wf, drawVDomain, Bool.and_eq_true, decide_eq_true_eq] at h
  simp only [pageOf, pageCount, bitOf, Config.pageRows]
  omega

/-- `DRAWV` on an `UNCONFIGURED` device (R55). -/
theorem finalState_drawV_unconfigured (s : State) (x y len : Byte) (hw : (Instr.drawV x y len).wf = true)
    (hp : s.params.disjoint = true) (hcfg : s.dev.cfg = .unconfigured)
    (hok : AllOk s (emit s.params (.drawV x y len)).length) :
    (finalState (.drawV x y len) s).dev = s.dev.ramDraw (s.dev.draws + (pageCount y len - 1)) := by
  have hx : x.toNat ≤ 127 := by
    simp only [Instr.wf, drawVDomain, Bool.and_eq_true, decide_eq_true_eq] at hw; omega
  have hlen : (emit s.params (.drawV x y len)).length = 12 * pageCount y len := by
    rw [← busCount_microsOf]; exact busCount_pages s.params x y len (pageCount y len)
  have hpos := pageCount_pos x y len hw
  obtain ⟨m, hm⟩ : ∃ m, pageCount y len = m + 1 := ⟨pageCount y len - 1, by omega⟩
  rw [hlen] at hok
  have hpages := runDone_pages_unconfigured s.params x y len (pageCount y len)
    (s.accept (encode (.drawV x y len))) rfl hp hx (pageOf_add_pageCount_le hw) hcfg hok
  refine hpages.trans ?_
  rw [hm, drawRam_iterate_succ]
  rfl

/-- Settles O46: each data byte to such a device draws display RAM and cursor anew, and the last draw stays. -/
theorem unconfiguredDataHavocs : Obligations.UnconfiguredDataHavocs := by
  refine fun s hidle hcfg => ⟨fun v payload hopen hc hfail haddr hdata => ?_, fun i hi h hp hok => ?_⟩
  · refine ⟨s.dev.draws + payload.length, by omega, ?_⟩
    rw [exec_endSess s hidle hopen hc, readSession_data hfail haddr hdata, writes_unconfigured v payload s.dev hcfg]
  · have hexec := exec_finalState i s h (allOk_complete hok)
    obtain ⟨-, hw, -⟩ := h
    suffices hdev : ∃ n, s.dev.draws ≤ n ∧ (finalState i s).dev = s.dev.ramDraw n by
      obtain ⟨n, hn, hdev⟩ := hdev
      exact ⟨_, n, hexec, hn, hdev⟩
    rcases hi with ⟨x, y, len, rfl⟩ | ⟨x, y, len, rfl⟩ | rfl
    · simp only [Instr.wf, drawHDomain, Bool.and_eq_true, decide_eq_true_eq] at hw
      have hpage : pageOf y ≤ 7 := by simp only [pageOf, Config.pageRows]; omega
      exact ⟨_, Nat.le_add_right _ _, finalState_line_unconfigured _ s x (pageOf y) len.toNat (rowByte y) rfl hp
        (by omega) hpage (by omega) hcfg hok⟩
    · exact ⟨_, Nat.le_add_right _ _, finalState_drawV_unconfigured s x y len hw hp hcfg hok⟩
    · exact ⟨_, Nat.le_add_right _ _, finalState_line_unconfigured _ s 0#8 0 Config.frameBytes 0#8 rfl hp
        (by decide) (by decide) (by decide) hcfg hok⟩

end Sys2Proof.Machine
end

section
/-! PROOFS. The statements about the command word: the decoder and the encoder undo each other, the rows of the opcode
table, and what is refused at acceptance (spec/30_encoding.md R80 to R85). -/

namespace Sys2Proof.Machine

/-! ## Decoding and encoding undo each other -/

/-- Two words with the same four fields are equal (R80). -/
theorem packWord_inj {op a b c op' a' b' c' : Byte} :
    packWord op a b c = packWord op' a' b' c' ↔ op = op' ∧ a = a' ∧ b = b' ∧ c = c' := by
  constructor
  · intro h
    exact ⟨by simpa using congrArg fieldOp h, by simpa using congrArg fieldA h, by simpa using congrArg fieldB h,
      by simpa using congrArg fieldC h⟩
  · rintro ⟨rfl, rfl, rfl, rfl⟩
    rfl

/-- A word is the word of `i` exactly when its fields are the opcode and the operands of `i` (R80, R81). -/
theorem encode_eq_iff (i : Instr) (w : Word) :
    encode i = w ↔ i.opcode = fieldOp w ∧ i.operands.1 = fieldA w ∧ i.operands.2.1 = fieldB w
      ∧ i.operands.2.2 = fieldC w := by
  conv_lhs => rw [← packWord_fields w]
  exact packWord_inj

/-- The check of the unused fields passes exactly when they are zero (R83). -/
theorem needZero_eq_ok (op : Byte) (unused : List Byte) (i j : Instr) :
    needZero op unused i = .ok j ↔ (∀ b ∈ unused, b = 0#8) ∧ i = j := by
  simp only [needZero, List.all_eq_true, beq_iff_eq]
  split
  · next hz => exact ⟨fun h => ⟨hz, Except.ok.inj h⟩, fun h => congrArg _ h.2⟩
  · next hz => exact ⟨nofun, fun h => absurd h.1 hz⟩

/-- The decoder reads every operation back from its word (R80, R81). -/
theorem decode_encode (i : Instr) : decode (encode i) = .ok i := by
  simp only [decode, fieldOp_encode, fieldA_encode, fieldB_encode, fieldC_encode]
  cases i <;> rfl

/-- The decoder drops no bit: in each row of R81 the opcode is the row's, a field is an operand or zero. -/
theorem encode_of_decode {w : Word} {i : Instr} (h : decode w = .ok i) : encode i = w := by
  have hop (n : Nat) (hn : (fieldOp w).toNat = n) : BitVec.ofNat 8 n = fieldOp w := by
    subst hn; simp
  rw [encode_eq_iff]
  simp only [decode] at h
  split at h
  case h_14 => cases h -- an opcode that R81 does not list
  case h_7 hn | h_8 hn => -- `DRAWH`, `DRAWV`: no unused field
    obtain rfl := Except.ok.inj h
    exact ⟨hop _ hn, rfl, rfl, rfl⟩
  all_goals
    next hn =>
    obtain ⟨hz, rfl⟩ := (needZero_eq_ok ..).mp h
    simp only [List.forall_mem_cons] at hz
    simp [Instr.opcode, Instr.operands, hop _ hn, hz]

/-- The decoder and the encoder name the same words (R80, R81, R83). -/
theorem decode_eq_ok_iff (w : Word) (i : Instr) : decode w = .ok i ↔ encode i = w :=
  ⟨encode_of_decode, fun h => h ▸ decode_encode i⟩

/-- Settles O1: extraction undoes the packing, and each opcode selects its own row with the unused fields zero. -/
theorem decodeOfEncode : Obligations.DecodeOfEncode := decode_encode

/-- Settles O2: a word is the packing of its fields, and the row that accepts it fixes each of them. -/
theorem encodeOfDecode : Obligations.EncodeOfDecode := fun _ _ => encode_of_decode

/-- Settles O3: each of the words is the one its operation encodes to. -/
theorem specWordsDecode : Obligations.SpecWordsDecode := by
  simp only [Obligations.SpecWordsDecode, decode_eq_ok_iff]
  decide

/-! ## The rows of the opcode table -/

/-- Masking works on the four fields one by one. -/
theorem packWord_and (op a b c op' a' b' c' : Byte) :
    packWord op a b c &&& packWord op' a' b' c' = packWord (op &&& op') (a &&& a') (b &&& b') (c &&& c') := by
  apply BitVec.eq_of_getLsbD_eq
  intro k _
  simp only [BitVec.getLsbD_and, getLsbD_packWord]
  split
  · rfl
  · split
    · rfl
    · split <;> rfl

/-- The bits of the operand fields that R81 shows as 0 for an operation. -/
def unusedBits : Instr → Byte × Byte × Byte
  | .txByte _ | .contrast _ => (0#8, 0xFF#8, 0xFF#8)
  | .setPos _ _ => (0#8, 0#8, 0xFF#8)
  | .drawH _ _ _ | .drawV _ _ _ => (0#8, 0#8, 0#8)
  | .beginSess | .endSess | .openCmd | .openData | .init | .clear | .pwrOff | .pwrOn => (0xFF#8, 0xFF#8, 0xFF#8)

/-- The row `(match, mask)` of an operation: its opcode, and its unused bits 0. -/
def rowOf (i : Instr) : Word × Word :=
  (packWord i.opcode 0#8 0#8 0#8, packWord 0xFF#8 (unusedBits i).1 (unusedBits i).2.1 (unusedBits i).2.2)

/-- What each row of the opcode table reads the word `w` as, in the order of `opcodeRows`. -/
def rowInstrs (w : Word) : List Instr :=
  [.beginSess, .txByte (fieldA w), .endSess, .openCmd, .openData, .setPos (fieldA w) (fieldB w),
   .drawH (fieldA w) (fieldB w) (fieldC w), .drawV (fieldA w) (fieldB w) (fieldC w), .init, .clear, .pwrOff, .pwrOn,
   .contrast (fieldA w)]

/-- The table's literals are the rows of the 13 operations; a row does not depend on operands. -/
theorem opcodeRows_eq (w : Word) : opcodeRows = (rowInstrs w).map rowOf :=
  (by decide : opcodeRows = (rowInstrs 0#32).map rowOf)

theorem mem_rowInstrs_encode (i : Instr) : i ∈ rowInstrs (encode i) := by
  cases i <;> simp [rowInstrs, Instr.operands]

theorem and_ones (x : Byte) : x &&& 0xFF#8 = x := BitVec.and_allOnes

/-- The operands that a row reads are the word's fields without the row's unused bits. -/
theorem operands_of_mem_rowInstrs {w : Word} {i : Instr} (hi : i ∈ rowInstrs w) :
    i.operands = (fieldA w &&& ~~~(unusedBits i).1, fieldB w &&& ~~~(unusedBits i).2.1,
      fieldC w &&& ~~~(unusedBits i).2.2) := by
  revert i
  simp [rowInstrs, Instr.operands, unusedBits, and_ones]

/-- A byte without the bits of a mask is the byte exactly when the mask finds none of its bits set. -/
theorem and_not_eq_self_iff (x m : Byte) : x &&& ~~~m = x ↔ x &&& m = 0#8 := by
  simp only [BitVec.eq_of_getLsbD_eq_iff, BitVec.getLsbD_and, BitVec.getLsbD_not, BitVec.getLsbD_zero]
  refine forall₂_congr fun k hk => ?_
  cases m.getLsbD k <;> simp [hk]

/-- A row matches a word exactly when the word is that of the operation the row reads in it (R81, R83). -/
theorem row_iff {w : Word} {i : Instr} (hi : i ∈ rowInstrs w) :
    w &&& (rowOf i).2 = (rowOf i).1 ↔ encode i = w := by
  rw [encode_eq_iff, operands_of_mem_rowInstrs hi, and_not_eq_self_iff, and_not_eq_self_iff, and_not_eq_self_iff,
    eq_comm (a := i.opcode)]
  conv_lhs => rw [rowOf, ← packWord_fields w, packWord_and, packWord_inj, and_ones]

/-- A word matches a row of the table exactly when it is the word of an operation. -/
theorem row_match_iff (w : Word) : (∃ r ∈ opcodeRows, w &&& r.2 = r.1) ↔ ∃ i, encode i = w := by
  simp only [opcodeRows_eq w, List.mem_map, exists_exists_and_eq_and]
  constructor
  · rintro ⟨i, hi, hw⟩
    exact ⟨i, (row_iff hi).mp hw⟩
  · rintro ⟨i, rfl⟩
    exact ⟨i, mem_rowInstrs_encode i, (row_iff (mem_rowInstrs_encode i)).mpr rfl⟩

/-- Settles O4: both sides say that the word is the word of an operation. -/
theorem decodeAcceptsTableRows : Obligations.DecodeAcceptsTableRows := by
  intro w
  simp only [row_match_iff, decode_eq_ok_iff]

/-! ## Refusals -/

/-- Settles O5: such a word does not decode, and the sequencer answers with the decoder's reason. -/
theorem reservedWordRefused : Obligations.ReservedWordRefused := by
  intro s w rest hidle hhost hrow
  cases hd : decode w with
  | ok i => exact absurd ((row_match_iff w).mpr ⟨i, encode_of_decode hd⟩) hrow
  | error r =>
    have htask : s.task = .answer (.refused (.reserved r)) := by simp [State.task, hhost, hidle, hd]
    exact ⟨r, by rw [step, htask]⟩

/-- In `IDLE` an operation is refused for its operands exactly when they are outside its domain (R85). -/
theorem exec_outOfDomain_iff (i : Instr) {s : State} (hidle : s.phase = .idle) :
    exec i s = .refused .operandOutOfDomain ↔ ¬ i.wf = true := by
  have hrefusal : refusalOf i s = some .operandOutOfDomain ↔ ¬ i.wf = true := by
    cases hw : i.wf with
    | false => simp [refusalOf, hidle, hw]
    | true => cases hn : needsSess i <;> cases hs : s.sess <;> simp [refusalOf, hidle, hw, hn, hs]
  rw [← hrefusal, exec_eq_issue, issue]
  cases refusalOf i s <;> simp

/-- Settles O6: the domain of each operation is its row of R85. -/
theorem outOfDomainRefused : Obligations.OutOfDomainRefused := by
  intro s a b c hidle
  simp [exec_outOfDomain_iff _ hidle, Instr.wf, setPosDomain, drawHDomain, drawVDomain, and_assoc]

end Sys2Proof.Machine
end

section
/-! PROOFS. The statement about expansions (spec/30_encoding.md R95): what micro-steps do to the part of a state that R95
compares depends on their actions only, and an expansion has the actions of its operation. -/

namespace Sys2Proof.Machine

/-! ## The part of a state that R95 compares -/

/-- The part of a state that R95 compares and that later operations go on from: all but the latches, the working registers
and the sequencer. -/
def State.shared (s : State) : State :=
  { s with ra := 0#8, rb := 0#8, rc := 0#8, ms := 0#8, me := 0#8, pg := 0#4, cnt := 0#11, op := 0#8,
           phase := .idle, seq := 0, pending := none }

theorem shared_eq_iff (s t : State) :
    s.shared = t.shared ↔ s.sess = t.sess ∧ s.ie = t.ie ∧ s.errf = t.errf ∧ s.dev = t.dev ∧ s.events = t.events
      ∧ s.params = t.params ∧ s.host = t.host ∧ s.answers = t.answers := by
  simp [State.shared]

theorem accept_shared (w : Word) (s : State) : (s.accept w).shared = s.shared := rfl

@[simp] theorem advance_shared (rs : List RegWrite) (s : State) : (s.advance rs).shared = s.shared := by
  simp [shared_eq_iff]

/-- What a bus step does to the shared part depends on the shared part only. -/
theorem complete_shared_congr {s t : State} (h : s.shared = t.shared) (k : Kind) (st : Status) :
    (s.complete k st).shared = (t.complete k st).shared := by
  obtain ⟨hsess, hie, herr, hdev, hev, hparams, hhost, hans⟩ := (shared_eq_iff s t).mp h
  cases k with
  | stop => simp [shared_eq_iff, State.complete, *]
  | start | addr | data => cases st <;> simp [shared_eq_iff, State.complete, respond_ok, respond_fail, *]

/-- What a micro-step does to the shared part depends on its action and the shared part only. -/
theorem microDone_shared_congr {m m' : Micro} {s t : State} (hact : m.act = m'.act) (h : s.shared = t.shared) :
    (s.microDone m).shared = (t.microDone m').shared := by
  obtain ⟨hsess, hie, herr, hdev, hev, hparams, hhost, hans⟩ := (shared_eq_iff s t).mp h
  simp only [State.microDone, advance_shared, ← hact]
  cases m.act with
  | irqOff | irqOn => simp [shared_eq_iff, *]
  | step k d =>
    rw [hans]
    exact complete_shared_congr (by simp [shared_eq_iff, *]) k _

/-- Two runs with the same actions, from states that share, end in states that share. -/
theorem runDone_shared_congr {ms ms' : List Micro} (hacts : ms.map (·.act) = ms'.map (·.act)) {s t : State}
    (h : s.shared = t.shared) : (runDone ms s).shared = (runDone ms' t).shared := by
  induction ms generalizing ms' s t with
  | nil =>
    rw [List.map_eq_nil_iff.mp hacts.symm]
    exact h
  | cons m ms ih =>
    obtain ⟨m', rest, rfl, hact, hrest⟩ := List.map_eq_cons_iff.mp hacts.symm
    exact ih hrest.symm (microDone_shared_congr hact.symm h)

/-! ## Operations issued one after another -/

/-- Operations whose operands are in their domain and that keep the session discipline one after another, from a given
`SESS` (R85, R116). -/
def issuable : Sess → List Instr → Bool
  | _, [] => true
  | s, i :: is => i.wf && decide (s = needsSess i) && issuable (sessAfter i) is

/-- Operations issued one after another, every step completed, run the micro-steps of all of them. -/
theorem execAll_shared (is : List Instr) (s : State) (hidle : s.phase = .idle) (his : issuable s.sess is = true)
    (hc : AllComplete s (is.flatMap (emit s.params)).length) :
    ∃ t, execAll is s = .next t ∧ t.shared = (runDone (is.flatMap (microsOf s.params)) s).shared := by
  induction is generalizing s with
  | nil => exact ⟨s, rfl, rfl⟩
  | cons i is ih =>
    simp only [issuable, Bool.and_eq_true, decide_eq_true_eq] at his
    obtain ⟨⟨hw, hsess⟩, hrest⟩ := his
    have hacc : Accepts i s := ⟨hidle, hw, hsess⟩
    rw [List.flatMap_cons, List.length_append] at hc
    have hci : AllComplete s (emit s.params i).length := fun k hk => hc k (by omega)
    have hparams : (finalState i s).params = s.params := runDone_params ..
    have hans : (finalState i s).answers = s.answers.after (emit s.params i).length :=
      congrArg State.answers (finalState_eq i s hacc hci)
    obtain ⟨t, hexec, ht⟩ := ih (finalState i s) rfl (by rwa [finalState_sess i s hacc hci]) (by
      intro k hk
      rw [hans, peek_after]
      exact hc _ (by rw [hparams] at hk; omega))
    refine ⟨t, by rw [execAll, exec_finalState i s hacc hci]; exact hexec, ht.trans ?_⟩
    rw [hparams, List.flatMap_cons, runDone_append]
    exact runDone_shared_congr rfl (runDone_shared_congr rfl rfl)

/-- Inside a session any bytes may be sent (R116). -/
theorem issuable_txBytes (l : List Byte) (is : List Instr) :
    issuable .opened (l.map .txByte ++ is) = issuable .opened is := by
  induction l with
  | nil => rfl
  | cons b l ih => simpa [issuable, Instr.wf, needsSess, sessAfter] using ih

theorem emit_txBytes (p : Params) (l : List Byte) : (l.map .txByte).flatMap (emit p) = l.map reqData := by
  induction l with
  | nil => rfl
  | cons b l ih => simpa [emit] using ih

/-- The operations of a position and a data session of the bytes `l`, which R95's drawing expansions are made of. -/
def lineInstrs (x page : Byte) (l : List Byte) : List Instr :=
  [.setPos x page, .openData] ++ l.map .txByte ++ [.endSess]

theorem issuable_lineInstrs {x page : Byte} (hpos : (Instr.setPos x page).wf = true) (l : List Byte)
    (is : List Instr) : issuable .closed (lineInstrs x page l ++ is) = issuable .closed is := by
  have hopen : Instr.openData.wf = true := rfl
  have hdata : issuable .opened (l.map .txByte ++ .endSess :: is) = issuable .closed is := issuable_txBytes l _
  simpa [lineInstrs, issuable, needsSess, sessAfter, hpos, hopen] using hdata

theorem issuable_line {x page : Byte} (hpos : (Instr.setPos x page).wf = true) (l : List Byte) :
    issuable .closed (lineInstrs x page l) = true := by
  simpa [issuable] using issuable_lineInstrs hpos l []

theorem emit_lineInstrs (p : Params) (x page : Byte) (l : List Byte) :
    (lineInstrs x page l).flatMap (emit p)
      = emitSetPos p x page.toNat ++ emitOpen p 0x40#8 ++ l.map reqData ++ [reqStop] := by
  simp only [lineInstrs, List.flatMap_append, emit_txBytes]
  simp [emit]

/-! ## The expansions -/

theorem expand_drawH (p : Params) (x y len : Byte) :
    expand p (.drawH x y len)
      = lineInstrs x (BitVec.ofNat 8 (pageOf y)) (List.replicate len.toNat (rowByte y)) := by
  rw [lineInstrs, List.map_replicate]; rfl

theorem expand_drawV (p : Params) (x y len : Byte) :
    expand p (.drawV x y len) = (List.range (pageCount y len)).flatMap fun i =>
      lineInstrs x (BitVec.ofNat 8 (pageOf y + i)) [lineByte y len i] := rfl

theorem expand_clear (p : Params) : expand p .clear = lineInstrs 0#8 0#8 (List.replicate 1024 0x00#8) := by
  rw [lineInstrs, List.map_replicate]; rfl

theorem expand_init (p : Params) : expand p .init = .openCmd :: (p.initPayload.map .txByte ++ [.endSess]) := by
  simp [expand, Params.initPayload]

/-- The position of each page write of `DRAWV` is in its domain (R85, R155). -/
theorem setPos_wf_of_drawV_wf {x y len : Byte} (hw : (Instr.drawV x y len).wf = true) {i : Nat}
    (hi : i < pageCount y len) : (Instr.setPos x (BitVec.ofNat 8 (pageOf y + i))).wf = true := by
  have hpages := pageOf_add_pageCount_le hw
  simp only [Instr.wf, drawVDomain, setPosDomain, Bool.and_eq_true, decide_eq_true_eq, BitVec.toNat_ofNat] at hw ⊢
  omega

/-- Page writes of `DRAWV` may be issued one after another (R157). -/
theorem issuable_pages {x y len : Byte} (hw : (Instr.drawV x y len).wf = true) {l : List Nat}
    (hl : ∀ i ∈ l, i < pageCount y len) :
    issuable .closed (l.flatMap fun i => lineInstrs x (BitVec.ofNat 8 (pageOf y + i)) [lineByte y len i]) = true := by
  induction l with
  | nil => rfl
  | cons i l ih =>
    obtain ⟨hi, hl⟩ := List.forall_mem_cons.mp hl
    rw [List.flatMap_cons, issuable_lineInstrs (setPos_wf_of_drawV_wf hw hi)]
    exact ih hl

/-- Expansions are accepted, one operation after another, where the operation is (R95, R116). -/
theorem issuable_expand (p : Params) (i : Instr) (hw : i.wf = true) : issuable (needsSess i) (expand p i) = true := by
  cases i with
  | drawH x y len =>
    have hpos : (Instr.setPos x (BitVec.ofNat 8 (pageOf y))).wf = true := by
      simp only [Instr.wf, drawHDomain, setPosDomain, pageOf, Config.pageRows, Bool.and_eq_true, decide_eq_true_eq,
        BitVec.toNat_ofNat] at hw ⊢
      omega
    rw [expand_drawH]
    exact issuable_line hpos _
  | drawV x y len =>
    rw [expand_drawV]
    exact issuable_pages hw fun i => List.mem_range.mp
  | clear =>
    rw [expand_clear]
    exact issuable_line rfl _
  | init =>
    rw [expand_init]
    exact issuable_txBytes p.initPayload [.endSess]
  | setPos x page => simp [expand, issuable, needsSess, sessAfter, Instr.wf]
  | _ => rfl

/-- The bus requests of an expansion are those of the operation (R95, R118). -/
theorem emit_expand (p : Params) (i : Instr) : (expand p i).flatMap (emit p) = emit p i := by
  cases i with
  | drawH x y len =>
    have hpage : (BitVec.ofNat 8 (pageOf y)).toNat = y.toNat / 8 := by
      rw [BitVec.toNat_ofNat, pageOf, Config.pageRows]; omega
    rw [expand_drawH, emit_lineInstrs, hpage, List.map_replicate]
    rfl
  | drawV x y len =>
    have hpage : ∀ i < pageCount y len, (BitVec.ofNat 8 (pageOf y + i)).toNat = y.toNat / 8 + i := by
      intro i hi
      simp only [pageCount, bitOf, Config.pageRows] at hi
      rw [BitVec.toNat_ofNat, pageOf, Config.pageRows]; omega
    rw [expand_drawV, emit, List.flatMap_assoc]
    refine List.flatMap_congr fun i hi => ?_
    rw [emit_lineInstrs, hpage i (List.mem_range.mp hi)]
    simp
  | clear =>
    rw [expand_clear, emit_lineInstrs, List.map_replicate]
    rfl
  | init =>
    rw [expand_init, List.flatMap_cons, List.flatMap_append, emit_txBytes]
    simp [emit, Params.initPayload]
  | _ => rfl

/-- The actions of operations in a row are those of their requests in a row (R118). -/
theorem flatMap_microsOf_acts (p : Params) (is : List Instr) :
    (is.flatMap (microsOf p)).map (·.act) = (is.flatMap (emit p)).flatMap actsOf := by
  simp only [List.map_flatMap, microsOf_acts, List.flatMap_assoc]

/-- Settles O59: the expansion is accepted one operation after another and sends the same requests, so its micro-steps act
like those of the operation on all that R95 compares. -/
theorem expansionEquivalent : Obligations.ExpansionEquivalent := by
  intro i s hacc hc
  have ⟨hidle, hw, hsess⟩ := hacc
  obtain ⟨t', hexec, hshared⟩ := execAll_shared (expand s.params i) s hidle
    (by rw [hsess]; exact issuable_expand s.params i hw) (by rwa [emit_expand])
  have hacts : ((expand s.params i).flatMap (microsOf s.params)).map (·.act) = (microsOf s.params i).map (·.act) := by
    rw [flatMap_microsOf_acts, emit_expand, microsOf_acts]
  have hsame : t'.shared = (finalState i s).shared :=
    hshared.trans (runDone_shared_congr hacts (accept_shared (encode i) s).symm)
  obtain ⟨hsess', hie, herr, hdev, hev, -⟩ := (shared_eq_iff _ _).mp hsame
  exact ⟨finalState i s, t', exec_finalState i s hacc hc, hexec, congrArg List.reverse hev, hsess', hie, herr, hdev⟩

end Sys2Proof.Machine
end

section
/-! PROOFS. The statements about the bus (spec/40_bus_primitives.md): the requests and the trace of an operation, the state
inside a step never completed, the session discipline, and the primitives `BEGIN`, `TXBYTE`, `END`. -/

namespace Sys2Proof.Machine

/-! ## The requests of an operation in `TRACE` -/

/-- An accepted operation adds to `TRACE` the events of its `Emit`, stalled or not (R118). -/
theorem trace_of_exec {i : Instr} {s t : State} (h : exec i s = .next t) :
    t.trace = s.trace ++ eventsOf s.answers.peek (emit s.params i) := by
  obtain ⟨-, rfl⟩ := exec_next i s t h
  rw [runMicros_trace, microsOf_acts, actTrace_acts]
  rfl

/-- Settles O14: the micro-steps have the actions of `Emit`, and any run of them adds the events of its actions. -/
theorem operationTrace : Obligations.OperationTrace := by
  intro i s h
  have hexec := exec_accepted i s h
  exact ⟨_, hexec, trace_of_exec hexec⟩

@[simp] theorem reqsOf_req (r : Req) (es : List Event) : reqsOf (.req r :: es) = r :: reqsOf es := rfl

theorem reqsOf_append (es fs : List Event) : reqsOf (es ++ fs) = reqsOf es ++ reqsOf fs := List.filterMap_append

@[simp] theorem reqsOf_completion (k : Kind) (a : Answer) : reqsOf (completionEvents k a) = [] := by
  cases k <;> cases a <;> rfl

/-- The requests in the events of a list of requests: all of them, or those up to the first never completed (R117). -/
theorem reqsOf_eventsOf {ans : Nat → Answer} {rs : List Req} {k : Nat} (hbefore : ∀ j, j < k → ans j ≠ .never)
    (hend : rs.length ≤ k ∨ ans k = .never) : reqsOf (eventsOf ans rs) = rs.take (k + 1) := by
  induction rs generalizing ans k with
  | nil => rfl
  | cons r rs ih =>
    have hmask : reqsOf (if r.kind = .start then [.irqOff] else []) = [] := by split <;> rfl
    have hunmask : reqsOf (if r.kind = .stop then [.irqOn] else []) = [] := by split <;> rfl
    rw [eventsOf, reqsOf_append, hmask, List.nil_append, reqsOf_req, List.take_succ_cons, List.cons_inj_right]
    cases k with
    | zero =>
      have h0 : ans 0 = .never := hend.resolve_left (by simp)
      rw [if_pos h0]; rfl
    | succ k =>
      have ih' := ih (ans := fun j => ans (j + 1)) (fun j hj => hbefore (j + 1) (by omega))
        (hend.imp_left Nat.le_of_succ_le_succ)
      rw [if_neg (hbefore 0 (by omega)), reqsOf_append, reqsOf_append, reqsOf_completion, hunmask]
      exact ih'

/-- The bus requests of an operation: those of its `Emit`, up to the first never completed (R117, R118). -/
theorem busProjection_of_exec {i : Instr} {s t : State} {k : Nat} (h : exec i s = .next t)
    (hbefore : ∀ j, j < k → s.answers.peek j ≠ .never)
    (hend : (emit s.params i).length ≤ k ∨ s.answers.peek k = .never) :
    t.busProjection = s.busProjection ++ (emit s.params i).take (k + 1) := by
  rw [State.busProjection, trace_of_exec h, reqsOf_append, reqsOf_eventsOf hbefore hend]
  rfl

/-- Settles O15: the requests among the events of `Emit`, every step completed, are `Emit`. -/
theorem busProjectionIsEmit : Obligations.BusProjectionIsEmit := by
  intro i s h hc
  have hexec := exec_finalState i s h hc
  have hbus := busProjection_of_exec hexec hc (.inl le_rfl)
  rw [List.take_of_length_le (Nat.le_succ _)] at hbus
  exact ⟨_, hexec, hbus⟩

/-- Settles O17: the bus steps of the micro-steps are counted session by session. -/
theorem emitLengths : Obligations.EmitLengths := by
  intro p v x page y len
  have hdrawV : (emit p (.drawV x y len)).length = 12 * pageCount y len := by
    rw [← busCount_microsOf]; exact busCount_pages p x y len (pageCount y len)
  have hinit : (emit p .init).length = 10 + p.initSeq.length := by
    simp [emit, emitOpen]; omega
  exact ⟨rfl, rfl, rfl, rfl, rfl, rfl, emit_line_length rfl, hdrawV, rfl, rfl, rfl,
    emit_line_length (n := 1024) rfl, hinit⟩

/-! ## Whole sessions -/

/-- Requests pair up exactly when their actions keep the session discipline and leave no session open (R116). -/
theorem paired_eq (s : Sess) (rs : List Req) :
    paired s rs = (actsOk s (rs.flatMap actsOf) && decide (sessOf s (rs.flatMap actsOf) = .closed)) := by
  induction rs generalizing s with
  | nil => cases s <;> rfl
  | cons r rs ih =>
    obtain ⟨k, d⟩ := r
    cases s with
    | closed => cases k <;> simp [paired, actsOf, actsOk, sessOf, ih]
    | opened => cases k <;> simp [paired, actsOf, actsOk, sessOf, ih]

/-- Whole sessions one after another leave no session open. -/
theorem sessOf_isSessions {p : Params} {cs : List (Byte × List Byte)} {ms : List Micro} (h : IsSessions p cs ms) :
    sessOf .closed (ms.map (·.act)) = .closed := by
  induction cs generalizing ms with
  | nil => rw [show ms = [] from h]; rfl
  | cons c cs ih =>
    obtain ⟨as, bs, rfl, hsession, -, hrest⟩ := h
    have hclosed : sessOf .closed (as.map (·.act)) = .closed := by
      rw [hsession, ← List.cons_append, sessOf_append]; rfl
    rw [List.map_append, sessOf_append, hclosed, ih hrest]

/-- Settles O18: a compound operation is whole sessions, and every operation's actions keep the session discipline. -/
theorem compoundSessionsPaired : Obligations.CompoundSessionsPaired := by
  intro p i hneeds hafter
  have hok := actsOk_emit p i
  rw [hneeds] at hok
  rw [paired_eq, hok, ← microsOf_acts, sessOf_isSessions (microsOf_isSessions p i hneeds hafter)]
  rfl

/-! ## The session discipline at acceptance -/

/-- An operation that needs a session open is refused outside one (R116). -/
theorem exec_sessionClosed {i : Instr} {s : State} (hidle : s.phase = .idle) (hw : i.wf = true)
    (hneeds : needsSess i = .opened) (hsess : s.sess = .closed) : exec i s = .refused .sessionClosed := by
  simp [exec_eq_issue, issue, refusalOf, hidle, hw, hneeds, hsess]

/-- An operation that needs no session open is refused inside one (R116). -/
theorem exec_sessionOpen {i : Instr} {s : State} (hidle : s.phase = .idle) (hw : i.wf = true)
    (hneeds : needsSess i = .closed) (hsess : s.sess = .opened) : exec i s = .refused .sessionOpen := by
  simp [exec_eq_issue, issue, refusalOf, hidle, hw, hneeds, hsess]

/-- Settles O7: `END` and `TXBYTE` are the operations that need a session open. -/
theorem sessionDisciplineRefused : Obligations.SessionDisciplineRefused := by
  intro s i hidle hw
  constructor
  · intro hsess hi
    have hneeds : needsSess i = .opened := by rcases hi with rfl | ⟨v, rfl⟩ <;> rfl
    exact exec_sessionClosed hidle hw hneeds hsess
  · intro hsess hend htx
    have hneeds : needsSess i = .closed := by
      cases i with
      | endSess => exact absurd rfl hend
      | txByte v => exact absurd rfl (htx v)
      | _ => rfl
    exact exec_sessionOpen hidle hw hneeds hsess

/-! ## The primitives -/

/-- An operation that writes no working register, every step of it answered, leaves the completed state but for `IE`. -/
theorem exec_completedState_ie {i : Instr} {s : State} (h : Accepts i s)
    (hc : AllComplete s (emit s.params i).length) (hregs : (microsOf s.params i).flatMap (·.regs) = []) :
    exec i s = .next { completedState i s (finalState i s).dev with ie := (finalState i s).ie } := by
  obtain ⟨hms, hme, hpg, hcnt⟩ := finalState_regs i s
  rw [hregs] at hms hme hpg hcnt
  rw [exec_finalState i s h hc, finalState_eq i s h hc, hms, hme, hpg, hcnt]
  rfl

/-- An operation that only opens or feeds a session leaves the device alone when its steps are answered (R58). -/
theorem finalState_dev_of_open {i : Instr} {s : State} (h : Accepts i s)
    (hc : AllComplete s (emit s.params i).length)
    (hi : i = .beginSess ∨ (∃ v, i = .txByte v) ∨ i = .openCmd ∨ i = .openData) : (finalState i s).dev = s.dev :=
  (openSessionFrame i s _ hi (exec_finalState i s h hc)).1 rfl

/-- Settles O19: accepted outside a session only; it masks interrupts, writes no register and has no stop. -/
theorem beginCompletes : Obligations.BeginCompletes := by
  refine fun s hidle => ⟨rfl, exec_sessionOpen hidle rfl rfl, fun hsess hc => ?_⟩
  have hacc : Accepts .beginSess s := ⟨hidle, rfl, hsess⟩
  rw [exec_completedState .beginSess s hacc hc rfl (by simp), finalState_dev_of_open hacc hc (.inl rfl)]

/-- Settles O20: accepted inside a session only; its one step writes neither `IE` nor a register, and is no stop. -/
theorem txByteCompletes : Obligations.TxByteCompletes := by
  refine fun s v hidle => ⟨rfl, exec_sessionClosed hidle rfl rfl, fun hsess hc => ?_⟩
  have hacc : Accepts (.txByte v) s := ⟨hidle, rfl, hsess⟩
  have hie : (finalState (.txByte v) s).ie = s.ie := by
    simp [finalState, microsOf, microsTxByte, dataStep, bus, State.microDone]
  rw [exec_completedState_ie hacc hc rfl, finalState_dev_of_open hacc hc (.inr (.inl ⟨v, rfl⟩)), hie]

/-! ## Inside a step never completed -/

/-- Micro-steps after others that complete go on from where these end. -/
theorem runList_append {as bs : List Micro} {s t : State} (h : runList as s = .completed t) :
    runList (as ++ bs) s = runList bs t := by
  induction as generalizing s with
  | nil => cases h; rfl
  | cons m as ih =>
    simp only [List.cons_append, runList] at h ⊢
    cases hm : s.micro m with
    | completed u => rw [hm] at h; exact ih h
    | stalled u => rw [hm] at h; cases h

/-- A run whose bus steps are answered up to one that never is waits inside that one (R117). -/
theorem runMicros_stalls {pre post : List Micro} {m : Micro} {s : State} {k : Kind} {d : Byte}
    (hm : m.act = .step k d) (hbefore : ∀ j, j < busCount (pre.map (·.act)) → s.answers.peek j ≠ .never)
    (hnever : s.answers.peek (busCount (pre.map (·.act))) = .never) :
    runMicros (pre ++ m :: post) s = (runDone pre s).strand k d := by
  have hnext : (runDone pre s).answers.next = .never := by
    rw [runDone_answers, ← peek_zero, peek_after]; exact hnever
  have hstall : (runDone pre s).micro m = .stalled ((runDone pre s).strand k d) := by
    simp [State.micro, hm, State.act, State.busStep, hnext]
  rw [runMicros, runList_append (runList_completes pre s hbefore), runList, hstall]

/-- Settles O21: the device reads the session at the stop's `Done`; a stop that never completes is the first micro-step. -/
theorem endCompletes : Obligations.EndCompletes := by
  refine fun s hidle => ⟨rfl, exec_sessionClosed hidle rfl rfl, exec_endSess s hidle, fun hsess hnever => ?_⟩
  have hstall : runMicros (microsOf s.params .endSess) (s.accept (encode .endSess))
      = (s.accept (encode .endSess)).strand .stop 0#8 := runMicros_stalls (pre := []) rfl (by simp [busCount]) hnever
  refine ⟨_, exec_accepted .endSess s ⟨hidle, rfl, hsess⟩, ?_⟩
  rw [hstall]
  exact ⟨⟨rfl, rfl⟩, hsess, rfl, rfl⟩

theorem busCount_mask (c : Prop) [Decidable c] : busCount (if c then [.irqOff] else []) = 0 := by
  split <;> rfl

theorem actNack_mask (ans : Nat → Answer) (c : Prop) [Decidable c] :
    actNack ans (if c then [.irqOff] else []) = false := by
  split <;> rfl

/-- The micro-steps of an operation, divided at the bus step of its request number `k`: before it stand the `k` bus steps of
the requests before, which fail where these do (R112, R118). -/
theorem microsOf_split {p : Params} {i : Instr} {k : Nat} {r : Req} (h : (emit p i)[k]? = some r) :
    ∃ pre m post, microsOf p i = pre ++ m :: post ∧ m.act = .step r.kind r.data ∧ busCount (pre.map (·.act)) = k
      ∧ ∀ ans, actNack ans (pre.map (·.act)) = nackIn ans ((emit p i).take k) := by
  have hacts := microsOf_acts p i
  obtain ⟨hk, hr⟩ := List.getElem?_eq_some_iff.mp h
  rw [← List.take_append_drop k (emit p i), List.drop_eq_getElem_cons hk, hr, List.flatMap_append, List.flatMap_cons,
    actsOf, List.append_assoc, ← List.append_assoc, List.cons_append] at hacts
  obtain ⟨pre, rest, hms, hpre, hrest⟩ := List.map_eq_append_iff.mp hacts
  obtain ⟨m, post, rfl, hm, -⟩ := List.map_eq_cons_iff.mp hrest
  refine ⟨pre, m, post, hms, hm, ?_, fun ans => ?_⟩
  · rw [hpre, busCount_append, busCount_acts, busCount_mask, List.length_take, Nat.add_zero, min_eq_left hk.le]
  · rw [hpre, actNack_append, actNack_acts, actNack_mask, Bool.or_false]

theorem microDone_draws (m : Micro) (s : State) : s.dev.draws ≤ (s.microDone m).dev.draws := by
  obtain ⟨a, r⟩ := m
  cases a with
  | irqOff | irqOn => exact le_of_eq (by simp [State.microDone])
  | step k d =>
    simp only [State.microDone, advance_dev, complete_dev]
    split
    · exact readSession_draws ..
    · exact le_rfl

/-- Micro-steps take back no draw of the device (R52). -/
theorem runDone_draws (ms : List Micro) (s : State) : s.dev.draws ≤ (runDone ms s).dev.draws := by
  induction ms generalizing s with
  | nil => exact le_rfl
  | cons m ms ih => exact (microDone_draws m s).trans (ih _)

/-- Settles O36: the micro-steps before the request's own complete, and the request is stranded in the state they lead to;
an operation's bus steps lie inside its sessions, and the invariant ties `IE` to `SESS`. -/
theorem stallLeavesRunning : Obligations.StallLeavesRunning := by
  intro i s k r hinv hacc hr hbefore hnever
  obtain ⟨pre, m, post, hms, hm, rfl, hnack⟩ := microsOf_split hr
  have hexec : exec i s = .next ((runDone pre (s.accept (encode i))).strand r.kind r.data) := by
    rw [exec_accepted i s hacc, hms, runMicros_stalls (s := s.accept (encode i)) hm hbefore hnever]
  have hphase : (runDone pre (s.accept (encode i))).phase = .run := by
    obtain ⟨-, -, -, -, -, -, hphase⟩ := runDone_fixed pre (s.accept (encode i))
    exact hphase
  have hsess : (runDone pre (s.accept (encode i))).sess = .opened :=
    stall_sess i s hacc pre m post r.kind r.data hms hm
  have hie : (runDone pre (s.accept (encode i))).ie = false := by
    obtain ⟨hie, -⟩ := exec_keeps_inv hinv hexec
    exact hie.mpr hsess
  have herrf := runDone_errf pre (s.accept (encode i)) hbefore
  rw [hnack] at herrf
  obtain ⟨-, -, -, hop, hra, hrb, hrc, -⟩ := operationFrame i s _ hexec
  exact ⟨_, hexec, hphase, rfl, hsess, hie, herrf, rfl, busProjection_of_exec hexec hbefore (.inr hnever), hop, hra, hrb,
    hrc, _, rfl, runDone_draws pre (s.accept (encode i))⟩

/-- Settles O10: while a bus step is in flight the sequencer's task, whatever word the host presents, is to answer the same
state. -/
theorem stuckUnlessReset : Obligations.StuckUnlessReset := by
  rintro s ⟨hrun, hpend⟩ hrst
  obtain ⟨r, hr⟩ := Option.isSome_iff_exists.mp hpend
  have hwait : s.continueRun = .next s := by rw [State.continueRun, hr]
  have htask : s.task = .answer (.next s) := by
    rw [← hwait]
    cases hh : s.host with
    | nil => simp [State.task, hh, hrun]
    | cons m rest =>
      cases m with
      | rst => simp [hh] at hrst
      | word | wordThenRst => simp [State.task, hh, hrun]
  rw [step, htask]

end Sys2Proof.Machine
end

section
/-! PROOFS. The statements about the command/data channel (spec/41_channel.md): `OPENCMD`, `OPENDATA`. -/

namespace Sys2Proof.Machine

/-- Opening a channel, every step answered, leaves the completed state and the device as it was: it masks interrupts, writes
no working register and has no stop (R88, R130, R131). -/
theorem exec_openChannel {i : Instr} {s : State} (hi : i = .openCmd ∨ i = .openData) (hacc : Accepts i s)
    (hc : AllComplete s (emit s.params i).length) : exec i s = .next (completedState i s s.dev) := by
  have hregs : (microsOf s.params i).flatMap (·.regs) = [] := by rcases hi with rfl | rfl <;> rfl
  have hmask : ∀ v, i ≠ .txByte v := by rcases hi with rfl | rfl <;> simp
  rw [exec_completedState i s hacc hc hregs hmask, finalState_dev_of_open hacc hc (.inr (.inr hi))]

/-- Settles O22: accepted outside a session only, where it opens the channel of commands. -/
theorem openCmdCompletes : Obligations.OpenCmdCompletes := fun _ hidle =>
  ⟨rfl, exec_sessionOpen hidle rfl rfl, fun hsess hc => exec_openChannel (.inl rfl) ⟨hidle, rfl, hsess⟩ hc⟩

/-- Settles O23: accepted outside a session only, where it opens the channel of data. -/
theorem openDataCompletes : Obligations.OpenDataCompletes := fun _ hidle =>
  ⟨rfl, exec_sessionOpen hidle rfl rfl, fun hsess hc => exec_openChannel (.inr rfl) ⟨hidle, rfl, hsess⟩ hc⟩

end Sys2Proof.Machine
end

section
/-! PROOFS. The statement about addressing (spec/42_addressing.md): `SETPOS`. -/

namespace Sys2Proof.Machine

/-- One command session, every step `OK`, leaves the completed state with the device as its payload's commands make it: it
masks interrupts and writes no working register (R58, R95). -/
theorem exec_cmdSession {i : Instr} {s : State} {l : List Byte} (hi : microsOf s.params i = cmdSession s.params l [])
    (hacc : Accepts i s) (hok : AllOk s (l.length + 4)) :
    exec i s = .next (completedState i s (s.dev.commands s.params l)) := by
  have hlen : (emit s.params i).length = l.length + 4 := by
    rw [← busCount_microsOf, hi, busCount_isSession _ _ _ _ (cmdSession_isSession s.params l [])]
  have hregs : (microsOf s.params i).flatMap (·.regs) = [] := hi ▸ cmdSession_regs ..
  have hmask : ∀ v, i ≠ .txByte v := by
    rintro v rfl
    simp [emit] at hlen
  rw [exec_completedState i s hacc (hlen ▸ allOk_complete hok) hregs hmask, finalState_cmd_dev i s l hi hok]

/-- Settles O24: the operation is one command session of the three addressing bytes, which set the cursor. -/
theorem setPosPositions : Obligations.SetPosPositions := by
  intro s x page hidle hclosed hx hpage hp hok
  have hw : (Instr.setPos x page).wf = true := by simp [Instr.wf, setPosDomain, hx, hpage]
  rw [exec_cmdSession (l := posBytes s.params x page.toNat) rfl ⟨hidle, hw, hclosed⟩ hok,
    commands_posBytes s.params hp x page.toNat hx hpage]

end Sys2Proof.Machine
end

section
/-! PROOFS. The statements about the rasterizer (spec/43_rasterizer.md): the bits of its bytes and the pages of a line, and
what `DRAWH` and `DRAWV` leave of a configured device. -/

namespace Sys2Proof.Machine

/-! ## The bytes of a line -/

/-- Settles O47: the shift counts are below 8, and each entry is its formula at that count. -/
theorem maskTables : Obligations.MaskTables := by
  intro y len
  have hy : y.toNat % 8 < 8 := Nat.mod_lt _ (by decide)
  have he : (y.toNat + len.toNat) % 8 < 8 := Nat.mod_lt _ (by decide)
  simp only [rowByte, startMask, endMask, bitOf, endShift, Config.pageRows]
  generalize y.toNat % 8 = k at *
  generalize (y.toNat + len.toNat) % 8 = e at *
  refine ⟨?_, ?_, ?_⟩
  · revert k; decide
  · revert k; decide
  · revert e; decide

theorem startMask_eq_shiftLeft (y : Byte) : startMask y = 0xFF#8 <<< (y.toNat % 8) := by
  apply BitVec.eq_of_toNat_eq
  simp [startMask, bitOf, Config.pageRows]

theorem endMask_eq_shiftRight (y len : Byte) : endMask y len = 0xFF#8 >>> ((y.toNat + len.toNat) % 8) := by
  have hle : 0xFF >>> ((y.toNat + len.toNat) % 8) ≤ 0xFF := Nat.shiftRight_le _ _
  apply BitVec.eq_of_toNat_eq
  rw [endMask, BitVec.toNat_ofNat, BitVec.toNat_ushiftRight]
  exact Nat.mod_eq_of_lt (Nat.lt_succ_of_le hle)

/-- `0xFF` has the bits below 8. -/
theorem getLsbD_ones (k : Nat) : (0xFF#8 : Byte).getLsbD k = decide (k < 8) := BitVec.getLsbD_allOnes

/-- The end mask has the bits up to `7 - e` (R155). -/
theorem getLsbD_endMask (y len : Byte) (k : Nat) :
    (endMask y len).getLsbD k = decide (k + (y.toNat + len.toNat) % 8 < 8) := by
  rw [endMask_eq_shiftRight, BitVec.getLsbD_ushiftRight, getLsbD_ones, Nat.add_comm]

/-- The start mask has the bits from `y % 8` up (R155). -/
theorem getLsbD_startMask (y : Byte) {k : Nat} (hk : k < 8) :
    (startMask y).getLsbD k = decide (y.toNat % 8 ≤ k) := by
  rw [startMask_eq_shiftLeft, BitVec.getLsbD_shiftLeft, getLsbD_ones, decide_eq_true hk,
    decide_eq_true (Nat.lt_of_le_of_lt (Nat.sub_le ..) hk), Bool.true_and, Bool.and_true, ← decide_not]
  exact decide_eq_decide.mpr Nat.not_lt

/-- The horizontal line's byte has bit `y % 8` alone (R153). -/
theorem getLsbD_rowByte (y : Byte) {k : Nat} (hk : k < 8) :
    (rowByte y).getLsbD k = decide (k = y.toNat % 8) := by
  rw [rowByte, BitVec.getLsbD_ofNat, Nat.one_shiftLeft, Nat.testBit_two_pow, decide_eq_true hk, Bool.true_and]
  exact decide_eq_decide.mpr eq_comm

/-- **The rows of a page write.** In page write `i` of `DRAWV` the rows lit are those from `y` on that leave `e` rows of the
last page dark (R156, R160). -/
theorem getLsbD_lineByte {y len : Byte} {i k : Nat} (hi : i < pageCount y len) (hk : k < 8) :
    (lineByte y len i).getLsbD k = true ↔
      y.toNat ≤ (pageOf y + i) * 8 + k
        ∧ (pageOf y + i) * 8 + k + (y.toNat + len.toNat) % 8 < (pageOf y + pageCount y len) * 8 := by
  have hstart := getLsbD_startMask y hk
  have hend := getLsbD_endMask y len k
  have hones := getLsbD_ones k
  simp only [lineByte, pageOf, Config.pageRows]
  split
  next => -- the only page
    rw [BitVec.getLsbD_and, hstart, hend, Bool.and_eq_true, decide_eq_true_eq, decide_eq_true_eq]
    omega
  split
  next => rw [hstart, decide_eq_true_eq]; omega -- the first page
  split
  next => rw [hend, decide_eq_true_eq]; omega -- the last page
  next => rw [hones, decide_eq_true_eq]; omega -- a page between

/-- Settles O48: `n` is the ceiling of `(y % 8 + len) / 8`. -/
theorem pageSpan : Obligations.PageSpan := by
  intro y len hy hlen hfits
  simp only [pageCount, bitOf, Config.pageRows]
  omega

/-- Settles O50: the last page's last lit row is `7 - e`, the geometric line's is `e - 1`, or `7` where `e` is 0. -/
theorem geometricLineIff : Obligations.GeometricLineIff := by
  intro y len hy hlen hfits
  obtain ⟨hpos, -, hlast, -, -⟩ := pageSpan y len hy hlen hfits
  have hlit {i k : Nat} (hi : i < pageCount y len) (hk : k < 8) := getLsbD_lineByte hi hk
  simp only [pageOf, Config.pageRows] at hlit
  constructor
  · intro h
    -- in the last page, `7 - e` is on the geometric line and `e - 1` is lit, so `7 - e = e - 1`
    by_contra he
    have hrow {k : Nat} (hk : k < 8) :=
      (hlit (Nat.sub_one_lt_of_lt hpos) hk).symm.trans (h _ k (Nat.sub_one_lt_of_lt hpos) hk)
    have hlastLit := hrow (k := 7 - (y.toNat + len.toNat) % 8) (by omega)
    have hlastOfLine := hrow (k := (y.toNat + len.toNat) % 8 - 1) (by omega)
    omega
  · intro he i k hi hk
    rw [hlit hi hk]
    omega

/-! ## A position and a counted data session -/

section
variable {i : Instr} {s : State} {x : Byte} {page n : Nat} {v : Byte}
  (hi : microsOf s.params i = positionMicros s.params x page [] ++ countedData s.params n v)
  (hp : s.params.disjoint = true) (hx : x.toNat ≤ 127) (hpage : page ≤ 7) (hok : AllOk s (11 + n))
include hi hp hx hpage hok

/-- The bytes land from column `x` of the page on, every other byte is as before (R55, R153). -/
theorem finalState_line_read (hcfg : s.dev.cfg = .configured) (hwf : s.dev.gddram.wf = true)
    (hfits : cellAddr page x.toNat + n ≤ Config.frameBytes) (a : Nat) :
    (finalState i s).dev.gddram.read a
      = if cellAddr page x.toNat ≤ a ∧ a < cellAddr page x.toNat + n then v else s.dev.gddram.read a := by
  have hcursor := cursorAddr_position s.dev x page hx hpage
  rw [finalState_line_dev i s x page n v hi hp hx hpage hok,
    writes_read _ _ (by exact hcfg) (by exact hwf) (by rwa [hcursor, List.length_replicate]), hcursor,
    List.length_replicate]
  split
  · rw [List.getElem?_replicate_of_lt (by omega), Option.getD_some]
  · rfl

/-- The cursor stands behind the bytes (R56). -/
theorem finalState_line_cursorAddr (hcfg : s.dev.cfg = .configured)
    (hfits : cellAddr page x.toNat + n < Config.frameBytes) :
    (finalState i s).dev.cursorAddr = cellAddr page x.toNat + n := by
  have hcursor := cursorAddr_position s.dev x page hx hpage
  rw [finalState_line_dev i s x page n v hi hp hx hpage hok,
    writes_cursorAddr _ _ (by exact hcfg) (by rwa [hcursor, List.length_replicate]), hcursor, List.length_replicate]

/-- Only display RAM and cursor change (R55). -/
theorem finalState_line_keeps :
    (finalState i s).dev.on = s.dev.on ∧ (finalState i s).dev.contrast = s.dev.contrast
      ∧ (finalState i s).dev.cfg = s.dev.cfg := by
  rw [finalState_line_dev i s x page n v hi hp hx hpage hok]
  exact writes_keeps ..

end

/-- The cursor's address says where the cursor stands (R51). -/
theorem cursor_of_cursorAddr {d : Dev} {page col : Nat} (h : d.cursorAddr = cellAddr page col) (hcol : col < 128) :
    d.page.val = page ∧ d.col.val = col := by
  have hlt := d.col.isLt
  simp only [Dev.cursorAddr, cellAddr, Config.width] at h
  omega

/-! ## `DRAWH` -/

theorem drawH_wf_iff (x y len : Byte) : (Instr.drawH x y len).wf = true ↔
    x.toNat ≤ 127 ∧ y.toNat ≤ 63 ∧ 1 ≤ len.toNat ∧ x.toNat + len.toNat ≤ 128 := by
  simp [Instr.wf, drawHDomain, and_assoc]

/-- A horizontal line lies inside the display RAM (R85). -/
theorem drawH_fits {x y len : Byte} (hw : (Instr.drawH x y len).wf = true) :
    x.toNat ≤ 127 ∧ pageOf y ≤ 7 ∧ cellAddr (pageOf y) x.toNat + len.toNat ≤ Config.frameBytes := by
  obtain ⟨hx, hy, -, hfits⟩ := (drawH_wf_iff x y len).mp hw
  simp only [pageOf, cellAddr, Config.pageRows, Config.width, Config.frameBytes]
  omega

section
variable {s : State} {x y len : Byte} (hw : (Instr.drawH x y len).wf = true) (hp : s.params.disjoint = true)
  (hok : AllOk s (11 + len.toNat))
include hw hp hok

/-- `DRAWH` on a configured device: the line's bytes, and every other byte as before (R153). -/
theorem finalState_drawH_read (hcfg : s.dev.cfg = .configured) (hwf : s.dev.gddram.wf = true) (a : Nat) :
    (finalState (.drawH x y len) s).dev.gddram.read a
      = if cellAddr (pageOf y) x.toNat ≤ a ∧ a < cellAddr (pageOf y) x.toNat + len.toNat then rowByte y
        else s.dev.gddram.read a :=
  have ⟨hx, hpage, hfits⟩ := drawH_fits hw
  finalState_line_read rfl hp hx hpage hok hcfg hwf hfits a

theorem finalState_drawH_keeps :
    (finalState (.drawH x y len) s).dev.on = s.dev.on
      ∧ (finalState (.drawH x y len) s).dev.contrast = s.dev.contrast
      ∧ (finalState (.drawH x y len) s).dev.cfg = s.dev.cfg :=
  have ⟨hx, hpage, _⟩ := drawH_fits hw
  finalState_line_keeps rfl hp hx hpage hok

/-- The cursor behind a horizontal line that does not end at the last byte of the display RAM (R56). -/
theorem finalState_drawH_cursor (hcfg : s.dev.cfg = .configured) {page col : Nat} (hcol : col < 128) (hlast : page ≤ 7)
    (hend : cellAddr (pageOf y) x.toNat + len.toNat = cellAddr page col) :
    (finalState (.drawH x y len) s).dev.page.val = page ∧ (finalState (.drawH x y len) s).dev.col.val = col := by
  obtain ⟨hx, hpage, -⟩ := drawH_fits hw
  have hlt : cellAddr page col < Config.frameBytes := by
    simp only [cellAddr, Config.width, Config.frameBytes]; omega
  refine cursor_of_cursorAddr ?_ hcol
  rw [finalState_line_cursorAddr rfl hp hx hpage hok hcfg (hend ▸ hlt), hend]

end

theorem emit_drawH_length (p : Params) (x y len : Byte) : (emit p (.drawH x y len)).length = 11 + len.toNat :=
  emit_line_length (x := x) (page := pageOf y) (v := rowByte y) rfl

/-- Settles O29: the operation is a position and a counted data session inside the display RAM. -/
theorem drawHDrawsLine : Obligations.DrawHDrawsLine := by
  intro s x y len hidle hclosed hx hy hlen hfits hp hcfg hwf hok
  have hw : (Instr.drawH x y len).wf = true := (drawH_wf_iff x y len).mpr ⟨hx, hy, hlen, hfits⟩
  have hc : AllComplete s (emit s.params (.drawH x y len)).length := emit_drawH_length .. ▸ allOk_complete hok
  obtain ⟨hon, hcontrast, hcfg'⟩ := finalState_drawH_keeps hw hp hok
  refine ⟨(finalState (.drawH x y len) s).dev,
    exec_line _ s x (pageOf y) len.toNat (rowByte y) (by omega) ⟨hidle, hw, hclosed⟩ hc rfl (by simp),
    finalState_drawH_read hw hp hok hcfg hwf, fun hin => ?_, fun hedge hy' => ?_, hon, hcontrast, hcfg'.trans hcfg⟩
  · exact finalState_drawH_cursor hw hp hok hcfg (by omega) (by omega) (Nat.add_assoc ..)
  · refine finalState_drawH_cursor hw hp hok hcfg (by decide) (by omega) ?_
    simp only [cellAddr, pageOf, Config.pageRows, Config.width]
    omega

/-- Settles O40: a run that ends in `IDLE` with no step failed had every step `OK`. -/
theorem drawHFrame : Obligations.DrawHFrame := by
  intro s t x y len hp hcfg hwf hnf h hidle
  obtain ⟨⟨-, hw, -⟩, -⟩ := exec_next _ s t h
  obtain ⟨rfl, hc⟩ := exec_idle h hidle
  rw [emit_drawH_length] at hc
  have hok := allOk_of_complete hc hnf
  exact ⟨fun a ha => (finalState_drawH_read hw hp hok hcfg hwf a).trans (if_neg ha), finalState_drawH_keeps hw hp hok⟩

/-- Settles O51: each touched column holds the line's byte, whose only bit is that of row `y`. -/
theorem drawHClobbersPage : Obligations.DrawHClobbersPage := by
  intro s x y len hidle hclosed hx hy hlen hfits hp hcfg hwf hok
  have hw : (Instr.drawH x y len).wf = true := (drawH_wf_iff x y len).mpr ⟨hx, hy, hlen, hfits⟩
  have hc : AllComplete s (emit s.params (.drawH x y len)).length := emit_drawH_length .. ▸ allOk_complete hok
  refine ⟨_, exec_finalState _ s ⟨hidle, hw, hclosed⟩ hc, fun c row hlow hhigh hrow => ?_⟩
  have hin : cellAddr (pageOf y) x.toNat ≤ cellAddr (row / 8) c
      ∧ cellAddr (row / 8) c < cellAddr (pageOf y) x.toNat + len.toNat := by
    simp only [hrow, cellAddr, pageOf, Config.pageRows]; omega
  rw [Dev.pixel, finalState_drawH_read hw hp hok hcfg hwf, if_pos hin, getLsbD_rowByte y (Nat.mod_lt _ (by decide)),
    decide_eq_true_eq]
  omega

/-! ## `DRAWV` -/

theorem drawV_wf_iff (x y len : Byte) : (Instr.drawV x y len).wf = true ↔
    x.toNat ≤ 127 ∧ y.toNat ≤ 63 ∧ 1 ≤ len.toNat ∧ y.toNat + len.toNat ≤ 64 := by
  simp only [Instr.wf, drawVDomain, Bool.and_eq_true, decide_eq_true_eq]
  omega

theorem emit_drawV_length (p : Params) (x y len : Byte) :
    (emit p (.drawV x y len)).length = 12 * pageCount y len := by
  rw [← busCount_microsOf]
  exact busCount_pages p x y len (pageCount y len)

/-- What `DRAWV x, y, len` makes of a configured device `d` (R55, R56, R157, R161). -/
structure ColumnDrawn (x y len : Byte) (d d' : Dev) : Prop where
  line : ∀ i, i < pageCount y len → d'.gddram.read (cellAddr (pageOf y + i) x.toNat) = lineByte y len i
  frame : ∀ a, (∀ i, i < pageCount y len → a ≠ cellAddr (pageOf y + i) x.toNat) →
    d'.gddram.read a = d.gddram.read a
  keeps : d'.on = d.on ∧ d'.contrast = d.contrast ∧ d'.cfg = d.cfg
  cursor : x.toNat ≤ 126 → d'.page.val + 1 = pageOf y + pageCount y len ∧ d'.col.val = x.toNat + 1
  cursor_edge : x.toNat = 127 → pageOf y + pageCount y len ≤ 7 →
    d'.page.val = pageOf y + pageCount y len ∧ d'.col.val = 0

/-- `DRAWV` on a configured device, every step `OK`: all of its page writes. -/
theorem finalState_drawV_dev {s : State} {x y len : Byte} (hw : (Instr.drawV x y len).wf = true)
    (hp : s.params.disjoint = true) (hcfg : s.dev.cfg = .configured) (hwf : s.dev.gddram.wf = true)
    (hok : AllOk s (emit s.params (.drawV x y len)).length) :
    ColumnDrawn x y len s.dev (finalState (.drawV x y len) s).dev := by
  obtain ⟨hx, -⟩ := (drawV_wf_iff x y len).mp hw
  have hpos := pageCount_pos x y len hw
  rw [emit_drawV_length] at hok
  obtain ⟨hline, hframe, -, hon, hcontrast, hcfg', hcursor, hedge⟩ :=
    runDone_pages_dev s.params x y len (pageCount y len) (s.accept (encode (.drawV x y len))) rfl hp hx
      (pageOf_add_pageCount_le hw) hcfg hwf hok
  exact ⟨hline, hframe, ⟨hon, hcontrast, hcfg'.trans hcfg.symm⟩, hcursor hpos, hedge hpos⟩

/-- The working registers after `DRAWV` (R157). -/
theorem finalState_drawV_regs {s : State} {x y len : Byte} (hw : (Instr.drawV x y len).wf = true) :
    (finalState (.drawV x y len) s).ms = startMask y ∧ (finalState (.drawV x y len) s).me = endMask y len
      ∧ (finalState (.drawV x y len) s).pg = BitVec.ofNat 4 (pageOf y + pageCount y len)
      ∧ (finalState (.drawV x y len) s).cnt = 0#11 := by
  have hpages := pageOf_add_pageCount_le hw
  obtain ⟨hms, hme, hpg, hcnt⟩ := finalState_regs (.drawV x y len) s
  obtain ⟨rms, rme, rpg, rcnt⟩ := pages_regs (pageCount y len) s.params x y len (s.accept (encode (.drawV x y len)))
    (pageCount_pos x y len hw) le_rfl (by omega)
  rw [Nat.sub_self] at rcnt
  exact ⟨hms.trans rms, hme.trans rme, hpg.trans rpg, hcnt.trans rcnt⟩

/-- Settles O30: the page writes one after another, and the registers they leave. -/
theorem drawVDrawsLine : Obligations.DrawVDrawsLine := by
  intro s x y len hidle hclosed hx hy hlen hfits hp hcfg hwf hok
  have hw : (Instr.drawV x y len).wf = true := (drawV_wf_iff x y len).mpr ⟨hx, hy, hlen, hfits⟩
  have hacc : Accepts (.drawV x y len) s := ⟨hidle, hw, hclosed⟩
  have hc := allOk_complete hok
  obtain ⟨hms, hme, hpg, hcnt⟩ := finalState_drawV_regs (s := s) hw
  obtain ⟨hline, hframe, ⟨hon, hcontrast, hcfg'⟩, hcursor, hedge⟩ := finalState_drawV_dev hw hp hcfg hwf hok
  refine ⟨_, ?_, hline, hframe, hcursor, hedge, hon, hcontrast, hcfg'.trans hcfg⟩
  rw [exec_finalState _ s hacc hc, finalState_eq _ s hacc hc, hms, hme, hpg, hcnt,
    finalState_ie _ s hacc hc (by simp), startMask_eq_shiftLeft, endMask_eq_shiftRight]
  rfl

/-- Settles O41: a run that ends in `IDLE` with no step failed had every step `OK`. -/
theorem drawVFrame : Obligations.DrawVFrame := by
  intro s t x y len hp hcfg hwf hnf h hidle
  obtain ⟨⟨-, hw, -⟩, -⟩ := exec_next _ s t h
  obtain ⟨rfl, hc⟩ := exec_idle h hidle
  have hdrawn := finalState_drawV_dev hw hp hcfg hwf (allOk_of_complete hc hnf)
  exact ⟨hdrawn.frame, hdrawn.keeps⟩

/-- Settles O49: a row of the written pages lies in page write `row / 8 - y / 8`, whose bits are known. -/
theorem drawVLightsRows : Obligations.DrawVLightsRows := by
  intro s x y len hidle hclosed hx hy hlen hfits hp hcfg hwf hok
  have hw : (Instr.drawV x y len).wf = true := (drawV_wf_iff x y len).mpr ⟨hx, hy, hlen, hfits⟩
  obtain ⟨hpos, -, hlast, -, -⟩ := pageSpan y len hy hlen hfits
  refine ⟨_, exec_finalState _ s ⟨hidle, hw, hclosed⟩ (allOk_complete hok), fun row hlow hhigh => ?_⟩
  obtain ⟨i, hi⟩ : ∃ i, row / 8 = pageOf y + i := Nat.exists_eq_add_of_le (by rw [pageOf, Config.pageRows]; omega)
  have hpage : pageOf y = y.toNat / 8 := rfl
  have hlt : i < pageCount y len := by omega
  rw [Dev.pixel, hi, (finalState_drawV_dev hw hp hcfg hwf hok).line i hlt,
    getLsbD_lineByte hlt (Nat.mod_lt _ (by decide))]
  omega

end Sys2Proof.Machine
end

section
/-! PROOFS. The statements about the fixed sequences (spec/44_fixed_sequences.md): `PWRON`, `PWROFF`, `CONTRAST` and `INIT`,
one command session each, and `CLEAR`, a position and a counted data session over the whole display RAM. -/

namespace Sys2Proof.Machine

/-- The `INIT` payload configures the device, whatever `INIT_SEQ` is (R60). -/
theorem commands_initPayload (p : Params) (d : Dev) : d.commands p p.initPayload = d.afterInit := if_pos rfl

/-- Settles O25: one command session of the byte that switches the display on. -/
theorem pwrOnSwitchesOn : Obligations.PwrOnSwitchesOn := by
  intro s hidle hclosed hp hok
  rw [exec_cmdSession (i := .pwrOn) (l := [Config.cmdDisplayOn]) rfl ⟨hidle, rfl, hclosed⟩ hok,
    commands_displayOn s.params hp]

/-- Settles O26: one command session of the byte that switches the display off. -/
theorem pwrOffSwitchesOff : Obligations.PwrOffSwitchesOff := by
  intro s hidle hclosed hp hok
  rw [exec_cmdSession (i := .pwrOff) (l := [Config.cmdDisplayOff]) rfl ⟨hidle, rfl, hclosed⟩ hok,
    commands_displayOff s.params hp]

/-- Settles O27: one command session of the contrast byte and its argument, which the parser takes whatever it is. -/
theorem contrastSetsValue : Obligations.ContrastSetsValue := by
  intro s v hidle hclosed hp hok
  rw [exec_cmdSession (i := .contrast v) (l := [Config.cmdContrast, v]) rfl ⟨hidle, rfl, hclosed⟩ hok,
    commands_contrast s.params hp]

/-- Settles O28: one command session of the `INIT` payload, which is `INIT_SEQ` and six bytes more. -/
theorem initConfigures : Obligations.InitConfigures := by
  intro s hidle hclosed hok
  have hlen : s.params.initPayload.length + 4 = 10 + s.params.initSeq.length := by
    simp only [Params.initPayload, List.length_append, List.length_cons, List.length_nil]; omega
  rw [exec_cmdSession (i := .init) (l := s.params.initPayload) rfl ⟨hidle, rfl, hclosed⟩ (hlen ▸ hok), commands_initPayload]
  rfl

/-- Settles O31: from position (0, 0) the 1024 data bytes fill the display RAM from its first address to its last. -/
theorem clearBlanksDisplay : Obligations.ClearBlanksDisplay := by
  intro s hidle hclosed hp hcfg hwf hok
  have hi : microsOf s.params .clear
      = positionMicros s.params 0#8 0 [] ++ countedData s.params Config.frameBytes 0#8 := rfl
  have hx : (0#8 : Byte).toNat ≤ 127 := by decide
  have hfirst : cellAddr 0 (0#8 : Byte).toNat = 0 := rfl
  have hframe : cellAddr 0 (0#8 : Byte).toNat + Config.frameBytes = 1024 := rfl
  have hc : AllComplete s (emit s.params .clear).length := emit_line_length hi ▸ allOk_complete hok
  obtain ⟨hon, hcontrast, hcfg'⟩ := finalState_line_keeps hi hp hx (Nat.zero_le 7) hok
  refine ⟨(finalState .clear s).dev, exec_line .clear s _ _ _ _ (by decide) ⟨hidle, rfl, hclosed⟩ hc hi (by simp),
    fun a ha => ?_, hon, hcontrast, hcfg'.trans hcfg⟩
  rw [finalState_line_read hi hp hx (Nat.zero_le 7) hok hcfg hwf hframe.le, if_pos ⟨by omega, by omega⟩]

end Sys2Proof.Machine
end

section
/-! PROOFS. The statements about the one exception (spec/60_exceptions.md R201 to R204): a failure redirects nothing, and
`err` pulses once for each. -/

namespace Sys2Proof.Machine

/-! ## What no answer reaches -/

/-- The part of a state that no acknowledgment status reaches: all but `ERRF`, the device, the events and the answers
(R204). -/
def State.answerFree (s : State) : State :=
  { s with errf := false, dev := Dev.reset, events := [], answers := { queue := [], drawn := 0 } }

theorem answerFree_eq_iff (s t : State) :
    s.answerFree = t.answerFree ↔ s.sess = t.sess ∧ s.ie = t.ie ∧ s.phase = t.phase ∧ s.seq = t.seq
      ∧ s.op = t.op ∧ s.ra = t.ra ∧ s.rb = t.rb ∧ s.rc = t.rc
      ∧ s.ms = t.ms ∧ s.me = t.me ∧ s.pg = t.pg ∧ s.cnt = t.cnt
      ∧ s.pending = t.pending ∧ s.params = t.params ∧ s.host = t.host := by
  simp only [State.answerFree, State.mk.injEq]
  tauto

/-- A bus step that completes ends its request, whatever its status. -/
theorem complete_answerFree (k : Kind) (st : Status) (s : State) :
    (s.complete k st).answerFree = { s with pending := none }.answerFree := by
  cases k with
  | stop => rfl
  | start | addr | data => cases st <;> rfl

theorem regWrite_answerFree (s : State) (r : RegWrite) : (s.regWrite r).answerFree = s.answerFree.regWrite r := by
  cases r <;> rfl

theorem advance_answerFree (rs : List RegWrite) (s : State) :
    (s.advance rs).answerFree = s.answerFree.advance rs := by
  have hfold : rs.foldl State.regWrite s.answerFree = (rs.foldl State.regWrite s).answerFree :=
    List.foldl_hom State.answerFree fun t r => (regWrite_answerFree t r).symm
  exact congrArg (fun t : State => { t with seq := t.seq + 1 }) hfold.symm

/-- What a micro-step does to the part no answer reaches depends on that part only. -/
theorem microDone_answerFree (m : Micro) (s : State) :
    (s.microDone m).answerFree = (s.answerFree.microDone m).answerFree := by
  obtain ⟨a, rs⟩ := m
  simp only [State.microDone, advance_answerFree]
  cases a with
  | irqOff | irqOn => rfl
  | step k d => simp only [complete_answerFree]; rfl

theorem runDone_answerFree (ms : List Micro) (s : State) :
    (runDone ms s).answerFree = (runDone ms s.answerFree).answerFree := by
  induction ms generalizing s with
  | nil => rfl
  | cons m ms ih =>
    rw [runDone_cons, runDone_cons, ih, microDone_answerFree, ← ih]

/-- Two completed runs of one operation under different answers end alike, but for what answers reach (R204). -/
theorem finalState_answerFree (i : Instr) (s : State) (a : Answers) :
    (finalState i s).answerFree = (finalState i { s with answers := a }).answerFree := by
  have hrun := (runDone_answerFree (microsOf s.params i) (s.accept (encode i))).trans
    (runDone_answerFree (microsOf s.params i) (State.accept (encode i) { s with answers := a })).symm
  exact congrArg (fun t : State => { t with phase := .idle }) hrun

/-- Settles O16: every field compared is one no answer reaches, and the bus requests are `Emit` in both runs. -/
theorem failuresDoNotRedirect : Obligations.FailuresDoNotRedirect := by
  intro i s a hacc hc hc'
  have hexec := exec_finalState i s hacc hc
  have hexec' := exec_finalState i { s with answers := a } hacc hc'
  have hbus := busProjection_of_exec hexec hc (.inl le_rfl)
  have hbus' := busProjection_of_exec hexec' hc' (.inl le_rfl)
  obtain ⟨hsess, hie, hphase, hseq, hop, hra, hrb, hrc, hms, hme, hpg, hcnt, -⟩ :=
    (answerFree_eq_iff _ _).mp (finalState_answerFree i s a)
  exact ⟨_, _, hexec, hexec', hbus.trans hbus'.symm, hsess, hie, hphase, hseq, hop, hra, hrb, hrc, hms, hme, hpg, hcnt⟩

/-! ## The pulses of `err` -/

/-- A completed step raises once if it is checked and failed (R201, R202). -/
theorem countP_isErr_completionEvents (k : Kind) (a : Answer) :
    (completionEvents k a).countP Event.isErr = if k ≠ .stop ∧ a = .fail then 1 else 0 := by
  cases k <;> cases a <;> rfl

/-- Requests that all complete raise once for each checked one that fails. -/
theorem countP_isErr_eventsOf {ans : Nat → Answer} {rs : List Req} (hc : ∀ k, k < rs.length → ans k ≠ .never) :
    (eventsOf ans rs).countP Event.isErr = nackCount ans rs := by
  induction rs generalizing ans with
  | nil => rfl
  | cons r rs ih =>
    have hmask : (if r.kind = .start then [Event.irqOff] else []).countP Event.isErr = 0 := by split <;> rfl
    have hunmask : (if r.kind = .stop then [Event.irqOn] else []).countP Event.isErr = 0 := by split <;> rfl
    have hrest := ih (ans := fun k => ans (k + 1)) fun k hk => hc (k + 1) (Nat.succ_lt_succ hk)
    have hreq : Event.isErr (.req r) = false := rfl
    rw [eventsOf, if_neg (hc 0 (Nat.succ_pos _)), nackCount]
    simp [List.countP_append, hmask, hunmask, hreq, hrest, countP_isErr_completionEvents]

/-- Some checked request fails exactly if the number of those that fail is not 0. -/
theorem nackIn_iff (ans : Nat → Answer) (rs : List Req) : nackIn ans rs = true ↔ 0 < nackCount ans rs := by
  induction rs generalizing ans with
  | nil => simp [nackIn, nackCount]
  | cons r rs ih =>
    simp only [nackIn, nackCount, Bool.or_eq_true, Bool.and_eq_true, decide_eq_true_eq, ih]
    split <;> simp [*]

/-- The pulses of `err` are the raises in `TRACE` (R203). -/
theorem errPulses_eq_countP_trace (s : State) : s.errPulses = s.trace.countP Event.isErr :=
  List.countP_reverse.symm

/-- Settles O35: the raises among the events of `Emit` are its checked requests that fail, and any of them sets `ERRF`. -/
theorem onePulsePerFailure : Obligations.OnePulsePerFailure := by
  intro i s hacc hc
  have hexec := exec_finalState i s hacc hc
  have herrf : (finalState i s).errf = (s.errf || nackIn s.answers.peek (emit s.params i)) :=
    congrArg State.errf (finalState_eq i s hacc hc)
  refine ⟨_, hexec, ?_, ?_⟩
  · rw [errPulses_eq_countP_trace, trace_of_exec hexec, List.countP_append, countP_isErr_eventsOf hc,
      ← errPulses_eq_countP_trace]
  · rw [herrf, Bool.or_eq_true, nackIn_iff]

end Sys2Proof.Machine
end

section
/-! PROOFS. The statements about reset and the start of a run (spec/70_reset_and_hazards.md): `INIT` then `CLEAR` (R232),
and `rst`, between operations and inside one (R230, R231). -/

namespace Sys2Proof.Machine

/-! ## `INIT`, then `CLEAR` -/

/-- Requests all answered `OK` raise nothing (R201). -/
theorem nackIn_eq_false_of_ok {ans : Nat → Answer} {rs : List Req} (h : ∀ k, k < rs.length → ans k = .ok) :
    nackIn ans rs = false := by
  rw [← actNack_acts]
  exact actNack_ok ans _ fun k hk => h k (by rwa [busCount_acts] at hk)

/-- An operation answered `OK` throughout sets no error. -/
theorem completedState_errf_of_allOk {i : Instr} {s : State} (d : Dev) (hok : AllOk s (emit s.params i).length) :
    (completedState i s d).errf = s.errf := by
  rw [completedState, nackIn_eq_false_of_ok hok, Bool.or_false]

/-- The steps after a completed operation are answered by what is left of a longer run of `OK`. -/
theorem completedState_allOk {i : Instr} {s : State} (d : Dev) {n : Nat}
    (hok : AllOk s ((emit s.params i).length + n)) : AllOk (completedState i s d) n := by
  intro k hk
  rw [completedState, peek_after]
  exact hok _ (Nat.add_lt_add_left hk _)

/-- Settles O60: `INIT` leaves a configured device that is on, its display RAM one draw, and 1035 `OK` answers for
`CLEAR`, which writes every byte of it. -/
theorem bootBlanksDisplay : Obligations.BootBlanksDisplay := by
  intro s hidle hclosed herr hp hok
  obtain ⟨-, -, -, -, -, -, -, -, -, -, -, hclearLen, hinitLen⟩ := emitLengths s.params 0#8 0#8 0#8 0#8 0#8
  have hokInit : AllOk s (10 + s.params.initSeq.length) := fun k hk => hok k (Nat.lt_add_right _ hk)
  let t := completedState .init s s.dev.afterInit
  have hinit : exec .init s = .next t := initConfigures s hidle hclosed hokInit
  have hokClear : AllOk t 1035 := completedState_allOk _ (by rwa [hinitLen])
  obtain ⟨d, hclear, hblank, hon, -, hcfg⟩ := clearBlanksDisplay t rfl rfl hp rfl rfl hokClear
  have hrun : execAll [.init, .clear] s = .next { completedState .clear t d with cnt := 0#11 } := by
    simp only [execAll, hinit, hclear]
  have herrClear : (completedState .clear t d).errf = t.errf :=
    completedState_errf_of_allOk d (hclearLen.symm ▸ hokClear)
  have herrInit : t.errf = s.errf := completedState_errf_of_allOk _ (hinitLen.symm ▸ hokInit)
  exact ⟨_, hrun, (herrClear.trans herrInit).trans herr, rfl, rfl, rfl, hcfg, hon, hblank⟩

/-! ## `rst` -/

/-- A reset keeps the device where no session is open (R230; notes/assumptions/8.md). -/
theorem assertReset_dev_of_closed {s : State} (h : s.sess = .closed) : s.assertReset.dev = s.dev := by
  rw [assertReset_dev, h, if_neg nofun]

/-- A reset inside a session leaves the device unspecified (R231). -/
theorem assertReset_dev_of_opened {s : State} (h : s.sess = .opened) : s.assertReset.dev = s.dev.havoc := by
  rw [assertReset_dev, if_pos h]

/-- `rst` is taken from any state (R230). -/
theorem step_rst {s : State} {rest : List HostMove} (hh : s.host = .rst :: rest) :
    step s = .next (State.assertReset { s with host := rest }) := by
  have htask : s.task = .answer (.next (State.assertReset { s with host := rest })) := by simp [State.task, hh]
  rw [step, htask]

/-- `rst` inside an accepted operation ends it after the micro-steps given (R230, R246). -/
theorem step_wordThenRst {s : State} {w : Word} {n : Nat} {rest : List HostMove} {i : Instr}
    (hh : s.host = .wordThenRst w n :: rest) (hd : decode w = .ok i) (hacc : Accepts i s) :
    step s = .next
      (runMicros ((microsOf s.params i).take n) (State.accept w { s with host := rest })).assertReset := by
  have ⟨hidle, _⟩ := hacc
  have htask : s.task = .answer (State.cutShort i n { s with host := rest }) := by simp [State.task, hh, hidle, hd]
  have hnone : refusalOf i { s with host := rest } = none := (refusalOf_eq_none i _).mpr hacc
  rw [step, htask, State.cutShort, hnone, encode_of_decode hd]

/-- Settles O11: the step answers the reset of the state it found, whatever that was. -/
theorem resetInput : Obligations.ResetInput := by
  intro s rest hh
  exact ⟨_, step_rst hh, rfl, rfl, rfl, rfl, rfl, rfl, rfl, rfl, rfl, assertReset_dev_of_closed, assertReset_dev_of_opened,
    rfl, rfl, rfl⟩

/-- Settles O12: the step answers the reset of the state the first micro-steps led to, and these write neither the host's
later moves nor the parameters. -/
theorem resetInsideOperation : Obligations.ResetInsideOperation := by
  intro s w n rest i hh hd hacc
  obtain ⟨hparams, hhost, -⟩ :=
    runMicros_fixed ((microsOf s.params i).take n) (State.accept w { s with host := rest })
  exact ⟨_, _, rfl, step_wordThenRst hh hd hacc, rfl, rfl, rfl, rfl, rfl, rfl, rfl, rfl, assertReset_dev_of_closed,
    assertReset_dev_of_opened, hhost, hparams⟩

end Sys2Proof.Machine
end
